-- ==== Sys2Proof/Word.lean ====
section
/-! DEFINITION. The word types of the machine (spec/00_scope.md R4, spec/20_memory.md R50 and R51): every bus transfer is
one byte, a CPU address has 16 bits, a PPU address 14 used bits, a pixel word 32 bits. -/

namespace Sys2Proof

/-- A byte: registers A, X, Y, SP, P and every bus transfer (R4 "data width"). -/
abbrev Byte := BitVec 8

/-- A CPU bus address (R4 "CPU address width"; PC). -/
abbrev Addr := BitVec 16

/-- A PPU bus address (R4 "PPU address width": 14 bits used). -/
abbrev PpuAddr := BitVec 14

/-- A 6-bit colour index: a palette entry (R29), the index `c` of R347. -/
abbrev Colour := BitVec 6

/-- A framebuffer word, RGBA8888 (R36). -/
abbrev Rgba := BitVec 32

end Sys2Proof
end

