-- ==== Sys2Proof/Machine/Bits.lean ====
section
/-! DEFINITION. Byte order and width helpers of the notation of spec/00_scope.md section 4.1. -/

namespace Sys2Proof.Machine

/-- `lo(w)`. -/
def lo (w : Addr) : Byte := w.setWidth 8

/-- `hi(w)`. -/
def hi (w : Addr) : Byte := (w >>> 8).setWidth 8

/-- `w16(l, h)`: the little-endian assembly of a 16-bit value (R52). -/
def w16 (l h : Byte) : Addr := h ++ l

/-- `zext_16(b)`. -/
def zext16 (b : Byte) : Addr := b.setWidth 16

/-- `sext_8(b)` reduced to 16 bits, as the branch target of R114 uses it. -/
def sext16 (b : Byte) : Addr := b.signExtend 16

/-- A Bool used as a number (00_scope.md 4.1). -/
def bit (b : Bool) : Nat := if b then 1 else 0

end Sys2Proof.Machine
end

