-- ==== Sys2Proof/Operand.lean ====
section
/-! DEFINITION. The operand of an instruction: its addressing mode with the operand bytes it holds
(spec/30_encoding.md R100 and R103 to R113). -/

namespace Sys2Proof

/-- An addressing mode together with the operand bytes of the instruction. Two-byte operands are already assembled,
low byte first (R109). -/
inductive Operand where
  /-- R104 accumulator. -/
  | acc
  /-- R105 immediate. -/
  | imm (v : Byte)
  /-- R106 zero page. -/
  | zp (z : Byte)
  /-- R107 zero page indexed by X. -/
  | zpx (z : Byte)
  /-- R108 zero page indexed by Y. -/
  | zpy (z : Byte)
  /-- R109 absolute. -/
  | abs (a : Addr)
  /-- R110 absolute indexed by X. -/
  | abx (a : Addr)
  /-- R111 absolute indexed by Y. -/
  | aby (a : Addr)
  /-- R112 indexed indirect. -/
  | izx (z : Byte)
  /-- R113 indirect indexed. -/
  | izy (z : Byte)
deriving DecidableEq, Repr

end Sys2Proof
end

