-- ==== Sys2Proof/Syntax.lean ====
section
/-! DEFINITION. The instruction set: one constructor per instruction of spec/opcode_table.json; the rows of one mnemonic that
differ in the addressing mode are the operand forms of its constructor (spec/30_encoding.md R118). JMP has two constructors
(R200, R201 have different operations) and ANC two (R258 gives it two opcode bytes for one form). -/

namespace Sys2Proof

/-- An instruction with its operand bytes. Which operand forms an instruction has is `Instr.wf` (WellFormed.lean). -/
inductive Instr where
  /-- LDA, R140. -/
  | lda (m : Operand)
  /-- LDX, R141. -/
  | ldx (m : Operand)
  /-- LDY, R142. -/
  | ldy (m : Operand)
  /-- STA, R143. -/
  | sta (m : Operand)
  /-- STX, R144. -/
  | stx (m : Operand)
  /-- STY, R145. -/
  | sty (m : Operand)
  /-- TAX, R146. -/
  | tax
  /-- TAY, R147. -/
  | tay
  /-- TXA, R148. -/
  | txa
  /-- TYA, R149. -/
  | tya
  /-- TSX, R150. -/
  | tsx
  /-- TXS, R151. -/
  | txs
  /-- ADC, R160. -/
  | adc (m : Operand)
  /-- SBC, R161. -/
  | sbc (m : Operand)
  /-- AND, R162. -/
  | and (m : Operand)
  /-- ORA, R163. -/
  | ora (m : Operand)
  /-- EOR, R164. -/
  | eor (m : Operand)
  /-- CMP, R165. -/
  | cmp (m : Operand)
  /-- CPX, R166. -/
  | cpx (m : Operand)
  /-- CPY, R167. -/
  | cpy (m : Operand)
  /-- BIT, R168. -/
  | bit (m : Operand)
  /-- INC, R169. -/
  | inc (m : Operand)
  /-- DEC, R170. -/
  | dec (m : Operand)
  /-- INX, R171. -/
  | inx
  /-- INY, R172. -/
  | iny
  /-- DEX, R173. -/
  | dex
  /-- DEY, R174. -/
  | dey
  /-- ASL, R190. -/
  | asl (m : Operand)
  /-- LSR, R191. -/
  | lsr (m : Operand)
  /-- ROL, R192. -/
  | rol (m : Operand)
  /-- ROR, R193. -/
  | ror (m : Operand)
  /-- JMP, R200. -/
  | jmpAbs (a : Addr)
  /-- JMP, R201. -/
  | jmpInd (p : Addr)
  /-- JSR, R202. -/
  | jsr (a : Addr)
  /-- RTS, R203. -/
  | rts
  /-- RTI, R204. -/
  | rti
  /-- BRK, R205. -/
  | brk
  /-- BPL, R207. -/
  | bpl (o : Byte)
  /-- BMI, R208. -/
  | bmi (o : Byte)
  /-- BVC, R209. -/
  | bvc (o : Byte)
  /-- BVS, R210. -/
  | bvs (o : Byte)
  /-- BCC, R211. -/
  | bcc (o : Byte)
  /-- BCS, R212. -/
  | bcs (o : Byte)
  /-- BNE, R213. -/
  | bne (o : Byte)
  /-- BEQ, R214. -/
  | beq (o : Byte)
  /-- PHA, R231. -/
  | pha
  /-- PLA, R232. -/
  | pla
  /-- PHP, R233. -/
  | php
  /-- PLP, R234. -/
  | plp
  /-- CLC, R235. -/
  | clc
  /-- SEC, R236. -/
  | sec
  /-- CLI, R237. -/
  | cli
  /-- SEI, R238. -/
  | sei
  /-- CLV, R239. -/
  | clv
  /-- CLD, R240. -/
  | cld
  /-- SED, R241. -/
  | sed
  /-- NOP, R242. -/
  | nop
  /-- LAX, R250. -/
  | lax (m : Operand)
  /-- SAX, R251. -/
  | sax (m : Operand)
  /-- SLO, R252. -/
  | slo (m : Operand)
  /-- RLA, R253. -/
  | rla (m : Operand)
  /-- SRE, R254. -/
  | sre (m : Operand)
  /-- RRA, R255. -/
  | rra (m : Operand)
  /-- DCP, R256. -/
  | dcp (m : Operand)
  /-- ISC, R257. -/
  | isc (m : Operand)
  /-- ANC, R258, the byte $0B. -/
  | anc (v : Byte)
  /-- ANC, R258, the byte $2B. -/
  | anc2B (v : Byte)
  /-- ALR, R259. -/
  | alr (v : Byte)
  /-- ARR, R260. -/
  | arr (v : Byte)
  /-- SBX, R261. -/
  | sbx (v : Byte)
  /-- USBC, R262. -/
  | usbc (v : Byte)
  /-- XAA, R263. -/
  | xaa (v : Byte)
  /-- LXA, R264. -/
  | lxa (v : Byte)
  /-- LAS, R265, mode ABY. -/
  | las (a : Addr)
  /-- SHY, R266, mode ABX. -/
  | shy (a : Addr)
  /-- SHX, R267, mode ABY. -/
  | shx (a : Addr)
  /-- AHX, R268. -/
  | ahx (m : Operand)
  /-- TAS, R269, mode ABY. -/
  | tas (a : Addr)
  /-- UNK, R270, R119: one of the 39 unknown opcode bytes. -/
  | unk (op : Byte)
deriving DecidableEq, Repr

end Sys2Proof
end

