-- ==== Sys2Proof/WellFormed.lean ====
section
/-! DEFINITION. Which instruction terms are instructions of the machine: the operand forms each has (spec/30_encoding.md
R118 and the "Encoding" lines of R140 to R270) and the 39 unknown opcode bytes (R119). -/

namespace Sys2Proof

/-- The eight modes of LDA, ADC, SBC, AND, ORA, EOR, CMP (R140, R160 to R165). -/
def Operand.isReadForm : Operand → Bool
  | .imm _ | .zp _ | .zpx _ | .abs _ | .abx _ | .aby _ | .izx _ | .izy _ => true
  | .acc | .zpy _ => false

/-- LDX (R141). -/
def Operand.isLdxForm : Operand → Bool
  | .imm _ | .zp _ | .zpy _ | .abs _ | .aby _ => true
  | .acc | .zpx _ | .abx _ | .izx _ | .izy _ => false

/-- LDY (R142). -/
def Operand.isLdyForm : Operand → Bool
  | .imm _ | .zp _ | .zpx _ | .abs _ | .abx _ => true
  | .acc | .zpy _ | .aby _ | .izx _ | .izy _ => false

/-- STA and the unofficial SLO, RLA, SRE, RRA, DCP, ISC (R143, R252 to R257). -/
def Operand.isStoreForm : Operand → Bool
  | .zp _ | .zpx _ | .abs _ | .abx _ | .aby _ | .izx _ | .izy _ => true
  | .acc | .imm _ | .zpy _ => false

/-- STX (R144). -/
def Operand.isStxForm : Operand → Bool
  | .zp _ | .zpy _ | .abs _ => true
  | .acc | .imm _ | .zpx _ | .abx _ | .aby _ | .izx _ | .izy _ => false

/-- STY (R145). -/
def Operand.isStyForm : Operand → Bool
  | .zp _ | .zpx _ | .abs _ => true
  | .acc | .imm _ | .zpy _ | .abx _ | .aby _ | .izx _ | .izy _ => false

/-- CPX, CPY (R166, R167). -/
def Operand.isCpxForm : Operand → Bool
  | .imm _ | .zp _ | .abs _ => true
  | .acc | .zpx _ | .zpy _ | .abx _ | .aby _ | .izx _ | .izy _ => false

/-- BIT (R168). -/
def Operand.isBitForm : Operand → Bool
  | .zp _ | .abs _ => true
  | .acc | .imm _ | .zpx _ | .zpy _ | .abx _ | .aby _ | .izx _ | .izy _ => false

/-- INC, DEC (R169, R170). -/
def Operand.isIncForm : Operand → Bool
  | .zp _ | .zpx _ | .abs _ | .abx _ => true
  | .acc | .imm _ | .zpy _ | .aby _ | .izx _ | .izy _ => false

/-- ASL, LSR, ROL, ROR (R190 to R193). -/
def Operand.isShiftForm : Operand → Bool
  | .acc | .zp _ | .zpx _ | .abs _ | .abx _ => true
  | .imm _ | .zpy _ | .aby _ | .izx _ | .izy _ => false

/-- LAX (R250). -/
def Operand.isLaxForm : Operand → Bool
  | .zp _ | .zpy _ | .abs _ | .aby _ | .izx _ | .izy _ => true
  | .acc | .imm _ | .zpx _ | .abx _ => false

/-- SAX (R251). -/
def Operand.isSaxForm : Operand → Bool
  | .zp _ | .zpy _ | .abs _ | .izx _ => true
  | .acc | .imm _ | .zpx _ | .abx _ | .aby _ | .izy _ => false

/-- AHX (R268). -/
def Operand.isAhxForm : Operand → Bool
  | .aby _ | .izy _ => true
  | .acc | .imm _ | .zp _ | .zpx _ | .zpy _ | .abs _ | .abx _ | .izx _ => false

/-- R119: the unknown opcodes. -/
def unknownOpcodes : List Byte :=
  [ 0x02, 0x04, 0x0C, 0x12, 0x14, 0x1A, 0x1C, 0x22, 0x32, 0x34, 0x3A, 0x3C, 0x42,
    0x44, 0x52, 0x54, 0x5A, 0x5C, 0x62, 0x64, 0x72, 0x74, 0x7A, 0x7C, 0x80, 0x82,
    0x89, 0x92, 0xB2, 0xC2, 0xD2, 0xD4, 0xDA, 0xDC, 0xE2, 0xF2, 0xF4, 0xFA, 0xFC ]

/-- The instruction has this operand form. -/
def Instr.wf (i : Instr) : Bool :=
  match i with
  | .lda m => m.isReadForm
  | .ldx m => m.isLdxForm
  | .ldy m => m.isLdyForm
  | .sta m => m.isStoreForm
  | .stx m => m.isStxForm
  | .sty m => m.isStyForm
  | .tax => true
  | .tay => true
  | .txa => true
  | .tya => true
  | .tsx => true
  | .txs => true
  | .adc m => m.isReadForm
  | .sbc m => m.isReadForm
  | .and m => m.isReadForm
  | .ora m => m.isReadForm
  | .eor m => m.isReadForm
  | .cmp m => m.isReadForm
  | .cpx m => m.isCpxForm
  | .cpy m => m.isCpxForm
  | .bit m => m.isBitForm
  | .inc m => m.isIncForm
  | .dec m => m.isIncForm
  | .inx => true
  | .iny => true
  | .dex => true
  | .dey => true
  | .asl m => m.isShiftForm
  | .lsr m => m.isShiftForm
  | .rol m => m.isShiftForm
  | .ror m => m.isShiftForm
  | .jmpAbs _ => true
  | .jmpInd _ => true
  | .jsr _ => true
  | .rts => true
  | .rti => true
  | .brk => true
  | .bpl _ => true
  | .bmi _ => true
  | .bvc _ => true
  | .bvs _ => true
  | .bcc _ => true
  | .bcs _ => true
  | .bne _ => true
  | .beq _ => true
  | .pha => true
  | .pla => true
  | .php => true
  | .plp => true
  | .clc => true
  | .sec => true
  | .cli => true
  | .sei => true
  | .clv => true
  | .cld => true
  | .sed => true
  | .nop => true
  | .lax m => m.isLaxForm
  | .sax m => m.isSaxForm
  | .slo m => m.isStoreForm
  | .rla m => m.isStoreForm
  | .sre m => m.isStoreForm
  | .rra m => m.isStoreForm
  | .dcp m => m.isStoreForm
  | .isc m => m.isStoreForm
  | .anc _ => true
  | .anc2B _ => true
  | .alr _ => true
  | .arr _ => true
  | .sbx _ => true
  | .usbc _ => true
  | .xaa _ => true
  | .lxa _ => true
  | .las _ => true
  | .shy _ => true
  | .shx _ => true
  | .ahx m => m.isAhxForm
  | .tas _ => true
  | .unk op => unknownOpcodes.contains op

end Sys2Proof
end

