-- ==== Sys2Proof/Decode.lean ====
section
/-! DEFINITION. Decoding and encoding (spec/30_encoding.md R100 to R102, R118, R119). The decoder follows the opcode matrix
of R118; the encoder the "Encoding" lines of the instruction rules R140 to R270. -/

namespace Sys2Proof

/-- A cell of the matrix: an instruction without operand bytes, or what it makes of its one or two operand bytes
(formats F1, F2, F3 of R100). -/
inductive OpcodeEntry where
  | none (i : Instr)
  | byte (f : Byte → Instr)
  | word (f : Addr → Instr)

/-- R118, row $0x. -/
def opcodeRow0 : List OpcodeEntry :=
  [ .none .brk
  , .byte fun v => .ora (.izx v)
  , .none (.unk 0x02)
  , .byte fun v => .slo (.izx v)
  , .none (.unk 0x04)
  , .byte fun v => .ora (.zp v)
  , .byte fun v => .asl (.zp v)
  , .byte fun v => .slo (.zp v)
  , .none .php
  , .byte fun v => .ora (.imm v)
  , .none (.asl .acc)
  , .byte .anc
  , .none (.unk 0x0C)
  , .word fun a => .ora (.abs a)
  , .word fun a => .asl (.abs a)
  , .word fun a => .slo (.abs a) ]

/-- R118, row $1x. -/
def opcodeRow1 : List OpcodeEntry :=
  [ .byte .bpl
  , .byte fun v => .ora (.izy v)
  , .none (.unk 0x12)
  , .byte fun v => .slo (.izy v)
  , .none (.unk 0x14)
  , .byte fun v => .ora (.zpx v)
  , .byte fun v => .asl (.zpx v)
  , .byte fun v => .slo (.zpx v)
  , .none .clc
  , .word fun a => .ora (.aby a)
  , .none (.unk 0x1A)
  , .word fun a => .slo (.aby a)
  , .none (.unk 0x1C)
  , .word fun a => .ora (.abx a)
  , .word fun a => .asl (.abx a)
  , .word fun a => .slo (.abx a) ]

/-- R118, row $2x. -/
def opcodeRow2 : List OpcodeEntry :=
  [ .word .jsr
  , .byte fun v => .and (.izx v)
  , .none (.unk 0x22)
  , .byte fun v => .rla (.izx v)
  , .byte fun v => .bit (.zp v)
  , .byte fun v => .and (.zp v)
  , .byte fun v => .rol (.zp v)
  , .byte fun v => .rla (.zp v)
  , .none .plp
  , .byte fun v => .and (.imm v)
  , .none (.rol .acc)
  , .byte .anc2B
  , .word fun a => .bit (.abs a)
  , .word fun a => .and (.abs a)
  , .word fun a => .rol (.abs a)
  , .word fun a => .rla (.abs a) ]

/-- R118, row $3x. -/
def opcodeRow3 : List OpcodeEntry :=
  [ .byte .bmi
  , .byte fun v => .and (.izy v)
  , .none (.unk 0x32)
  , .byte fun v => .rla (.izy v)
  , .none (.unk 0x34)
  , .byte fun v => .and (.zpx v)
  , .byte fun v => .rol (.zpx v)
  , .byte fun v => .rla (.zpx v)
  , .none .sec
  , .word fun a => .and (.aby a)
  , .none (.unk 0x3A)
  , .word fun a => .rla (.aby a)
  , .none (.unk 0x3C)
  , .word fun a => .and (.abx a)
  , .word fun a => .rol (.abx a)
  , .word fun a => .rla (.abx a) ]

/-- R118, row $4x. -/
def opcodeRow4 : List OpcodeEntry :=
  [ .none .rti
  , .byte fun v => .eor (.izx v)
  , .none (.unk 0x42)
  , .byte fun v => .sre (.izx v)
  , .none (.unk 0x44)
  , .byte fun v => .eor (.zp v)
  , .byte fun v => .lsr (.zp v)
  , .byte fun v => .sre (.zp v)
  , .none .pha
  , .byte fun v => .eor (.imm v)
  , .none (.lsr .acc)
  , .byte .alr
  , .word .jmpAbs
  , .word fun a => .eor (.abs a)
  , .word fun a => .lsr (.abs a)
  , .word fun a => .sre (.abs a) ]

/-- R118, row $5x. -/
def opcodeRow5 : List OpcodeEntry :=
  [ .byte .bvc
  , .byte fun v => .eor (.izy v)
  , .none (.unk 0x52)
  , .byte fun v => .sre (.izy v)
  , .none (.unk 0x54)
  , .byte fun v => .eor (.zpx v)
  , .byte fun v => .lsr (.zpx v)
  , .byte fun v => .sre (.zpx v)
  , .none .cli
  , .word fun a => .eor (.aby a)
  , .none (.unk 0x5A)
  , .word fun a => .sre (.aby a)
  , .none (.unk 0x5C)
  , .word fun a => .eor (.abx a)
  , .word fun a => .lsr (.abx a)
  , .word fun a => .sre (.abx a) ]

/-- R118, row $6x. -/
def opcodeRow6 : List OpcodeEntry :=
  [ .none .rts
  , .byte fun v => .adc (.izx v)
  , .none (.unk 0x62)
  , .byte fun v => .rra (.izx v)
  , .none (.unk 0x64)
  , .byte fun v => .adc (.zp v)
  , .byte fun v => .ror (.zp v)
  , .byte fun v => .rra (.zp v)
  , .none .pla
  , .byte fun v => .adc (.imm v)
  , .none (.ror .acc)
  , .byte .arr
  , .word .jmpInd
  , .word fun a => .adc (.abs a)
  , .word fun a => .ror (.abs a)
  , .word fun a => .rra (.abs a) ]

/-- R118, row $7x. -/
def opcodeRow7 : List OpcodeEntry :=
  [ .byte .bvs
  , .byte fun v => .adc (.izy v)
  , .none (.unk 0x72)
  , .byte fun v => .rra (.izy v)
  , .none (.unk 0x74)
  , .byte fun v => .adc (.zpx v)
  , .byte fun v => .ror (.zpx v)
  , .byte fun v => .rra (.zpx v)
  , .none .sei
  , .word fun a => .adc (.aby a)
  , .none (.unk 0x7A)
  , .word fun a => .rra (.aby a)
  , .none (.unk 0x7C)
  , .word fun a => .adc (.abx a)
  , .word fun a => .ror (.abx a)
  , .word fun a => .rra (.abx a) ]

/-- R118, row $8x. -/
def opcodeRow8 : List OpcodeEntry :=
  [ .none (.unk 0x80)
  , .byte fun v => .sta (.izx v)
  , .none (.unk 0x82)
  , .byte fun v => .sax (.izx v)
  , .byte fun v => .sty (.zp v)
  , .byte fun v => .sta (.zp v)
  , .byte fun v => .stx (.zp v)
  , .byte fun v => .sax (.zp v)
  , .none .dey
  , .none (.unk 0x89)
  , .none .txa
  , .byte .xaa
  , .word fun a => .sty (.abs a)
  , .word fun a => .sta (.abs a)
  , .word fun a => .stx (.abs a)
  , .word fun a => .sax (.abs a) ]

/-- R118, row $9x. -/
def opcodeRow9 : List OpcodeEntry :=
  [ .byte .bcc
  , .byte fun v => .sta (.izy v)
  , .none (.unk 0x92)
  , .byte fun v => .ahx (.izy v)
  , .byte fun v => .sty (.zpx v)
  , .byte fun v => .sta (.zpx v)
  , .byte fun v => .stx (.zpy v)
  , .byte fun v => .sax (.zpy v)
  , .none .tya
  , .word fun a => .sta (.aby a)
  , .none .txs
  , .word .tas
  , .word .shy
  , .word fun a => .sta (.abx a)
  , .word .shx
  , .word fun a => .ahx (.aby a) ]

/-- R118, row $Ax. -/
def opcodeRowA : List OpcodeEntry :=
  [ .byte fun v => .ldy (.imm v)
  , .byte fun v => .lda (.izx v)
  , .byte fun v => .ldx (.imm v)
  , .byte fun v => .lax (.izx v)
  , .byte fun v => .ldy (.zp v)
  , .byte fun v => .lda (.zp v)
  , .byte fun v => .ldx (.zp v)
  , .byte fun v => .lax (.zp v)
  , .none .tay
  , .byte fun v => .lda (.imm v)
  , .none .tax
  , .byte .lxa
  , .word fun a => .ldy (.abs a)
  , .word fun a => .lda (.abs a)
  , .word fun a => .ldx (.abs a)
  , .word fun a => .lax (.abs a) ]

/-- R118, row $Bx. -/
def opcodeRowB : List OpcodeEntry :=
  [ .byte .bcs
  , .byte fun v => .lda (.izy v)
  , .none (.unk 0xB2)
  , .byte fun v => .lax (.izy v)
  , .byte fun v => .ldy (.zpx v)
  , .byte fun v => .lda (.zpx v)
  , .byte fun v => .ldx (.zpy v)
  , .byte fun v => .lax (.zpy v)
  , .none .clv
  , .word fun a => .lda (.aby a)
  , .none .tsx
  , .word .las
  , .word fun a => .ldy (.abx a)
  , .word fun a => .lda (.abx a)
  , .word fun a => .ldx (.aby a)
  , .word fun a => .lax (.aby a) ]

/-- R118, row $Cx. -/
def opcodeRowC : List OpcodeEntry :=
  [ .byte fun v => .cpy (.imm v)
  , .byte fun v => .cmp (.izx v)
  , .none (.unk 0xC2)
  , .byte fun v => .dcp (.izx v)
  , .byte fun v => .cpy (.zp v)
  , .byte fun v => .cmp (.zp v)
  , .byte fun v => .dec (.zp v)
  , .byte fun v => .dcp (.zp v)
  , .none .iny
  , .byte fun v => .cmp (.imm v)
  , .none .dex
  , .byte .sbx
  , .word fun a => .cpy (.abs a)
  , .word fun a => .cmp (.abs a)
  , .word fun a => .dec (.abs a)
  , .word fun a => .dcp (.abs a) ]

/-- R118, row $Dx. -/
def opcodeRowD : List OpcodeEntry :=
  [ .byte .bne
  , .byte fun v => .cmp (.izy v)
  , .none (.unk 0xD2)
  , .byte fun v => .dcp (.izy v)
  , .none (.unk 0xD4)
  , .byte fun v => .cmp (.zpx v)
  , .byte fun v => .dec (.zpx v)
  , .byte fun v => .dcp (.zpx v)
  , .none .cld
  , .word fun a => .cmp (.aby a)
  , .none (.unk 0xDA)
  , .word fun a => .dcp (.aby a)
  , .none (.unk 0xDC)
  , .word fun a => .cmp (.abx a)
  , .word fun a => .dec (.abx a)
  , .word fun a => .dcp (.abx a) ]

/-- R118, row $Ex. -/
def opcodeRowE : List OpcodeEntry :=
  [ .byte fun v => .cpx (.imm v)
  , .byte fun v => .sbc (.izx v)
  , .none (.unk 0xE2)
  , .byte fun v => .isc (.izx v)
  , .byte fun v => .cpx (.zp v)
  , .byte fun v => .sbc (.zp v)
  , .byte fun v => .inc (.zp v)
  , .byte fun v => .isc (.zp v)
  , .none .inx
  , .byte fun v => .sbc (.imm v)
  , .none .nop
  , .byte .usbc
  , .word fun a => .cpx (.abs a)
  , .word fun a => .sbc (.abs a)
  , .word fun a => .inc (.abs a)
  , .word fun a => .isc (.abs a) ]

/-- R118, row $Fx. -/
def opcodeRowF : List OpcodeEntry :=
  [ .byte .beq
  , .byte fun v => .sbc (.izy v)
  , .none (.unk 0xF2)
  , .byte fun v => .isc (.izy v)
  , .none (.unk 0xF4)
  , .byte fun v => .sbc (.zpx v)
  , .byte fun v => .inc (.zpx v)
  , .byte fun v => .isc (.zpx v)
  , .none .sed
  , .word fun a => .sbc (.aby a)
  , .none (.unk 0xFA)
  , .word fun a => .isc (.aby a)
  , .none (.unk 0xFC)
  , .word fun a => .sbc (.abx a)
  , .word fun a => .inc (.abx a)
  , .word fun a => .isc (.abx a) ]

/-- R118: the opcode matrix, row by high nibble, column by low nibble. -/
def opcodeMatrix : List (List OpcodeEntry) :=
  [ opcodeRow0, opcodeRow1, opcodeRow2, opcodeRow3 ] ++ [ opcodeRow4, opcodeRow5, opcodeRow6, opcodeRow7 ]
    ++ [ opcodeRow8, opcodeRow9, opcodeRowA, opcodeRowB ] ++ [ opcodeRowC, opcodeRowD, opcodeRowE, opcodeRowF ]

/-- R101: the whole opcode byte decides. Every row has 16 cells, so the default is never taken. -/
def opcodeEntry (op : Byte) : OpcodeEntry :=
  (opcodeMatrix.getD (op.toNat / 16) []).getD (op.toNat % 16) (.none (.unk op))

/-- R102: how many operand bytes follow the opcode byte. -/
def operandBytes (op : Byte) : Nat :=
  match opcodeEntry op with
  | .none _ => 0
  | .byte _ => 1
  | .word _ => 2

/-- Why a list of bytes is no instruction. No opcode byte is itself refused (R101). -/
inductive DecodeReject where
  /-- No byte at all. -/
  | noBytes
  /-- The operand bytes the opcode asks for are not all there. -/
  | operandMissing (op : Byte)
deriving DecidableEq, Repr

/-- The instruction at the head of a list of bytes, with the rest of the list. Operand words are low byte first (R109). -/
def decode (bytes : List Byte) : Except DecodeReject (Instr × List Byte) :=
  match bytes with
  | [] => .error .noBytes
  | op :: rest =>
    match opcodeEntry op with
    | .none i => .ok (i, rest)
    | .byte f =>
      match rest with
      | [] => .error (.operandMissing op)
      | v :: rest => .ok (f v, rest)
    | .word f =>
      match rest with
      | [] => .error (.operandMissing op)
      | [_] => .error (.operandMissing op)
      | l :: h :: rest => .ok (f (Machine.w16 l h), rest)

/-- The bytes of a table word: bit 0 of `w` is bit 0 of the first byte; bits from `nbits` up are 0. An instruction has at
most three bytes (R100). -/
def tableBytes (nbits w : Nat) : List Byte :=
  let w := w % 2 ^ nbits
  [BitVec.ofNat 8 w, BitVec.ofNat 8 (w / 2 ^ 8), BitVec.ofNat 8 (w / 2 ^ 16)]

/-- The instruction the decoder reads from a row of the opcode table. -/
def decodeTableWord (nbits w : Nat) : Option Instr :=
  match decode (tableBytes nbits w) with
  | .ok (i, _) => some i
  | .error _ => none

/-! ### The encoder -/

/-- The operand bytes of an operand, in the order they follow the opcode (R100, R109). -/
def Operand.bytes : Operand → List Byte
  | .acc => []
  | .imm v => [v]
  | .zp z => [z]
  | .zpx z => [z]
  | .zpy z => [z]
  | .abs a => [Machine.lo a, Machine.hi a]
  | .abx a => [Machine.lo a, Machine.hi a]
  | .aby a => [Machine.lo a, Machine.hi a]
  | .izx z => [z]
  | .izy z => [z]

/-- The operand bytes of an instruction. -/
def Instr.operandBytes (i : Instr) : List Byte :=
  match i with
  | .lda m => m.bytes
  | .ldx m => m.bytes
  | .ldy m => m.bytes
  | .sta m => m.bytes
  | .stx m => m.bytes
  | .sty m => m.bytes
  | .tax => []
  | .tay => []
  | .txa => []
  | .tya => []
  | .tsx => []
  | .txs => []
  | .adc m => m.bytes
  | .sbc m => m.bytes
  | .and m => m.bytes
  | .ora m => m.bytes
  | .eor m => m.bytes
  | .cmp m => m.bytes
  | .cpx m => m.bytes
  | .cpy m => m.bytes
  | .bit m => m.bytes
  | .inc m => m.bytes
  | .dec m => m.bytes
  | .inx => []
  | .iny => []
  | .dex => []
  | .dey => []
  | .asl m => m.bytes
  | .lsr m => m.bytes
  | .rol m => m.bytes
  | .ror m => m.bytes
  | .jmpAbs a => [Machine.lo a, Machine.hi a]
  | .jmpInd a => [Machine.lo a, Machine.hi a]
  | .jsr a => [Machine.lo a, Machine.hi a]
  | .rts => []
  | .rti => []
  | .brk => []
  | .bpl v => [v]
  | .bmi v => [v]
  | .bvc v => [v]
  | .bvs v => [v]
  | .bcc v => [v]
  | .bcs v => [v]
  | .bne v => [v]
  | .beq v => [v]
  | .pha => []
  | .pla => []
  | .php => []
  | .plp => []
  | .clc => []
  | .sec => []
  | .cli => []
  | .sei => []
  | .clv => []
  | .cld => []
  | .sed => []
  | .nop => []
  | .lax m => m.bytes
  | .sax m => m.bytes
  | .slo m => m.bytes
  | .rla m => m.bytes
  | .sre m => m.bytes
  | .rra m => m.bytes
  | .dcp m => m.bytes
  | .isc m => m.bytes
  | .anc v => [v]
  | .anc2B v => [v]
  | .alr v => [v]
  | .arr v => [v]
  | .sbx v => [v]
  | .usbc v => [v]
  | .xaa v => [v]
  | .lxa v => [v]
  | .las a => [Machine.lo a, Machine.hi a]
  | .shy a => [Machine.lo a, Machine.hi a]
  | .shx a => [Machine.lo a, Machine.hi a]
  | .ahx m => m.bytes
  | .tas a => [Machine.lo a, Machine.hi a]
  | .unk _ => []

/-- The opcode byte of an instruction, from the "Encoding" lines of R140 to R270; none for a form the spec does not have. -/
def Instr.opcode (i : Instr) : Option Byte :=
  match i with
  | .lda m =>
    match m with
    | .imm _ => some 0xA9
    | .zp _ => some 0xA5
    | .zpx _ => some 0xB5
    | .abs _ => some 0xAD
    | .abx _ => some 0xBD
    | .aby _ => some 0xB9
    | .izx _ => some 0xA1
    | .izy _ => some 0xB1
    | .acc | .zpy _ => none
  | .ldx m =>
    match m with
    | .imm _ => some 0xA2
    | .zp _ => some 0xA6
    | .zpy _ => some 0xB6
    | .abs _ => some 0xAE
    | .aby _ => some 0xBE
    | .acc | .zpx _ | .abx _ | .izx _ | .izy _ => none
  | .ldy m =>
    match m with
    | .imm _ => some 0xA0
    | .zp _ => some 0xA4
    | .zpx _ => some 0xB4
    | .abs _ => some 0xAC
    | .abx _ => some 0xBC
    | .acc | .zpy _ | .aby _ | .izx _ | .izy _ => none
  | .sta m =>
    match m with
    | .zp _ => some 0x85
    | .zpx _ => some 0x95
    | .abs _ => some 0x8D
    | .abx _ => some 0x9D
    | .aby _ => some 0x99
    | .izx _ => some 0x81
    | .izy _ => some 0x91
    | .acc | .imm _ | .zpy _ => none
  | .stx m =>
    match m with
    | .zp _ => some 0x86
    | .zpy _ => some 0x96
    | .abs _ => some 0x8E
    | .acc | .imm _ | .zpx _ | .abx _ | .aby _ | .izx _ | .izy _ => none
  | .sty m =>
    match m with
    | .zp _ => some 0x84
    | .zpx _ => some 0x94
    | .abs _ => some 0x8C
    | .acc | .imm _ | .zpy _ | .abx _ | .aby _ | .izx _ | .izy _ => none
  | .tax => some 0xAA
  | .tay => some 0xA8
  | .txa => some 0x8A
  | .tya => some 0x98
  | .tsx => some 0xBA
  | .txs => some 0x9A
  | .adc m =>
    match m with
    | .imm _ => some 0x69
    | .zp _ => some 0x65
    | .zpx _ => some 0x75
    | .abs _ => some 0x6D
    | .abx _ => some 0x7D
    | .aby _ => some 0x79
    | .izx _ => some 0x61
    | .izy _ => some 0x71
    | .acc | .zpy _ => none
  | .sbc m =>
    match m with
    | .imm _ => some 0xE9
    | .zp _ => some 0xE5
    | .zpx _ => some 0xF5
    | .abs _ => some 0xED
    | .abx _ => some 0xFD
    | .aby _ => some 0xF9
    | .izx _ => some 0xE1
    | .izy _ => some 0xF1
    | .acc | .zpy _ => none
  | .and m =>
    match m with
    | .imm _ => some 0x29
    | .zp _ => some 0x25
    | .zpx _ => some 0x35
    | .abs _ => some 0x2D
    | .abx _ => some 0x3D
    | .aby _ => some 0x39
    | .izx _ => some 0x21
    | .izy _ => some 0x31
    | .acc | .zpy _ => none
  | .ora m =>
    match m with
    | .imm _ => some 0x09
    | .zp _ => some 0x05
    | .zpx _ => some 0x15
    | .abs _ => some 0x0D
    | .abx _ => some 0x1D
    | .aby _ => some 0x19
    | .izx _ => some 0x01
    | .izy _ => some 0x11
    | .acc | .zpy _ => none
  | .eor m =>
    match m with
    | .imm _ => some 0x49
    | .zp _ => some 0x45
    | .zpx _ => some 0x55
    | .abs _ => some 0x4D
    | .abx _ => some 0x5D
    | .aby _ => some 0x59
    | .izx _ => some 0x41
    | .izy _ => some 0x51
    | .acc | .zpy _ => none
  | .cmp m =>
    match m with
    | .imm _ => some 0xC9
    | .zp _ => some 0xC5
    | .zpx _ => some 0xD5
    | .abs _ => some 0xCD
    | .abx _ => some 0xDD
    | .aby _ => some 0xD9
    | .izx _ => some 0xC1
    | .izy _ => some 0xD1
    | .acc | .zpy _ => none
  | .cpx m =>
    match m with
    | .imm _ => some 0xE0
    | .zp _ => some 0xE4
    | .abs _ => some 0xEC
    | .acc | .zpx _ | .zpy _ | .abx _ | .aby _ | .izx _ | .izy _ => none
  | .cpy m =>
    match m with
    | .imm _ => some 0xC0
    | .zp _ => some 0xC4
    | .abs _ => some 0xCC
    | .acc | .zpx _ | .zpy _ | .abx _ | .aby _ | .izx _ | .izy _ => none
  | .bit m =>
    match m with
    | .zp _ => some 0x24
    | .abs _ => some 0x2C
    | .acc | .imm _ | .zpx _ | .zpy _ | .abx _ | .aby _ | .izx _ | .izy _ => none
  | .inc m =>
    match m with
    | .zp _ => some 0xE6
    | .zpx _ => some 0xF6
    | .abs _ => some 0xEE
    | .abx _ => some 0xFE
    | .acc | .imm _ | .zpy _ | .aby _ | .izx _ | .izy _ => none
  | .dec m =>
    match m with
    | .zp _ => some 0xC6
    | .zpx _ => some 0xD6
    | .abs _ => some 0xCE
    | .abx _ => some 0xDE
    | .acc | .imm _ | .zpy _ | .aby _ | .izx _ | .izy _ => none
  | .inx => some 0xE8
  | .iny => some 0xC8
  | .dex => some 0xCA
  | .dey => some 0x88
  | .asl m =>
    match m with
    | .acc => some 0x0A
    | .zp _ => some 0x06
    | .zpx _ => some 0x16
    | .abs _ => some 0x0E
    | .abx _ => some 0x1E
    | .imm _ | .zpy _ | .aby _ | .izx _ | .izy _ => none
  | .lsr m =>
    match m with
    | .acc => some 0x4A
    | .zp _ => some 0x46
    | .zpx _ => some 0x56
    | .abs _ => some 0x4E
    | .abx _ => some 0x5E
    | .imm _ | .zpy _ | .aby _ | .izx _ | .izy _ => none
  | .rol m =>
    match m with
    | .acc => some 0x2A
    | .zp _ => some 0x26
    | .zpx _ => some 0x36
    | .abs _ => some 0x2E
    | .abx _ => some 0x3E
    | .imm _ | .zpy _ | .aby _ | .izx _ | .izy _ => none
  | .ror m =>
    match m with
    | .acc => some 0x6A
    | .zp _ => some 0x66
    | .zpx _ => some 0x76
    | .abs _ => some 0x6E
    | .abx _ => some 0x7E
    | .imm _ | .zpy _ | .aby _ | .izx _ | .izy _ => none
  | .jmpAbs _ => some 0x4C
  | .jmpInd _ => some 0x6C
  | .jsr _ => some 0x20
  | .rts => some 0x60
  | .rti => some 0x40
  | .brk => some 0x00
  | .bpl _ => some 0x10
  | .bmi _ => some 0x30
  | .bvc _ => some 0x50
  | .bvs _ => some 0x70
  | .bcc _ => some 0x90
  | .bcs _ => some 0xB0
  | .bne _ => some 0xD0
  | .beq _ => some 0xF0
  | .pha => some 0x48
  | .pla => some 0x68
  | .php => some 0x08
  | .plp => some 0x28
  | .clc => some 0x18
  | .sec => some 0x38
  | .cli => some 0x58
  | .sei => some 0x78
  | .clv => some 0xB8
  | .cld => some 0xD8
  | .sed => some 0xF8
  | .nop => some 0xEA
  | .lax m =>
    match m with
    | .zp _ => some 0xA7
    | .zpy _ => some 0xB7
    | .abs _ => some 0xAF
    | .aby _ => some 0xBF
    | .izx _ => some 0xA3
    | .izy _ => some 0xB3
    | .acc | .imm _ | .zpx _ | .abx _ => none
  | .sax m =>
    match m with
    | .zp _ => some 0x87
    | .zpy _ => some 0x97
    | .abs _ => some 0x8F
    | .izx _ => some 0x83
    | .acc | .imm _ | .zpx _ | .abx _ | .aby _ | .izy _ => none
  | .slo m =>
    match m with
    | .zp _ => some 0x07
    | .zpx _ => some 0x17
    | .abs _ => some 0x0F
    | .abx _ => some 0x1F
    | .aby _ => some 0x1B
    | .izx _ => some 0x03
    | .izy _ => some 0x13
    | .acc | .imm _ | .zpy _ => none
  | .rla m =>
    match m with
    | .zp _ => some 0x27
    | .zpx _ => some 0x37
    | .abs _ => some 0x2F
    | .abx _ => some 0x3F
    | .aby _ => some 0x3B
    | .izx _ => some 0x23
    | .izy _ => some 0x33
    | .acc | .imm _ | .zpy _ => none
  | .sre m =>
    match m with
    | .zp _ => some 0x47
    | .zpx _ => some 0x57
    | .abs _ => some 0x4F
    | .abx _ => some 0x5F
    | .aby _ => some 0x5B
    | .izx _ => some 0x43
    | .izy _ => some 0x53
    | .acc | .imm _ | .zpy _ => none
  | .rra m =>
    match m with
    | .zp _ => some 0x67
    | .zpx _ => some 0x77
    | .abs _ => some 0x6F
    | .abx _ => some 0x7F
    | .aby _ => some 0x7B
    | .izx _ => some 0x63
    | .izy _ => some 0x73
    | .acc | .imm _ | .zpy _ => none
  | .dcp m =>
    match m with
    | .zp _ => some 0xC7
    | .zpx _ => some 0xD7
    | .abs _ => some 0xCF
    | .abx _ => some 0xDF
    | .aby _ => some 0xDB
    | .izx _ => some 0xC3
    | .izy _ => some 0xD3
    | .acc | .imm _ | .zpy _ => none
  | .isc m =>
    match m with
    | .zp _ => some 0xE7
    | .zpx _ => some 0xF7
    | .abs _ => some 0xEF
    | .abx _ => some 0xFF
    | .aby _ => some 0xFB
    | .izx _ => some 0xE3
    | .izy _ => some 0xF3
    | .acc | .imm _ | .zpy _ => none
  | .anc _ => some 0x0B
  | .anc2B _ => some 0x2B
  | .alr _ => some 0x4B
  | .arr _ => some 0x6B
  | .sbx _ => some 0xCB
  | .usbc _ => some 0xEB
  | .xaa _ => some 0x8B
  | .lxa _ => some 0xAB
  | .las _ => some 0xBB
  | .shy _ => some 0x9C
  | .shx _ => some 0x9E
  | .ahx m =>
    match m with
    | .aby _ => some 0x9F
    | .izy _ => some 0x93
    | .acc | .imm _ | .zp _ | .zpx _ | .zpy _ | .abs _ | .abx _ | .izx _ => none
  | .tas _ => some 0x9B
  | .unk op => if unknownOpcodes.contains op then some op else none

/-- The bytes of a well-formed instruction; empty for an ill-formed one. -/
def encode (i : Instr) : List Byte :=
  match i.opcode with
  | some op => op :: i.operandBytes
  | none => []

end Sys2Proof
end

