-- ==== Sys2Proof/Config.lean ====
section
/-! DEFINITION. What an implementation fixes (spec/00_scope.md R4). Parameters for which the spec names a set of values and
a default are plain data (`Params`, carried by the state, log entry 1). Values the spec leaves wholly open are constants
without a body: no proof can learn them (log entries 2 and 3). -/

namespace Sys2Proof

/-- R4 `STACK_ORDER` (R230): `doc` pushes by pre-decrement and pulls by post-increment; `mos` is the MOS part's order. -/
inductive StackOrder where
  | doc
  | mos
deriving DecidableEq, Repr

/-- R4 `MIRRORING` (R70). -/
inductive Mirroring where
  | horizontal
  | vertical
  | fourScreen
deriving DecidableEq, Repr

/-- R4 `PRG`: 16384 or 32768 bytes; no other size is a machine of this spec (spec/93 U23). -/
inductive PrgSize where
  | kib16
  | kib32
deriving DecidableEq, Repr

/-- The implementation parameters of R4 whose value set the spec gives. -/
structure Params where
  /-- `STACK_ORDER`, R230. -/
  stackOrder : StackOrder
  /-- `UNKNOWN_OPERAND_BYTES(op)`, R119, for the opcodes it is not 0 for. -/
  unknownOperandBytes : List (Byte × Nat)
  /-- `S0_REQUIRE_BG_OPAQUE`, R350. -/
  s0RequireBgOpaque : Bool
  /-- `CLEAR_OVERFLOW_AT_PRERENDER`, R352. -/
  clearOverflowAtPrerender : Bool
  /-- `PPU_INIT_POS`, the scanline, R39. -/
  initScanline : Int
  /-- `PPU_INIT_POS`, the dot, R39. -/
  initDot : Nat
deriving DecidableEq, Repr

/-- The defaults of R4. -/
def Params.default : Params :=
  { stackOrder := .doc
    unknownOperandBytes := []
    s0RequireBgOpaque := false
    clearOverflowAtPrerender := false
    initScanline := 0
    initDot := 0 }

/-- `XAA_MAGIC` (R263): one byte, fixed for the machine, not given by the spec. Log entry 2. -/
opaque Config.xaaMagic : Byte

/-- `LXA_MAGIC` (R264): one byte, fixed for the machine, not given by the spec. Log entry 2. -/
opaque Config.lxaMagic : Byte

/-- `RGB_TABLE` (R349): 64 words, one per colour index, not given by the spec. Log entry 3. -/
opaque Config.rgbTable : Colour → Rgba

/-- The framebuffer word at an index no scanline has been rendered to ("the framebuffer is arbitrary", R39). Log entry 3. -/
opaque Config.initFramebuffer : Nat → Rgba

end Sys2Proof
end

