-- ==== Sys2Proof/Machine/State.lean ====
section
/-! DEFINITION. The whole state of the machine as plain data (spec/10_state.md) and its value after reset (R38, R39). -/

namespace Sys2Proof.Machine

/-- A memory: its bytes by rising address, none of them equal to what an unlisted address reads as (log entry 23). -/
abbrev Memory := List Host.Cell

/-- The palette's 32 entries of 6 bits (R29), in the same form as a memory. -/
abbrev Palette := List (Nat × Colour)

/-- The CPU registers (R10). -/
structure Regs where
  /-- R13. -/
  pc : Addr
  a : Byte
  x : Byte
  y : Byte
  /-- Index into page $01 (R230). -/
  sp : Byte
  /-- The status byte, bits N V U B D I Z C (R11, R12). -/
  p : Byte
deriving DecidableEq, Repr

/-- The CPU control state (R14 to R18). -/
structure Cpu where
  /-- R14. -/
  cycles : BitVec 64
  /-- R15. -/
  stall : Nat
  /-- R16. -/
  nmiPending : Bool
  /-- R17. -/
  irqLine : Bool
  /-- R18. -/
  nmiCount : Nat
deriving DecidableEq, Repr

/-- The CPU-bus state (R19 to R21). -/
structure Bus where
  /-- R19. -/
  ram : Memory
  /-- R20. -/
  lastBus : Byte
  /-- R21: bit 0 to bit 7 are A, B, Select, Start, Up, Down, Left, Right. -/
  controllerByte : Byte
  /-- R21. -/
  shift : Byte
  /-- R21. -/
  strobe : Bool
deriving DecidableEq, Repr

/-- The cartridge view (R22, R4): configuration, but for CHR when it is writable. -/
structure Cart where
  prg : Memory
  prgSize : PrgSize
  chr : Memory
  chrWritable : Bool
  mirroring : Mirroring
deriving DecidableEq, Repr

/-- One record of the cached sprite line (R37). -/
structure SpriteEntry where
  /-- The sprite's OAM index, 0..63. -/
  index : Nat
  y : Byte
  tile : Byte
  attr : Byte
  x : Byte
deriving DecidableEq, Repr

/-- A rendered line of the framebuffer (R36): the colour indices of its pixels, x = 0 first (log entry 3). -/
structure FrameRow where
  line : Nat
  pixels : List Colour
deriving DecidableEq, Repr

/-- The PPU state (R23 to R37). -/
structure Ppu where
  /-- R24. -/
  ctrl : Byte
  /-- R25. -/
  mask : Byte
  /-- R26. -/
  status : Byte
  /-- R23. -/
  oamAddr : Byte
  /-- R30. -/
  readBuffer : Byte
  /-- R31. -/
  v : BitVec 15
  /-- R31. -/
  t : BitVec 15
  /-- R31. -/
  fineX : BitVec 3
  /-- R31. -/
  w : Bool
  /-- R32. -/
  nextX : Byte
  /-- R32. -/
  nextY : Byte
  /-- R32. -/
  activeX : Byte
  /-- R32. -/
  activeY : Byte
  /-- R33. -/
  renderCtrl : Byte
  /-- R33. -/
  renderCtrlNext : Byte
  /-- R34: -1..260. -/
  scanline : Int
  /-- R34: 0..340. -/
  dot : Nat
  /-- R35. -/
  frameReady : Bool
  /-- R27. -/
  oam : Memory
  /-- R28. -/
  vram : Memory
  /-- R29. -/
  palette : Palette
  /-- R37; `ppu.line_count` is its length (log entry 13). -/
  line : List SpriteEntry
  /-- R36: the rendered rows, by rising line number (log entry 3). -/
  framebuffer : List FrameRow
deriving DecidableEq, Repr

/-- The whole machine ("all state lives in the machine aggregate created by the loader", 10_state.md). `cfg` holds the
implementation parameters, which nothing changes (log entry 1). -/
structure State where
  regs : Regs
  cpu : Cpu
  bus : Bus
  cart : Cart
  ppu : Ppu
  cfg : Params
deriving DecidableEq, Repr

/-- The reasons the machine stops with a fault. There are none: "The block raises no synchronous exception" (R400) and every
operation is total (R421). -/
inductive Fault where
deriving DecidableEq, Repr

/-- The reasons a step has no meaning. -/
inductive Refusal where
  /-- Raised by an arm of `exec` whose instruction has no meaning yet (no arm is left so); safe. -/
  | notModelled (mnemonic : String)
  /-- Raised by the fetch if the decoder did not accept the bytes it asked for; no state reaches it, since all 256 opcode
  bytes decode (R101, log entry 24); safe. -/
  | undecodable
deriving DecidableEq, Repr

/-- What an instruction or a step answers. -/
abbrev Result := Host.Outcome State Fault Refusal

/-- The cartridge of `State.reset`: 32 KiB of PRG and 8 KiB of CHR RAM with nothing listed, horizontal mirroring
(log entries 5 and 6). -/
def Cart.blank : Cart :=
  { prg := []
    prgSize := .kib32
    chr := []
    chrWritable := true
    mirroring := .horizontal }

/-- The PPU after power-on or reset at the parameters' position, with the given memories and framebuffer (R39). -/
def Ppu.cleared (cfg : Params) (oam vram : Memory) (palette : Palette) (framebuffer : List FrameRow) : Ppu :=
  { ctrl := 0
    mask := 0
    status := 0
    oamAddr := 0
    readBuffer := 0
    v := 0
    t := 0
    fineX := 0
    w := false
    nextX := 0
    nextY := 0
    activeX := 0
    activeY := 0
    renderCtrl := 0
    renderCtrlNext := 0
    scanline := cfg.initScanline
    dot := cfg.initDot
    frameReady := false
    oam := oam
    vram := vram
    palette := palette
    line := []
    framebuffer := framebuffer }

/-- The machine right after `load` of the blank cartridge (R38, R39, R440, R441): SP, P and the cycle counter as the spec
gives them, PC and the last-bus byte from the (zero) reset vector, A, X, Y and the memories at the values log entries 4 to 6
name. -/
def State.reset : State :=
  { regs := { pc := 0, a := 0, x := 0, y := 0, sp := 0xFD, p := 0x24 }
    cpu := { cycles := 7, stall := 0, nmiPending := false, irqLine := false, nmiCount := 0 }
    bus := { ram := [], lastBus := 0, controllerByte := 0, shift := 0, strobe := false }
    cart := Cart.blank
    ppu := Ppu.cleared Params.default [] [] [] []
    cfg := Params.default }

end Sys2Proof.Machine
end

