-- ==== Sys2Proof/Machine/Flags.lean ====
section
/-! DEFINITION. The status byte and every flag computation of the spec: R11 (bits), R176 (`setNZ`), R178 (`adc_core`),
R179 (`compare`), R190 to R193 (shifts). -/

namespace Sys2Proof.Machine

/-- The bits of P (R11). -/
inductive Flag where
  | c
  | z
  | i
  | d
  | b
  | u
  | v
  | n
deriving DecidableEq, Repr

/-- The bit number of a flag (R11). -/
def flagBit : Flag → Nat
  | .c => 0
  | .z => 1
  | .i => 2
  | .d => 3
  | .b => 4
  | .u => 5
  | .v => 6
  | .n => 7

/-- The byte with only the flag's bit set. -/
def flagMask (f : Flag) : Byte := 1#8 <<< flagBit f

def getFlag (f : Flag) (p : Byte) : Bool := p.getLsbD (flagBit f)

def setFlag (f : Flag) (v : Bool) (p : Byte) : Byte := if v then p ||| flagMask f else p &&& ~~~ flagMask f

/-- R176 `setNZ(v)`, on the status byte. -/
def nzFlags (v p : Byte) : Byte := setFlag .z (v == 0) (setFlag .n (v.getLsbD 7) p)

/-- R176 `setNZ(v)`, on the registers. -/
def setNZ (v : Byte) (r : Regs) : Regs := { r with p := nzFlags v r.p }

/-- The result, carry and overflow of `adc_core` (R178). -/
structure AddResult where
  res : Byte
  carry : Bool
  overflow : Bool
deriving DecidableEq, Repr

/-- R178: the exact sum, its low byte, the carry as a comparison, the overflow by the sign rule. -/
def addWithCarry (a m : Byte) (c : Bool) : AddResult :=
  let t := a.toNat + m.toNat + bit c
  let res := BitVec.ofNat 8 t
  { res := res
    carry := decide (256 ≤ t)
    overflow := ((a ^^^ res) &&& (m ^^^ res) &&& 0x80) != 0 }

/-- R178 `adc_core(m)`. -/
def adcCore (m : Byte) (r : Regs) : Regs :=
  let o := addWithCarry r.a m (getFlag .c r.p)
  { r with a := o.res, p := nzFlags o.res (setFlag .v o.overflow (setFlag .c o.carry r.p)) }

/-- R161, R262: subtraction is `adc_core` of the one's complement. -/
def sbcCore (m : Byte) (r : Regs) : Regs := adcCore (m ^^^ 0xFF) r

/-- R179 `compare(v, m)`. -/
def compareRegs (v m : Byte) (r : Regs) : Regs :=
  { r with p := nzFlags (v - m) (setFlag .c (decide (m.toNat ≤ v.toNat)) r.p) }

/-- A read-modify-write function's result and the carry it leaves. -/
structure Shifted where
  val : Byte
  carry : Bool
deriving DecidableEq, Repr

/-- R190: carry in is not used. -/
def aslByte (_ : Bool) (m : Byte) : Shifted := ⟨m <<< 1, m.getLsbD 7⟩

/-- R191: carry in is not used. -/
def lsrByte (_ : Bool) (m : Byte) : Shifted := ⟨m >>> 1, m.getLsbD 0⟩

/-- R192. -/
def rolByte (c : Bool) (m : Byte) : Shifted := ⟨(m <<< 1) ||| (if c then 1 else 0), m.getLsbD 7⟩

/-- R193. -/
def rorByte (c : Bool) (m : Byte) : Shifted := ⟨(m >>> 1) ||| (if c then 0x80 else 0), m.getLsbD 0⟩

/-- R169, R257: C is left as it was. -/
def incByte (c : Bool) (m : Byte) : Shifted := ⟨m + 1, c⟩

/-- R170, R256: C is left as it was. -/
def decByte (c : Bool) (m : Byte) : Shifted := ⟨m - 1, c⟩

end Sys2Proof.Machine
end

