-- ==== Sys2Proof/Machine/Mem.lean ====
section
/-! DEFINITION. Reading and writing a memory kept in canonical form (log entry 23), for bytes and for palette entries. -/

namespace Sys2Proof.Machine

variable {w : Nat}

/-- What an address that is not listed reads as: zero (log entries 5 and 6). -/
def unlisted (w : Nat) : BitVec w := 0#w

/-- The cell at `a`. -/
def readCell : List (Nat × BitVec w) → Nat → BitVec w
  | [], _ => unlisted w
  | (k, v) :: rest, a => if a < k then unlisted w else if a = k then v else readCell rest a

/-- `(a, v)` in front of `rest`, unless `a` unlisted reads as `v` already. -/
def putCell (a : Nat) (v : BitVec w) (rest : List (Nat × BitVec w)) : List (Nat × BitVec w) :=
  if v = unlisted w then rest else (a, v) :: rest

/-- Store `v` at `a`, keeping the canonical form. -/
def writeCell : List (Nat × BitVec w) → Nat → BitVec w → List (Nat × BitVec w)
  | [], a, v => putCell a v []
  | (k, u) :: rest, a, v =>
    if a < k then putCell a v ((k, u) :: rest)
    else if a = k then putCell a v rest
    else (k, u) :: writeCell rest a v

/-- Addresses at least `from` and below `size`, strictly rising, no entry equal to what an unlisted address reads as. -/
def cellsWfFrom (size : Nat) : Nat → List (Nat × BitVec w) → Bool
  | _, [] => true
  | lowest, (k, v) :: rest =>
    decide (lowest ≤ k) && decide (k < size) && decide (v ≠ unlisted w) && cellsWfFrom size (k + 1) rest

/-- The canonical form of a memory of `size` cells. -/
def cellsWf (size : Nat) (m : List (Nat × BitVec w)) : Bool := cellsWfFrom size 0 m

/-- The canonical form of a byte memory of `size` bytes. -/
def Memory.wf (size : Nat) (m : Memory) : Bool := cellsWf size m

end Sys2Proof.Machine
end

