-- ==== Sys2Proof/Machine/PpuBus.lean ====
section
/-! DEFINITION. The PPU bus (spec/20_memory.md R68 to R71). No access has a side effect beyond a store. -/

namespace Sys2Proof.Machine

/-- R70: the VRAM index of an address in $2000-$3EFF: `o` is the nametable offset, `o / $400` the logical table. -/
def vramIndex (mode : Mirroring) (a : PpuAddr) : Nat :=
  let o := (a.toNat - 0x2000) % 0x1000
  match mode with
  | .horizontal => o / 0x400 / 2 * 0x400 + o % 0x400
  | .vertical => o / 0x400 % 2 * 0x400 + o % 0x400
  | .fourScreen => o % 0x800

/-- R71: the palette index of an address in $3F00-$3FFF, with the aliasing of $10, $14, $18, $1C. -/
def paletteIndex (a : PpuAddr) : Nat :=
  let i := a.toNat % 32
  if i = 0x10 ∨ i = 0x14 ∨ i = 0x18 ∨ i = 0x1C then i - 0x10 else i

/-- R68: `PpuRead`. -/
def ppuRead (a : PpuAddr) (s : State) : Byte :=
  if a.toNat < 0x2000 then readCell s.cart.chr (a.toNat % 8192)
  else if a.toNat < 0x3F00 then readCell s.ppu.vram (vramIndex s.cart.mirroring a)
  else (readCell s.ppu.palette (paletteIndex a)).setWidth 8

/-- R68: `PpuWrite`. -/
def ppuWrite (a : PpuAddr) (v : Byte) (s : State) : State :=
  if a.toNat < 0x2000 then
    if s.cart.chrWritable then { s with cart.chr := writeCell s.cart.chr (a.toNat % 8192) v } else s
  else if a.toNat < 0x3F00 then
    { s with ppu.vram := writeCell s.ppu.vram (vramIndex s.cart.mirroring a) v }
  else { s with ppu.palette := writeCell s.ppu.palette (paletteIndex a) (v.setWidth 6) }

end Sys2Proof.Machine
end

