-- ==== Sys2Proof/Machine/PpuPort.lean ====
section
/-! DEFINITION. The eight PPU register ports (spec/47_ppu_port.md R300 to R314). -/

namespace Sys2Proof.Machine

/-- The outcome of a read: the byte and the state its side effects leave. -/
structure ReadResult where
  val : Byte
  st : State
deriving DecidableEq, Repr

/-- The ports by their roles (R300; numbers 0 to 7). -/
inductive PpuPort where
  | control
  | mask
  | status
  | oamAddr
  | oamData
  | scroll
  | address
  | data
deriving DecidableEq, Repr

/-- R57, R300: the port of a CPU address in $2000-$3FFF is `a & 7`. -/
def portOf (a : Addr) : PpuPort :=
  match a.toNat % 8 with
  | 0 => .control
  | 1 => .mask
  | 2 => .status
  | 3 => .oamAddr
  | 4 => .oamData
  | 5 => .scroll
  | 6 => .address
  | _ => .data

/-- R314 `raise_nmi()`. -/
def raiseNmi (s : State) : State :=
  { s with cpu.nmiPending := true, cpu.nmiCount := s.cpu.nmiCount + 1 }

/-- The PPU address of `v`: `v & $3FFF`. -/
def vAddr (p : Ppu) : PpuAddr := p.v.setWidth 14

/-- R308, R311: the increment of `v` after a port-7 access, 32 or 1 by ctrl bit 2, modulo $8000. -/
def advanceV (p : Ppu) : BitVec 15 := p.v + (if p.ctrl.getLsbD 2 then 32 else 1)

/-- R301. -/
def writeControl (v : Byte) (s : State) : State :=
  let s' : State :=
    { s with
      ppu.ctrl := v
      ppu.t := (s.ppu.t &&& 0x73FF) ||| ((v &&& 3).setWidth 15 <<< 10)
      ppu.renderCtrlNext := v }
  if !s.ppu.ctrl.getLsbD 7 && v.getLsbD 7 && s.ppu.status.getLsbD 7 then raiseNmi s' else s'

/-- R302. -/
def writeMask (v : Byte) (s : State) : State := { s with ppu.mask := v }

/-- R304. -/
def writeOamAddr (v : Byte) (s : State) : State := { s with ppu.oamAddr := v }

/-- R305. -/
def writeOamData (v : Byte) (s : State) : State :=
  { s with ppu.oam := writeCell s.ppu.oam s.ppu.oamAddr.toNat v, ppu.oamAddr := s.ppu.oamAddr + 1 }

/-- R306: the first write of a pair (w = 0), then the second. -/
def writeScroll (v : Byte) (s : State) : State :=
  if s.ppu.w then
    { s with
      ppu.t := (s.ppu.t &&& 0x0C1F) ||| ((v &&& 7).setWidth 15 <<< 12) ||| ((v >>> 3).setWidth 15 <<< 5)
      ppu.nextY := v
      ppu.w := false }
  else
    { s with
      ppu.fineX := v.setWidth 3
      ppu.t := (s.ppu.t &&& 0x7FE0) ||| (v >>> 3).setWidth 15
      ppu.nextX := v
      ppu.w := true }

/-- R307: the first write of a pair (w = 0), then the second, which copies `t` to `v`. -/
def writeAddress (v : Byte) (s : State) : State :=
  if s.ppu.w then
    let t : BitVec 15 := (s.ppu.t &&& 0x7F00) ||| v.setWidth 15
    { s with ppu.t := t, ppu.v := t, ppu.w := false }
  else
    { s with ppu.t := (s.ppu.t &&& 0x00FF) ||| ((v &&& 0x3F).setWidth 15 <<< 8), ppu.w := true }

/-- R308. -/
def writeData (v : Byte) (s : State) : State :=
  { ppuWrite (vAddr s.ppu) v s with ppu.v := advanceV s.ppu }

/-- `PpuPortWrite(n, v)`; port 2 ignores the write (R303). -/
def portWrite (n : PpuPort) (v : Byte) (s : State) : State :=
  match n with
  | .control => writeControl v s
  | .mask => writeMask v s
  | .status => s
  | .oamAddr => writeOamAddr v s
  | .oamData => writeOamData v s
  | .scroll => writeScroll v s
  | .address => writeAddress v s
  | .data => writeData v s

/-- R309. -/
def readStatus (s : State) : ReadResult :=
  ⟨s.ppu.status, { s with ppu.status := s.ppu.status &&& 0x7F, ppu.w := false }⟩

/-- R310. -/
def readOamData (s : State) : ReadResult := ⟨readCell s.ppu.oam s.ppu.oamAddr.toNat, s⟩

/-- R311: buffered below $3F00; a palette read is immediate and loads the buffer from the nametable byte underneath. -/
def readData (s : State) : ReadResult :=
  let a := vAddr s.ppu
  if a.toNat < 0x3F00 then
    ⟨s.ppu.readBuffer, { s with ppu.readBuffer := ppuRead a s, ppu.v := advanceV s.ppu }⟩
  else
    ⟨ppuRead a s, { s with ppu.readBuffer := ppuRead (a - 0x1000) s, ppu.v := advanceV s.ppu }⟩

/-- R312: a port without a read rule gives the last-bus byte (log entry 10). -/
def readWriteOnlyPort (s : State) : ReadResult := ⟨s.bus.lastBus, s⟩

/-- `PpuPortRead(n)`. -/
def portRead (n : PpuPort) (s : State) : ReadResult :=
  match n with
  | .control => readWriteOnlyPort s
  | .mask => readWriteOnlyPort s
  | .status => readStatus s
  | .oamAddr => readWriteOnlyPort s
  | .oamData => readOamData s
  | .scroll => readWriteOnlyPort s
  | .address => readWriteOnlyPort s
  | .data => readData s

end Sys2Proof.Machine
end

