-- ==== Sys2Proof/Machine/Ops.lean ====
section
/-! DEFINITION. The named operations over registers and the CPU bus: register updates, `Read` and `Write` with every routing
side effect (spec/20_memory.md R54 to R65), OAM DMA (R58), `fetch` (R123), the stack (R230), the interrupt sequence (R403)
and the return from it (R204). -/

namespace Sys2Proof.Machine

/-! ### Registers and counters -/

def State.setPC (v : Addr) (s : State) : State := { s with regs.pc := v }

def State.setSP (v : Byte) (s : State) : State := { s with regs.sp := v }

def State.setP (v : Byte) (s : State) : State := { s with regs.p := v }

/-- Apply a function to the registers alone. -/
def State.mapRegs (f : Regs → Regs) (s : State) : State := { s with regs := f s.regs }

/-- R402: the step's count is added to the cycle counter after its event, modulo 2^64. -/
def State.charge (n : Nat) (s : State) : State := { s with cpu.cycles := s.cpu.cycles + BitVec.ofNat 64 n }

/-- R65. -/
def State.setLastBus (v : Byte) (s : State) : State := { s with bus.lastBus := v }

/-! ### The CPU bus -/

/-- The rows of R54 and R55. -/
inductive Region where
  /-- $0000-$1FFF (R56). -/
  | ram
  /-- $2000-$3FFF (R57). -/
  | ppuPort
  /-- $4014 (R58). -/
  | oamDma
  /-- $4016 (R59, R60). -/
  | controller
  /-- $4017 (R61). -/
  | controller2
  /-- $4000-$4013, $4015, $4018-$401F (R62). -/
  | placeholder
  /-- $4020-$7FFF (R64). -/
  | openBus
  /-- $8000-$FFFF (R63). -/
  | prg
deriving DecidableEq, Repr

/-- The row of an address. -/
def regionOf (a : Addr) : Region :=
  if a.toNat < 0x2000 then .ram
  else if a.toNat < 0x4000 then .ppuPort
  else if a.toNat = 0x4014 then .oamDma
  else if a.toNat = 0x4016 then .controller
  else if a.toNat = 0x4017 then .controller2
  else if a.toNat < 0x4020 then .placeholder
  else if a.toNat < 0x8000 then .openBus
  else .prg

/-- R56: `a & $07FF`. -/
def ramIndex (a : Addr) : Nat := a.toNat % 2048

/-- R63: |PRG|. -/
def prgBytes (size : PrgSize) : Nat :=
  match size with
  | .kib16 => 16384
  | .kib32 => 32768

/-- R63: `(a − $8000) mod |PRG|`. -/
def prgIndex (size : PrgSize) (a : Addr) : Nat := (a.toNat - 0x8000) % prgBytes size

/-- R60. -/
def readController (s : State) : ReadResult :=
  if s.bus.strobe then ⟨0x40 ||| (s.bus.controllerByte &&& 1), s⟩
  else ⟨0x40 ||| (s.bus.shift &&& 1), { s with bus.shift := (s.bus.shift >>> 1) ||| 0x80 }⟩

/-- R59. -/
def writeController (v : Byte) (s : State) : State :=
  { s with
    bus.strobe := v.getLsbD 0
    bus.shift := if s.bus.strobe && !v.getLsbD 0 then s.bus.controllerByte else s.bus.shift }

/-- The value and side effect of R54's row, before the last-bus update. -/
def readRegion (a : Addr) (s : State) : ReadResult :=
  match regionOf a with
  | .ram => ⟨readCell s.bus.ram (ramIndex a), s⟩
  | .ppuPort => portRead (portOf a) s
  | .oamDma => ⟨s.bus.lastBus, s⟩
  | .controller => readController s
  | .controller2 => ⟨0x40, s⟩
  | .placeholder => ⟨s.bus.lastBus, s⟩
  | .openBus => ⟨s.bus.lastBus, s⟩
  | .prg => ⟨readCell s.cart.prg (prgIndex s.cart.prgSize a), s⟩

/-- R54 `Read(a)`. -/
def busRead (a : Addr) (s : State) : ReadResult :=
  let r := readRegion a s
  ⟨r.val, r.st.setLastBus r.val⟩

/-- R58: the i-th source address of a DMA from page `x`. -/
def dmaSource (page : Byte) (i : Nat) : Addr := BitVec.ofNat 16 (page.toNat * 256 + i)

/-- R58: one byte of the copy. -/
def dmaByte (page : Byte) (s : State) (i : Nat) : State :=
  let r := busRead (dmaSource page i) s
  { r.st with ppu.oam := writeCell r.st.ppu.oam ((r.st.ppu.oamAddr.toNat + i) % 256) r.val }

/-- R58: the 256 bytes, in increasing order. -/
def dmaCopy (page : Byte) (s : State) : State := (List.range 256).foldl (dmaByte page) s

/-- R58: OAM DMA: the copy, then the stall. `cycles` is the value at the start of the step. -/
def oamDma (page : Byte) (s : State) : State :=
  let s' := dmaCopy page s
  { s' with cpu.stall := s'.cpu.stall + 513 + s'.cpu.cycles.toNat % 2 }

/-- The action of R55's row, after the last-bus update. -/
def writeRegion (a : Addr) (v : Byte) (s : State) : State :=
  match regionOf a with
  | .ram => { s with bus.ram := writeCell s.bus.ram (ramIndex a) v }
  | .ppuPort => portWrite (portOf a) v s
  | .oamDma => oamDma v s
  | .controller => writeController v s
  | .controller2 => s
  | .placeholder => s
  | .openBus => s
  | .prg => s

/-- R55 `Write(a, v)`. -/
def busWrite (a : Addr) (v : Byte) (s : State) : State := writeRegion a v (s.setLastBus v)

/-- The byte stored at a CPU address, seen without a bus access: RAM and PRG store bytes, nothing else does. Used by
statements about what an instruction leaves unchanged. -/
def storedByte (a : Addr) (s : State) : Option Byte :=
  match regionOf a with
  | .ram => some (readCell s.bus.ram (ramIndex a))
  | .ppuPort => none
  | .oamDma => none
  | .controller => none
  | .controller2 => none
  | .placeholder => none
  | .openBus => none
  | .prg => some (readCell s.cart.prg (prgIndex s.cart.prgSize a))

/-! ### Fetch, stack, interrupts -/

/-- R123 `fetch()`. -/
def fetch (s : State) : ReadResult :=
  let r := busRead s.regs.pc s
  ⟨r.val, r.st.setPC (s.regs.pc + 1)⟩

/-- A stack address: page $01 (R230). -/
def stackAddr (sp : Byte) : Addr := 0x0100 + zext16 sp

/-- R230 `push(v)` under either `STACK_ORDER`. -/
def push (v : Byte) (s : State) : State :=
  match s.cfg.stackOrder with
  | .doc => busWrite (stackAddr (s.regs.sp - 1)) v (s.setSP (s.regs.sp - 1))
  | .mos => (busWrite (stackAddr s.regs.sp) v s).setSP (s.regs.sp - 1)

/-- R230 `pull()` under either `STACK_ORDER`. -/
def pull (s : State) : ReadResult :=
  match s.cfg.stackOrder with
  | .doc =>
    let r := busRead (stackAddr s.regs.sp) s
    ⟨r.val, r.st.setSP (s.regs.sp + 1)⟩
  | .mos => busRead (stackAddr (s.regs.sp + 1)) (s.setSP (s.regs.sp + 1))

/-- R233, R410: the image PHP and BRK push. -/
def pushedByInstruction (p : Byte) : Byte := p ||| 0x30

/-- R410: the image NMI and IRQ service push. -/
def pushedByHardware (p : Byte) : Byte := (p ||| 0x20) &&& 0xEF

/-- R204, R234: P as PLP and RTI load it, bit 5 forced set and bit 4 forced clear. -/
def pulledP (v : Byte) : Byte := (v ||| 0x20) &&& 0xEF

/-- R404: the vectors. -/
def nmiVector : Addr := 0xFFFA

def resetVector : Addr := 0xFFFC

def irqVector : Addr := 0xFFFE

/-- Load PC from a vector, low byte first (R403, R440). -/
def loadPC (vector : Addr) (s : State) : State :=
  let l := busRead vector s
  let h := busRead (vector + 1) l.st
  h.st.setPC (w16 l.val h.val)

/-- R403 `interrupt(vector, brk)`: the one sequence by which NMI, IRQ and BRK enter a handler. -/
def interrupt (vector : Addr) (brk : Bool) (s : State) : State :=
  let s1 := push (hi s.regs.pc) s
  let s2 := push (lo s.regs.pc) s1
  let s3 := push (if brk then pushedByInstruction s2.regs.p else pushedByHardware s2.regs.p) s2
  loadPC vector (s3.setP (setFlag .i true s3.regs.p))

/-- R204, R408: the return from an interrupt sequence: P, then PCL, then PCH. -/
def returnFromInterrupt (s : State) : State :=
  let p := pull s
  let l := pull (p.st.setP (pulledP p.val))
  let h := pull l.st
  h.st.setPC (w16 l.val h.val)

end Sys2Proof.Machine
end

