-- ==== Sys2Proof/Machine/Operands.lean ====
section
/-! DEFINITION. The addressing modes (spec/30_encoding.md R103 to R115), the cycle counts of the instruction classes (R116,
R117) and the shapes the instructions share: register only, read, store, read-modify-write (R194), branch (R206).

Every instruction's operand bytes have been fetched before its meaning runs (log entry 12), so PC is the address of the next
sequential instruction throughout. -/

namespace Sys2Proof.Machine

/-- What `ea_<MODE>()` returns: the effective address, `crossed`, and `H`, the high byte of the un-indexed base, for the
modes that have one; with the state the pointer reads leave. -/
structure EffAddr where
  addr : Addr
  crossed : Bool
  high : Byte
  st : State
deriving DecidableEq, Repr

/-- A 16-bit pointer in the zero page, its second byte wrapping inside the page (R112, R113). -/
structure Pointer where
  ptr : Addr
  st : State
deriving DecidableEq, Repr

/-- R112, R113: the pointer bytes at `z` and `(z + 1) & $FF`, low byte first. -/
def readPointer (z : Byte) (s : State) : Pointer :=
  let l := busRead (zext16 z) s
  let h := busRead (zext16 (z + 1)) l.st
  ⟨w16 l.val h.val, h.st⟩

/-- Whether adding the index leaves the page of the base (R110). -/
def crosses (base : Addr) (index : Byte) : Bool := decide (255 < (lo base).toNat + index.toNat)

/-- An indexed address with its base (R110, R111, R113). -/
def indexed (base : Addr) (index : Byte) (s : State) : EffAddr :=
  ⟨base + zext16 index, crosses base index, hi base, s⟩

/-- `ea_<MODE>()` of R105 to R113. The immediate operand's address is that of the instruction's last byte; the accumulator
mode has no address and no well-formed instruction asks for one (log entry 14). -/
def effAddr (m : Operand) (s : State) : EffAddr :=
  match m with
  | .acc => ⟨s.regs.pc - 1, false, 0, s⟩
  | .imm _ => ⟨s.regs.pc - 1, false, 0, s⟩
  | .zp z => ⟨zext16 z, false, 0, s⟩
  | .zpx z => ⟨zext16 (z + s.regs.x), false, 0, s⟩
  | .zpy z => ⟨zext16 (z + s.regs.y), false, 0, s⟩
  | .abs a => ⟨a, false, hi a, s⟩
  | .abx a => indexed a s.regs.x s
  | .aby a => indexed a s.regs.y s
  | .izx z =>
    let p := readPointer (z + s.regs.x) s
    ⟨p.ptr, false, hi p.ptr, p.st⟩
  | .izy z =>
    let p := readPointer z s
    indexed p.ptr s.regs.y p.st

/-- An operand's value, whether its address crossed a page, and the state the reads leave. -/
structure OperandRead where
  val : Byte
  crossed : Bool
  st : State
deriving DecidableEq, Repr

/-- The operand of a reading instruction: the accumulator, the immediate byte (read when it was fetched), or
`Read(ea_<MODE>())`. -/
def readOperand (m : Operand) (s : State) : OperandRead :=
  match m with
  | .acc => ⟨s.regs.a, false, s⟩
  | .imm v => ⟨v, false, s⟩
  | .zp _ | .zpx _ | .zpy _ | .abs _ | .abx _ | .aby _ | .izx _ | .izy _ =>
    let e := effAddr m s
    let r := busRead e.addr e.st
    ⟨r.val, e.crossed, r.st⟩

/-! ### Cycle counts (R116, R117) -/

/-- R116: the modes whose reading entries are marked `+`. -/
def hasPenalty : Operand → Bool
  | .acc | .imm _ | .zp _ | .zpx _ | .zpy _ | .abs _ | .izx _ => false
  | .abx _ | .aby _ | .izy _ => true

/-- R117, the row "read" (and 2 for a register operand). -/
def readBase : Operand → Nat
  | .acc => 2
  | .imm _ => 2
  | .zp _ => 3
  | .zpx _ | .zpy _ => 4
  | .abs _ => 4
  | .abx _ | .aby _ => 4
  | .izx _ => 6
  | .izy _ => 5

/-- R116: base and page-cross penalty of a reading instruction. -/
def readCycles (m : Operand) (crossed : Bool) : Nat := readBase m + bit (hasPenalty m && crossed)

/-- R117, the row "write". -/
def writeCycles : Operand → Nat
  | .acc => 2
  | .imm _ => 2
  | .zp _ => 3
  | .zpx _ | .zpy _ => 4
  | .abs _ => 4
  | .abx _ | .aby _ => 5
  | .izx _ => 6
  | .izy _ => 6

/-- R117, the row "read-modify-write". -/
def rmwCycles : Operand → Nat
  | .acc => 2
  | .imm _ => 2
  | .zp _ => 5
  | .zpx _ | .zpy _ => 6
  | .abs _ => 6
  | .abx _ | .aby _ => 7
  | .izx _ => 8
  | .izy _ => 8

/-! ### Shared instruction shapes -/

/-- An instruction that works on the registers alone and takes `n` cycles. -/
def regInstr (n : Nat) (f : Regs → Regs) (s : State) : Result := .next ((s.mapRegs f).charge n)

/-- A reading instruction: `f` of the operand changes the registers. -/
def readInstr (m : Operand) (f : Byte → Regs → Regs) (s : State) : Result :=
  let r := readOperand m s
  .next ((r.st.mapRegs (f r.val)).charge (readCycles m r.crossed))

/-- A storing instruction: the value is made of `H` and the registers. -/
def storeInstr (m : Operand) (value : Byte → Regs → Byte) (s : State) : Result :=
  let e := effAddr m s
  .next ((busWrite e.addr (value e.high s.regs) e.st).charge (writeCycles m))

/-- R194: read, `f` (which may read and write P.C), write, at one effective address; in the accumulator mode on A. The value
is `r` of the rule. -/
def modifyOperand (f : Bool → Byte → Shifted) (m : Operand) (s : State) : ReadResult :=
  match m with
  | .acc =>
    let o := f (getFlag .c s.regs.p) s.regs.a
    ⟨o.val, s.mapRegs fun r => { r with a := o.val, p := setFlag .c o.carry r.p }⟩
  | .imm _ | .zp _ | .zpx _ | .zpy _ | .abs _ | .abx _ | .aby _ | .izx _ | .izy _ =>
    let e := effAddr m s
    let r := busRead e.addr e.st
    let o := f (getFlag .c s.regs.p) r.val
    ⟨o.val, busWrite e.addr o.val (r.st.setP (setFlag .c o.carry s.regs.p))⟩

/-- A read-modify-write instruction: `f` on the operand, then `g` of the new value on the registers. -/
def modifyInstr (m : Operand) (f : Bool → Byte → Shifted) (g : Byte → Regs → Regs) (s : State) : Result :=
  let r := modifyOperand f m s
  .next ((r.st.mapRegs (g r.val)).charge (rmwCycles m))

/-- R114: the target of a branch. PC is the address of the next instruction. -/
def branchTarget (pc : Addr) (o : Byte) : Addr := pc + sext16 o

/-- R206: 2 cycles not taken, 3 taken, 4 taken to another page. -/
def branchInstr (cond : Bool) (o : Byte) (s : State) : Result :=
  let t := branchTarget s.regs.pc o
  if cond then .next ((s.setPC t).charge (if hi t ≠ hi s.regs.pc then 4 else 3)) else .next (s.charge 2)

/-- R115: the target of an indirect jump; the high byte comes from the page of the low byte. -/
def readJumpPointer (p : Addr) (s : State) : Pointer :=
  let l := busRead p s
  let h := busRead (w16 (lo (p + 1)) (hi p)) l.st
  ⟨w16 l.val h.val, h.st⟩

end Sys2Proof.Machine
end

