-- ==== Sys2Proof/Machine/Arith.lean ====
section
/-! DEFINITION. Arithmetic, logic, compare, bit test, increment and decrement (spec/41_arith_logic.md). D changes no
computation (R177). -/

namespace Sys2Proof.Machine

/-- R160. -/
def execAdc (m : Operand) (s : State) : Result := readInstr m adcCore s

/-- R161. -/
def execSbc (m : Operand) (s : State) : Result := readInstr m sbcCore s

/-- R162. -/
def execAnd (m : Operand) (s : State) : Result :=
  readInstr m (fun v r => setNZ (r.a &&& v) { r with a := r.a &&& v }) s

/-- R163. -/
def execOra (m : Operand) (s : State) : Result :=
  readInstr m (fun v r => setNZ (r.a ||| v) { r with a := r.a ||| v }) s

/-- R164. -/
def execEor (m : Operand) (s : State) : Result :=
  readInstr m (fun v r => setNZ (r.a ^^^ v) { r with a := r.a ^^^ v }) s

/-- R165. -/
def execCmp (m : Operand) (s : State) : Result := readInstr m (fun v r => compareRegs r.a v r) s

/-- R166. -/
def execCpx (m : Operand) (s : State) : Result := readInstr m (fun v r => compareRegs r.x v r) s

/-- R167. -/
def execCpy (m : Operand) (s : State) : Result := readInstr m (fun v r => compareRegs r.y v r) s

/-- R168: V and N from the operand alone, Z from A and the operand. -/
def bitTest (v : Byte) (r : Regs) : Regs :=
  { r with
    p := setFlag .z ((r.a &&& v) == 0) (setFlag .n (v.getLsbD 7) (setFlag .v (v.getLsbD 6) r.p)) }

/-- R168. -/
def execBit (m : Operand) (s : State) : Result := readInstr m bitTest s

/-- R169. -/
def execInc (m : Operand) (s : State) : Result := modifyInstr m incByte setNZ s

/-- R170. -/
def execDec (m : Operand) (s : State) : Result := modifyInstr m decByte setNZ s

/-- R171. -/
def execInx (s : State) : Result := regInstr 2 (fun r => setNZ (r.x + 1) { r with x := r.x + 1 }) s

/-- R172. -/
def execIny (s : State) : Result := regInstr 2 (fun r => setNZ (r.y + 1) { r with y := r.y + 1 }) s

/-- R173. -/
def execDex (s : State) : Result := regInstr 2 (fun r => setNZ (r.x - 1) { r with x := r.x - 1 }) s

/-- R174. -/
def execDey (s : State) : Result := regInstr 2 (fun r => setNZ (r.y - 1) { r with y := r.y - 1 }) s

end Sys2Proof.Machine
end

