-- ==== Sys2Proof/Machine/ControlFlow.lean ====
section
/-! DEFINITION. Control transfers (spec/43_control_flow.md). -/

namespace Sys2Proof.Machine

/-- R200. -/
def execJmpAbs (a : Addr) (s : State) : Result := .next ((s.setPC a).charge 3)

/-- R201. -/
def execJmpInd (p : Addr) (s : State) : Result :=
  let t := readJumpPointer p s
  .next ((t.st.setPC t.ptr).charge 5)

/-- R202: the address of the instruction's third byte is pushed, high byte first. -/
def execJsr (a : Addr) (s : State) : Result :=
  let r := s.regs.pc - 1
  .next (((push (lo r) (push (hi r) s)).setPC a).charge 6)

/-- R203. -/
def execRts (s : State) : Result :=
  let l := pull s
  let h := pull l.st
  .next ((h.st.setPC (w16 l.val h.val + 1)).charge 6)

/-- R204. -/
def execRti (s : State) : Result := .next ((returnFromInterrupt s).charge 6)

/-- R205: the padding byte is skipped without a read. -/
def execBrk (s : State) : Result := .next ((interrupt irqVector true (s.setPC (s.regs.pc + 1))).charge 7)

/-- R207. -/
def execBpl (o : Byte) (s : State) : Result := branchInstr (!getFlag .n s.regs.p) o s

/-- R208. -/
def execBmi (o : Byte) (s : State) : Result := branchInstr (getFlag .n s.regs.p) o s

/-- R209. -/
def execBvc (o : Byte) (s : State) : Result := branchInstr (!getFlag .v s.regs.p) o s

/-- R210. -/
def execBvs (o : Byte) (s : State) : Result := branchInstr (getFlag .v s.regs.p) o s

/-- R211. -/
def execBcc (o : Byte) (s : State) : Result := branchInstr (!getFlag .c s.regs.p) o s

/-- R212. -/
def execBcs (o : Byte) (s : State) : Result := branchInstr (getFlag .c s.regs.p) o s

/-- R213. -/
def execBne (o : Byte) (s : State) : Result := branchInstr (!getFlag .z s.regs.p) o s

/-- R214. -/
def execBeq (o : Byte) (s : State) : Result := branchInstr (getFlag .z s.regs.p) o s

end Sys2Proof.Machine
end

