-- ==== Sys2Proof/Machine/LoadStore.lean ====
section
/-! DEFINITION. Loads, stores and register transfers (spec/40_load_store_transfer.md). -/

namespace Sys2Proof.Machine

/-- R140. -/
def execLda (m : Operand) (s : State) : Result := readInstr m (fun v r => setNZ v { r with a := v }) s

/-- R141. -/
def execLdx (m : Operand) (s : State) : Result := readInstr m (fun v r => setNZ v { r with x := v }) s

/-- R142. -/
def execLdy (m : Operand) (s : State) : Result := readInstr m (fun v r => setNZ v { r with y := v }) s

/-- R143. -/
def execSta (m : Operand) (s : State) : Result := storeInstr m (fun _ r => r.a) s

/-- R144. -/
def execStx (m : Operand) (s : State) : Result := storeInstr m (fun _ r => r.x) s

/-- R145. -/
def execSty (m : Operand) (s : State) : Result := storeInstr m (fun _ r => r.y) s

/-- R146. -/
def execTax (s : State) : Result := regInstr 2 (fun r => setNZ r.a { r with x := r.a }) s

/-- R147. -/
def execTay (s : State) : Result := regInstr 2 (fun r => setNZ r.a { r with y := r.a }) s

/-- R148. -/
def execTxa (s : State) : Result := regInstr 2 (fun r => setNZ r.x { r with a := r.x }) s

/-- R149. -/
def execTya (s : State) : Result := regInstr 2 (fun r => setNZ r.y { r with a := r.y }) s

/-- R150. -/
def execTsx (s : State) : Result := regInstr 2 (fun r => setNZ r.sp { r with x := r.sp }) s

/-- R151: no flag changes. -/
def execTxs (s : State) : Result := regInstr 2 (fun r => { r with sp := r.x }) s

end Sys2Proof.Machine
end

