-- ==== Sys2Proof/Machine/ShiftRotate.lean ====
section
/-! DEFINITION. Shifts and rotates (spec/42_shift_rotate.md): the pattern of R194, then N and Z from the result. -/

namespace Sys2Proof.Machine

/-- R190. -/
def execAsl (m : Operand) (s : State) : Result := modifyInstr m aslByte setNZ s

/-- R191. -/
def execLsr (m : Operand) (s : State) : Result := modifyInstr m lsrByte setNZ s

/-- R192. -/
def execRol (m : Operand) (s : State) : Result := modifyInstr m rolByte setNZ s

/-- R193. -/
def execRor (m : Operand) (s : State) : Result := modifyInstr m rorByte setNZ s

end Sys2Proof.Machine
end

