-- ==== Sys2Proof/Machine/StackFlags.lean ====
section
/-! DEFINITION. Stack, flag and no-operation instructions (spec/44_stack_flags_nop.md). -/

namespace Sys2Proof.Machine

/-- R231. -/
def execPha (s : State) : Result := .next ((push s.regs.a s).charge 3)

/-- R232. -/
def execPla (s : State) : Result :=
  let v := pull s
  .next ((v.st.mapRegs fun r => setNZ v.val { r with a := v.val }).charge 4)

/-- R233. -/
def execPhp (s : State) : Result := .next ((push (pushedByInstruction s.regs.p) s).charge 3)

/-- R234. -/
def execPlp (s : State) : Result :=
  let v := pull s
  .next ((v.st.setP (pulledP v.val)).charge 4)

/-- R235 to R241: an instruction that gives one flag a value. -/
def flagInstr (f : Flag) (v : Bool) (s : State) : Result := regInstr 2 (fun r => { r with p := setFlag f v r.p }) s

/-- R235. -/
def execClc (s : State) : Result := flagInstr .c false s

/-- R236. -/
def execSec (s : State) : Result := flagInstr .c true s

/-- R237. -/
def execCli (s : State) : Result := flagInstr .i false s

/-- R238. -/
def execSei (s : State) : Result := flagInstr .i true s

/-- R239. -/
def execClv (s : State) : Result := flagInstr .v false s

/-- R240. -/
def execCld (s : State) : Result := flagInstr .d false s

/-- R241. -/
def execSed (s : State) : Result := flagInstr .d true s

/-- R242. -/
def execNop (s : State) : Result := regInstr 2 (fun r => r) s

end Sys2Proof.Machine
end

