-- ==== Sys2Proof/Machine/Unofficial.lean ====
section
/-! DEFINITION. Unofficial and unknown opcodes (spec/45_unofficial.md). -/

namespace Sys2Proof.Machine

/-- R250. -/
def execLax (m : Operand) (s : State) : Result := readInstr m (fun v r => setNZ v { r with a := v, x := v }) s

/-- R251. -/
def execSax (m : Operand) (s : State) : Result := storeInstr m (fun _ r => r.a &&& r.x) s

/-- R252. -/
def execSlo (m : Operand) (s : State) : Result :=
  modifyInstr m aslByte (fun v r => setNZ (r.a ||| v) { r with a := r.a ||| v }) s

/-- R253. -/
def execRla (m : Operand) (s : State) : Result :=
  modifyInstr m rolByte (fun v r => setNZ (r.a &&& v) { r with a := r.a &&& v }) s

/-- R254. -/
def execSre (m : Operand) (s : State) : Result :=
  modifyInstr m lsrByte (fun v r => setNZ (r.a ^^^ v) { r with a := r.a ^^^ v }) s

/-- R255: the addition's carry in is the carry the rotate left. -/
def execRra (m : Operand) (s : State) : Result := modifyInstr m rorByte adcCore s

/-- R256. -/
def execDcp (m : Operand) (s : State) : Result := modifyInstr m decByte (fun v r => compareRegs r.a v r) s

/-- R257. -/
def execIsc (m : Operand) (s : State) : Result := modifyInstr m incByte sbcCore s

/-- R258: C is N of the result. -/
def ancRegs (v : Byte) (r : Regs) : Regs :=
  let t := r.a &&& v
  { r with a := t, p := setFlag .c (t.getLsbD 7) (nzFlags t r.p) }

/-- R258, opcode $0B. -/
def execAnc (v : Byte) (s : State) : Result := regInstr 2 (ancRegs v) s

/-- R258, opcode $2B. -/
def execAnc2B (v : Byte) (s : State) : Result := regInstr 2 (ancRegs v) s

/-- R259. -/
def alrRegs (v : Byte) (r : Regs) : Regs :=
  let t := r.a &&& v
  { r with a := t >>> 1, p := nzFlags (t >>> 1) (setFlag .c (t.getLsbD 0) r.p) }

/-- R259. -/
def execAlr (v : Byte) (s : State) : Result := regInstr 2 (alrRegs v) s

/-- R260: the carry before the instruction is rotated in; C is bit 6 of the result, V bit 6 xor bit 5. -/
def arrRegs (v : Byte) (r : Regs) : Regs :=
  let t := ((r.a &&& v) >>> 1) ||| (if getFlag .c r.p then 0x80 else 0)
  { r with
    a := t
    p := setFlag .v (t.getLsbD 6 ^^ t.getLsbD 5) (setFlag .c (t.getLsbD 6) (nzFlags t r.p)) }

/-- R260. -/
def execArr (v : Byte) (s : State) : Result := regInstr 2 (arrRegs v) s

/-- R261: a compare of A & X with the operand, whose difference goes to X. -/
def sbxRegs (v : Byte) (r : Regs) : Regs :=
  let t := r.a &&& r.x
  { compareRegs t v r with x := t - v }

/-- R261. -/
def execSbx (v : Byte) (s : State) : Result := regInstr 2 (sbxRegs v) s

/-- R262. -/
def execUsbc (v : Byte) (s : State) : Result := regInstr 2 (sbcCore v) s

/-- R263: the constant is a free value (log entry 2). -/
def xaaRegs (v : Byte) (r : Regs) : Regs :=
  let t := (r.a ||| Config.xaaMagic) &&& r.x &&& v
  setNZ t { r with a := t }

/-- R263. -/
def execXaa (v : Byte) (s : State) : Result := regInstr 2 (xaaRegs v) s

/-- R264: the constant is a free value (log entry 2). -/
def lxaRegs (v : Byte) (r : Regs) : Regs :=
  let t := (r.a ||| Config.lxaMagic) &&& v
  setNZ t { r with a := t, x := t }

/-- R264. -/
def execLxa (v : Byte) (s : State) : Result := regInstr 2 (lxaRegs v) s

/-- R265. -/
def execLas (a : Addr) (s : State) : Result :=
  readInstr (.aby a) (fun v r => setNZ (v &&& r.sp) { r with a := v &&& r.sp, x := v &&& r.sp, sp := v &&& r.sp }) s

/-- R266, R271: `Y & (H + 1)`. -/
def execShy (a : Addr) (s : State) : Result := storeInstr (.abx a) (fun h r => r.y &&& (h + 1)) s

/-- R267, R271: `X & (H + 1)`. -/
def execShx (a : Addr) (s : State) : Result := storeInstr (.aby a) (fun h r => r.x &&& (h + 1)) s

/-- R268, R271: `A & X & (H + 1)`. -/
def execAhx (m : Operand) (s : State) : Result := storeInstr m (fun h r => r.a &&& r.x &&& (h + 1)) s

/-- R269, R271: SP takes `A & X`, and `SP & (H + 1)` is stored. -/
def execTas (a : Addr) (s : State) : Result :=
  storeInstr (.aby a) (fun h r => r.sp &&& (h + 1)) (s.setSP (s.regs.a &&& s.regs.x))

/-- R4 `UNKNOWN_OPERAND_BYTES(op)`: 0 for an opcode that is not listed. -/
def unknownOperandBytes (cfg : Params) (op : Byte) : Nat :=
  match cfg.unknownOperandBytes.find? fun e => e.1 == op with
  | some e => e.2
  | none => 0

/-- R270, R119: the 39 unknown opcode bytes do nothing for 2 cycles. PC passes the opcode's `UNKNOWN_OPERAND_BYTES`, 0 by
default, without a read (log entry 9). -/
def execUnk (op : Byte) (s : State) : Result :=
  regInstr 2 (fun r => { r with pc := r.pc + BitVec.ofNat 16 (unknownOperandBytes s.cfg op) }) s

end Sys2Proof.Machine
end

