-- ==== Sys2Proof/Machine/PpuTick.lean ====
section
/-! DEFINITION. The PPU's tick and its events (spec/48_ppu_machine.md R340 to R357). -/

namespace Sys2Proof.Machine

/-! ### Latching (R341, R342) -/

/-- R341, at (−1, 0). -/
def frameLatch (s : State) : State :=
  { s with ppu.activeX := s.ppu.nextX, ppu.activeY := s.ppu.nextY, ppu.renderCtrl := s.ppu.renderCtrlNext }

/-- R342, at (s, 257). -/
def lineLatch (s : State) : State :=
  { s with ppu.activeX := s.ppu.nextX, ppu.renderCtrl := s.ppu.renderCtrlNext }

/-! ### Sprite evaluation (R343) -/

/-- R343: 16 or 8 by H16 of the latched control. -/
def spriteHeight (p : Ppu) : Nat := if p.renderCtrl.getLsbD 5 then 16 else 8

/-- R343: `y + 1 <= line < y + 1 + h`, on integers. -/
def spriteCovers (y : Byte) (h line : Nat) : Bool := decide (y.toNat + 1 ≤ line) && decide (line < y.toNat + 1 + h)

/-- R27: the four bytes of a sprite. -/
def oamSprite (oam : Memory) (i : Nat) : SpriteEntry :=
  { index := i
    y := readCell oam (4 * i)
    tile := readCell oam (4 * i + 1)
    attr := readCell oam (4 * i + 2)
    x := readCell oam (4 * i + 3) }

/-- The OAM indices of the sprites that cover a line, in increasing order (R343). -/
def spritesOnLine (line : Nat) (p : Ppu) : List Nat :=
  (List.range 64).filter fun i => spriteCovers (readCell p.oam (4 * i)) (spriteHeight p) line

/-- R343: cache the first 8, set the overflow bit when there are more. -/
def evaluateSprites (line : Nat) (s : State) : State :=
  let found := spritesOnLine line s.ppu
  { s with
    ppu.line := (found.take 8).map (oamSprite s.ppu.oam)
    ppu.status := if 8 < found.length then s.ppu.status ||| 0x20 else s.ppu.status }

/-! ### Pixels (R345 to R348, R356) -/

/-- The PPU-bus byte at a computed address. -/
def ppuByte (a : Nat) (s : State) : Byte := ppuRead (BitVec.ofNat 14 a) s

/-- `(p1[bit] << 1) | p0[bit]` of the two pattern planes at `pa` and `pa + 8` (R345, R356). -/
def patternPixel (pa bit : Nat) (s : State) : BitVec 2 :=
  BitVec.ofBool ((ppuByte (pa + 8) s).getLsbD bit) ++ BitVec.ofBool ((ppuByte pa s).getLsbD bit)

/-- A background pixel: `bg_px` and `bg_pal` of R345. -/
structure BgPixel where
  px : BitVec 2
  pal : Nat
deriving DecidableEq, Repr

/-- R345 where the background is shown at the pixel. -/
def bgFetch (x line : Nat) (s : State) : BgPixel :=
  let wx := (x + s.ppu.activeX.toNat) % 512
  let wy := (line + s.ppu.activeY.toNat) % 480
  let nt := (s.ppu.renderCtrl.toNat % 4 ^^^ (if 256 ≤ wx then 1 else 0)) ^^^ (if 240 ≤ wy then 2 else 0)
  let cx := wx % 256
  let cy := wy % 240
  let col := cx / 8
  let row := cy / 8
  let base := 0x2000 + nt * 0x400
  let tile := ppuByte (base + row * 32 + col) s
  let at_ := ppuByte (base + 0x3C0 + row / 4 * 8 + col / 4) s
  let shift := row / 2 % 2 * 4 + col / 2 % 2 * 2
  let pa := (if s.ppu.renderCtrl.getLsbD 4 then 0x1000 else 0) + tile.toNat * 16 + cy % 8
  { px := patternPixel pa (7 - cx % 8) s
    pal := at_.toNat / 2 ^ shift % 4 }

/-- R345, R348: the background pixel, transparent where the mask hides it. -/
def bgPixel (x line : Nat) (s : State) : BgPixel :=
  if !s.ppu.mask.getLsbD 3 || (decide (x < 8) && !s.ppu.mask.getLsbD 1) then ⟨0, 0⟩ else bgFetch x line s

/-- R356 `sprite_pattern_pixel`. -/
def spritePatternPixel (e : SpriteEntry) (px py : Nat) (s : State) : BitVec 2 :=
  let h := spriteHeight s.ppu
  let col := px - e.x.toNat
  let row := py - (e.y.toNat + 1)
  let bit := if e.attr.getLsbD 6 then col else 7 - col
  let row := if e.attr.getLsbD 7 then h - 1 - row else row
  let pa :=
    if h = 8 then (if s.ppu.renderCtrl.getLsbD 3 then 0x1000 else 0) + e.tile.toNat * 16 + row
    else e.tile.toNat % 2 * 0x1000 + e.tile.toNat / 2 * 2 * 16 + (if 8 ≤ row then 16 else 0) + row % 8
  patternPixel pa bit s

/-- An opaque sprite pixel (R346): `spr_px`, `spr_pal`, `spr_behind`, `spr_is0`. -/
structure SpritePixel where
  px : BitVec 2
  pal : Nat
  behind : Bool
  is0 : Bool
deriving DecidableEq, Repr

/-- R346: whether a sprite's eight columns reach x; no wrap. -/
def spriteHasColumn (sx : Byte) (x : Nat) : Bool := decide (sx.toNat ≤ x) && decide (x < sx.toNat + 8)

/-- R346 for one cached sprite. -/
def spritePixelOf (e : SpriteEntry) (x line : Nat) (s : State) : Option SpritePixel :=
  let p := spritePatternPixel e x line s
  if spriteHasColumn e.x x && p != 0 then
    some { px := p, pal := e.attr.toNat % 4, behind := e.attr.getLsbD 5, is0 := decide (e.index = 0) }
  else none

/-- R346, R348: the first cached sprite with an opaque pixel; `none` is `spr_px = 0`. -/
def spritePixel (x line : Nat) (s : State) : Option SpritePixel :=
  if !s.ppu.mask.getLsbD 4 || (decide (x < 8) && !s.ppu.mask.getLsbD 2) then none
  else s.ppu.line.findSome? fun e => spritePixelOf e x line s

/-- R347: the palette address of a pixel. -/
def pixelPaletteAddr (bg : BgPixel) (spr : Option SpritePixel) : Nat :=
  let background := if bg.px != 0 then 0x3F00 + bg.pal * 4 + bg.px.toNat else 0x3F00
  match spr with
  | none => background
  | some p => if bg.px == 0 || !p.behind then 0x3F10 + p.pal * 4 + p.px.toNat else background

/-- R347, R349: the colour index of pixel (x, line). -/
def pixelColour (x line : Nat) (s : State) : Colour :=
  (ppuByte (pixelPaletteAddr (bgPixel x line s) (spritePixel x line s)) s).setWidth 6

/-! ### The framebuffer (R36, R344, R349) -/

/-- Put a row among the rows by rising line number, replacing the row of that line. -/
def putRow (row : FrameRow) : List FrameRow → List FrameRow
  | [] => [row]
  | r :: rest =>
    if row.line < r.line then row :: r :: rest
    else if row.line = r.line then row :: rest
    else r :: putRow row rest

/-- R344: all 256 pixels of a line, in one tick. -/
def renderScanline (line : Nat) (s : State) : State :=
  let row : FrameRow := { line := line, pixels := (List.range 256).map fun x => pixelColour x line s }
  { s with ppu.framebuffer := putRow row s.ppu.framebuffer }

/-- The colour index rendered to pixel (x, y), if its line has been rendered. -/
def renderedColour (x y : Nat) (rows : List FrameRow) : Option Colour :=
  match rows with
  | [] => none
  | r :: rest => if r.line = y then r.pixels[x]? else renderedColour x y rest

/-- R36, R349: the word of pixel (x, y), index `y · 256 + x`: `RGB_TABLE[c]` where the line has been rendered, a free value
where it has not (log entry 3). -/
def framebufferWord (x y : Nat) (s : State) : Rgba :=
  match renderedColour x y s.ppu.framebuffer with
  | some c => Config.rgbTable c
  | none => Config.initFramebuffer (y * 256 + x)

/-! ### Sprite 0 (R350) and vblank (R351, R352) -/

/-- R350: the conditions under which sprite 0 is looked at. -/
def sprite0Enabled (x : Nat) (p : Ppu) : Bool :=
  !p.status.getLsbD 6 && p.mask.getLsbD 3 && p.mask.getLsbD 4
    && !(decide (x < 8) && (!p.mask.getLsbD 1 || !p.mask.getLsbD 2))

/-- R350: sprite 0, read from OAM now, has an opaque pixel at (x, line). -/
def sprite0Opaque (x line : Nat) (s : State) : Bool :=
  let e := oamSprite s.ppu.oam 0
  spriteCovers e.y (spriteHeight s.ppu) line && spriteHasColumn e.x x && spritePatternPixel e x line s != 0

/-- R350 `sprite0_test(x, line)`. -/
def sprite0Test (x line : Nat) (s : State) : State :=
  if sprite0Enabled x s.ppu && sprite0Opaque x line s
      && !(s.cfg.s0RequireBgOpaque && (bgPixel x line s).px == 0) then
    { s with ppu.status := s.ppu.status ||| 0x40 }
  else s

/-- R351, at (241, 1). -/
def vblankStart (s : State) : State :=
  let s' : State := { s with ppu.status := s.ppu.status ||| 0x80, ppu.frameReady := true }
  if s.ppu.ctrl.getLsbD 7 then raiseNmi s' else s'

/-- R352, at (−1, 1). -/
def prerenderClear (s : State) : State :=
  { s with ppu.status := s.ppu.status &&& (if s.cfg.clearOverflowAtPrerender then 0x1F else 0x3F) }

/-! ### The tick (R340, R353) -/

/-- R353. -/
def advancePos (s : State) : State :=
  if s.ppu.dot + 1 = 341 then
    { s with
      ppu.dot := 0
      ppu.scanline := if s.ppu.scanline + 1 = 261 then -1 else s.ppu.scanline + 1 }
  else { s with ppu.dot := s.ppu.dot + 1 }

/-- R340: the event of position (line, dot). The conditions exclude each other. -/
def tickEvent (line : Int) (dot : Nat) (s : State) : State :=
  if line = -1 then
    if dot = 0 then frameLatch s else if dot = 1 then prerenderClear s else s
  else if 0 ≤ line ∧ line ≤ 239 then
    if dot = 0 then renderScanline line.toNat (evaluateSprites line.toNat s)
    else if dot ≤ 256 then sprite0Test (dot - 1) line.toNat s
    else if dot = 257 then lineLatch s
    else s
  else if line = 241 ∧ dot = 1 then vblankStart s
  else s

/-- R340 `tick()`. -/
def tick (s : State) : State := advancePos (tickEvent s.ppu.scanline s.ppu.dot s)

/-- `n` ticks. -/
def ticks : Nat → State → State
  | 0, s => s
  | n + 1, s => ticks n (tick s)

end Sys2Proof.Machine
end

