-- ==== Sys2Proof/Machine/Cycle.lean ====
section
/-! DEFINITION. The CPU's step and the system step (spec/60_exceptions.md R402, R415). -/

namespace Sys2Proof.Machine

/-- The bytes of one instruction and the state their fetches leave. -/
structure Fetched where
  bytes : List Byte
  st : State
deriving DecidableEq, Repr

/-- `n` calls of `fetch()` (R123). -/
def fetchBytes : Nat → State → Fetched
  | 0, s => ⟨[], s⟩
  | n + 1, s =>
    let b := fetch s
    let rest := fetchBytes n b.st
    ⟨b.val :: rest.bytes, rest.st⟩

/-- The opcode byte, then as many operand bytes as it asks for (R120, R123). -/
def fetchInstr (s : State) : Fetched :=
  let op := fetch s
  let rest := fetchBytes (operandBytes op.val) op.st
  ⟨op.val :: rest.bytes, rest.st⟩

/-- R402, the last branch: fetch one instruction and execute it. -/
def runInstr (s : State) : Result :=
  let f := fetchInstr s
  match decode f.bytes with
  | .ok (i, _) => exec i f.st
  | .error _ => .refused .undecodable

/-- R402, the second branch: NMI service consumes the latch. -/
def serviceNmi (s : State) : State :=
  (interrupt nmiVector false { s with cpu.nmiPending := false }).charge 7

/-- R402, R406, the third branch: IRQ service leaves the line as it is. -/
def serviceIrq (s : State) : State := (interrupt irqVector false s).charge 7

/-- R402, the first branch: one stall cycle. -/
def stallCycle (s : State) : State := { s with cpu.stall := s.cpu.stall - 1 }.charge 1

/-- R402, R406: an IRQ is taken when the line is asserted and I is clear. -/
def irqTaken (s : State) : Bool := s.cpu.irqLine && !getFlag .i s.regs.p

/-- R402 `step()`: the first true condition wins. -/
def cpuStep (s : State) : Result :=
  if 0 < s.cpu.stall then .next (stallCycle s)
  else if s.cpu.nmiPending then .next (serviceNmi s)
  else if irqTaken s then .next (serviceIrq s)
  else runInstr s

/-- The count a step returned: it is what the step added to the cycle counter (R402, log entry 12). -/
def returnedCycles (before after : State) : Nat := (after.cpu.cycles - before.cpu.cycles).toNat

/-- R415 `system_step()`: one CPU step of n cycles, then exactly 3n ticks. -/
def systemStep (s : State) : Result :=
  match cpuStep s with
  | .next s' => .next (ticks (3 * returnedCycles s s') s')
  | .fault r => .fault r
  | .refused r => .refused r

end Sys2Proof.Machine
end

