-- ==== Sys2Proof/Machine/Loader.lean ====
section
/-! DEFINITION. Placing an instruction's bytes where the next step fetches them (log entry 17). -/

namespace Sys2Proof.Machine

/-- Whether a byte stored at the address is what a fetch from it reads: RAM and PRG. -/
def holdsCode (a : Addr) : Bool :=
  match regionOf a with
  | .ram => true
  | .ppuPort => false
  | .oamDma => false
  | .controller => false
  | .controller2 => false
  | .placeholder => false
  | .openBus => false
  | .prg => true

/-- Store a byte of code at an address of RAM or PRG, from outside the machine. -/
def placeByte (a : Addr) (v : Byte) (s : State) : State :=
  match regionOf a with
  | .ram => { s with bus.ram := writeCell s.bus.ram (ramIndex a) v }
  | .ppuPort => s
  | .oamDma => s
  | .controller => s
  | .controller2 => s
  | .placeholder => s
  | .openBus => s
  | .prg => { s with cart.prg := writeCell s.cart.prg (prgIndex s.cart.prgSize a) v }

/-- Store bytes at consecutive addresses. -/
def placeBytes : Addr → List Byte → State → State
  | _, [], s => s
  | a, v :: rest, s => placeBytes (a + 1) rest (placeByte a v s)

/-- PC, or $8000 where the three bytes from PC on do not all lie in RAM or PRG. -/
def codeAddr (s : State) : Addr :=
  if holdsCode s.regs.pc && holdsCode (s.regs.pc + 1) && holdsCode (s.regs.pc + 2) then s.regs.pc else 0x8000

/-- The state whose next step fetches the given bytes: PC at a place that holds code, nothing that step would do first
(a stall, an NMI, an IRQ that I does not mask). -/
def placeInstr (bytes : List Byte) (s : State) : State :=
  let s' : State :=
    { s with
      regs.pc := codeAddr s
      cpu.stall := 0
      cpu.nmiPending := false
      cpu.irqLine := s.cpu.irqLine && getFlag .i s.regs.p }
  placeBytes (codeAddr s) bytes s'

end Sys2Proof.Machine
end

