-- ==== Sys2Proof/Machine/Step.lean ====
section
/-! DEFINITION. One step of the machine: the system step of spec/60_exceptions.md R415 (log entry 11). -/

namespace Sys2Proof.Machine

/-- "The machine advances only by system steps" (R415). -/
def step (s : State) : Host.Outcome State Fault Refusal := systemStep s

/-- `s` with the instruction of a table word stored where the next step fetches it (log entry 17). -/
def State.withFetchWord (s : State) (nbits w : Nat) : State := placeInstr (tableBytes nbits w) s

end Sys2Proof.Machine
end

