-- ==== Sys2Proof/Machine/HostOps.lean ====
section
/-! DEFINITION. Power-on, reset and the host's operations (spec/70_reset_and_hazards.md R440 to R443, spec/60_exceptions.md
R406, R419, R420). They act between system steps only (log entry 16). -/

namespace Sys2Proof.Machine

/-- R440: registers, counters and latches, then PC through two ordinary reads of the reset vector. -/
def cpuReset (s : State) : State :=
  loadPC resetVector
    { s with
      regs.sp := 0xFD
      regs.p := 0x24
      cpu.cycles := 7
      cpu.nmiPending := false
      cpu.irqLine := false
      cpu.stall := 0 }

/-- R442: every PPU register, latch and flag and the position; the memories and the framebuffer stay. -/
def ppuReset (s : State) : State :=
  { s with ppu := Ppu.cleared s.cfg s.ppu.oam s.ppu.vram s.ppu.palette s.ppu.framebuffer }

/-- R420 `reset(machine)`: R440, R442, R443. -/
def hostReset (s : State) : State := ppuReset (cpuReset s)

/-- The power-on contents the spec leaves to parameters: `INIT_A`, `INIT_X`, `INIT_Y`, `INIT_RAM`, `INIT_OAM`, `INIT_VRAM`,
`INIT_PAL` (R4). -/
structure PowerOn where
  a : Byte
  x : Byte
  y : Byte
  ram : Memory
  oam : Memory
  vram : Memory
  palette : Palette
deriving DecidableEq, Repr

/-- The power-on contents of `State.reset` (log entries 4 and 5). -/
def PowerOn.zero : PowerOn := { a := 0, x := 0, y := 0, ram := [], oam := [], vram := [], palette := [] }

/-- The power-on column of R38 and R39, before the reset. PC, SP and P are undefined there; reset writes all three before
anything reads them, so they stand at zero. -/
def powerOn (cart : Cart) (cfg : Params) (init : PowerOn) : State :=
  { regs := { pc := 0, a := init.a, x := init.x, y := init.y, sp := 0, p := 0 }
    cpu := { cycles := 0, stall := 0, nmiPending := false, irqLine := false, nmiCount := 0 }
    bus := { ram := init.ram, lastBus := 0, controllerByte := 0, shift := 0, strobe := false }
    cart := cart
    ppu := Ppu.cleared cfg init.oam init.vram init.palette []
    cfg := cfg }

/-- R441 `load`: power-on followed by reset. The ROM decoder's output is the cartridge. -/
def load (cart : Cart) (cfg : Params) (init : PowerOn) : State := hostReset (powerOn cart cfg init)

/-- R420 `set_controller`. -/
def setController (v : Byte) (s : State) : State := { s with bus.controllerByte := v }

/-- R406: the environment sets or clears the IRQ line. -/
def setIrqLine (v : Bool) (s : State) : State := { s with cpu.irqLine := v }

/-- R419: system steps until the frame-ready flag is set, at most `budget` of them. -/
def runFrameLoop : Nat → State → Host.Outcome (State × Bool) Fault Refusal
  | 0, s => .next (s, false)
  | budget + 1, s =>
    match step s with
    | .next s' => if s'.ppu.frameReady then .next (s', true) else runFrameLoop budget s'
    | .fault r => .fault r
    | .refused r => .refused r

/-- R419 `run_until_frame(max_instructions)`: the flag is cleared at entry. -/
def runUntilFrame (budget : Nat) (s : State) : Host.Outcome (State × Bool) Fault Refusal :=
  runFrameLoop budget { s with ppu.frameReady := false }

/-- R420 `framebuffer(machine)`: pixel (x, y) at index `y · 256 + x` (R36). -/
def framebuffer (s : State) : List Rgba := (List.range 61440).map fun i => framebufferWord (i % 256) (i / 256) s

end Sys2Proof.Machine
end

