-- ==== Sys2Proof/Safety.lean ====
section
/-! DEFINITION. What a well-formed state is (the facts spec/10_state.md states of every state from reset onward), and the
terms the statements use: what an instruction of each shape leaves unchanged, and what it answers. -/

namespace Sys2Proof.Machine

/-- R12: in the register P, bit 5 is 1 and bit 4 is 0. -/
def Regs.pOk (r : Regs) : Prop := getFlag .u r.p = true ∧ getFlag .b r.p = false

/-- R34: the position is on the grid. -/
def Ppu.posOk (p : Ppu) : Prop := -1 ≤ p.scanline ∧ p.scanline ≤ 260 ∧ p.dot ≤ 340

/-- R26: bits 4:0 of status are 0. -/
def Ppu.statusOk (p : Ppu) : Prop := p.status &&& 0x1F = 0

/-- R37: at most eight cached sprites, each of OAM index 0..63. -/
def Ppu.lineOk (p : Ppu) : Prop := p.line.length ≤ 8 ∧ ∀ e ∈ p.line, e.index < 64

/-- R36: the rendered rows by strictly rising line number, all of lines 0..239, each of 256 pixels. -/
def rowsOkFrom : Nat → List FrameRow → Prop
  | _, [] => True
  | lowest, r :: rest => lowest ≤ r.line ∧ r.line < 240 ∧ r.pixels.length = 256 ∧ rowsOkFrom (r.line + 1) rest

/-- Every memory is in canonical form and inside its size (R19, R22, R27, R28, R29). -/
def State.memoriesOk (s : State) : Prop :=
  Memory.wf 2048 s.bus.ram = true ∧ Memory.wf (prgBytes s.cart.prgSize) s.cart.prg = true ∧
    Memory.wf 8192 s.cart.chr = true ∧ Memory.wf 256 s.ppu.oam = true ∧ Memory.wf 2048 s.ppu.vram = true ∧
    cellsWf 32 s.ppu.palette = true

/-- The well-formed states: what every step keeps. -/
structure State.Inv (s : State) : Prop where
  p : s.regs.pOk
  pos : s.ppu.posOk
  status : s.ppu.statusOk
  line : s.ppu.lineOk
  rows : rowsOkFrom 0 s.ppu.framebuffer
  memories : s.memoriesOk

/-- `t` differs from `s` at most in what a CPU-bus read may change (R65, R67): the last-bus byte, the controller shift
register, and of the PPU status, w, v and the read buffer. Every register, memory and other field is that of `s`. -/
def ReadEffect (s t : State) : Prop :=
  t = { s with
        bus.lastBus := t.bus.lastBus
        bus.shift := t.bus.shift
        ppu.status := t.ppu.status
        ppu.w := t.ppu.w
        ppu.v := t.ppu.v
        ppu.readBuffer := t.ppu.readBuffer }

/-- `t` differs from `s` at most in what a CPU-bus write may change (R55, R67): RAM, the last-bus byte, the controller's
shift register and strobe, the stall counter, the NMI latch and counter, CHR, and the PPU fields the ports and OAM DMA reach.
The CPU registers, the cycle counter, the IRQ line, PRG, the configuration and the PPU's position, latched scroll and control,
sprite line, frame flag and framebuffer are those of `s`. -/
def WriteEffect (s t : State) : Prop :=
  t = { s with
        bus := { t.bus with controllerByte := s.bus.controllerByte }
        cpu := { t.cpu with cycles := s.cpu.cycles, irqLine := s.cpu.irqLine }
        cart.chr := t.cart.chr
        ppu := { t.ppu with
          activeX := s.ppu.activeX
          activeY := s.ppu.activeY
          renderCtrl := s.ppu.renderCtrl
          scanline := s.ppu.scanline
          dot := s.ppu.dot
          frameReady := s.ppu.frameReady
          line := s.ppu.line
          framebuffer := s.ppu.framebuffer } }

/-- N and Z of `p'` follow the value `v`, every other flag is that of `p` (R176). -/
def NZOnly (p v p' : Byte) : Prop :=
  getFlag .n p' = v.getLsbD 7 ∧ getFlag .z p' = (v == 0) ∧ ∀ f, f ≠ .n → f ≠ .z → getFlag f p' = getFlag f p

/-- C, N and Z of `p'` are as given, every other flag is that of `p`. -/
def CNZOnly (p : Byte) (c : Bool) (v p' : Byte) : Prop :=
  getFlag .c p' = c ∧ getFlag .n p' = v.getLsbD 7 ∧ getFlag .z p' = (v == 0) ∧
    ∀ f, f ≠ .c → f ≠ .n → f ≠ .z → getFlag f p' = getFlag f p

/-- The CPU control state of `s` with `n` cycles added. -/
def chargedCpu (n : Nat) (s : State) : Cpu := { s.cpu with cycles := s.cpu.cycles + BitVec.ofNat 64 n }

/-- Only registers and the cycle counter differ: no memory, flag latch, bus or PPU field. -/
def RegFrame (n : Nat) (s t : State) : Prop := t = { s with regs := t.regs, cpu := chargedCpu n s }

/-- Beside the registers and the cycle counter, only the reads of the operand have had their effects, and no byte of RAM or
PRG has changed. -/
def ReadFrame (r : OperandRead) (n : Nat) (s t : State) : Prop :=
  t = { r.st with regs := t.regs, cpu := chargedCpu n s } ∧
    ReadEffect { s with regs := t.regs, cpu := chargedCpu n s } t ∧ ∀ a, storedByte a t = storedByte a s

/-- Whether the operand names memory (R105 to R113 but for the immediate and the accumulator). -/
def inMemory : Operand → Bool
  | .acc | .imm _ => false
  | .zp _ | .zpx _ | .zpy _ | .abs _ | .abx _ | .aby _ | .izx _ | .izy _ => true

/-- The bytes of RAM two CPU addresses name are the same byte (R56). -/
def sameRamByte (a b : Addr) : Bool := regionOf a == .ram && regionOf b == .ram && ramIndex a == ramIndex b

/-- A store of `v` to `addr` of `n` cycles, its pointer reads included: in RAM it changes the one byte, and of the rest of the
state only the last-bus byte; outside RAM it changes no byte of RAM or PRG and nothing a bus write may not change. -/
def StoreFrame (addr : Addr) (v : Byte) (n : Nat) (s t : State) : Prop :=
  (regionOf addr = .ram →
    t = { s with
          regs := t.regs
          cpu := chargedCpu n s
          bus := { s.bus with ram := t.bus.ram, lastBus := v } } ∧
      ∀ a, storedByte a t = if sameRamByte a addr then some v else storedByte a s) ∧
  (regionOf addr ≠ .ram →
    WriteEffect { s with regs := t.regs, cpu := chargedCpu n s } t ∧ ∀ a, storedByte a t = storedByte a s)

/-! ### Cycle counts (R116 to R118) -/

/-- R118: the base cycles of the opcode bytes, one row for each high nibble. -/
def matrixBase : List (List Nat) :=
  [ [7, 6, 2, 8, 2, 3, 5, 5, 3, 2, 2, 2, 2, 4, 6, 6]
  , [2, 5, 2, 8, 2, 4, 6, 6, 2, 4, 2, 7, 2, 4, 7, 7]
  , [6, 6, 2, 8, 3, 3, 5, 5, 4, 2, 2, 2, 4, 4, 6, 6]
  , [2, 5, 2, 8, 2, 4, 6, 6, 2, 4, 2, 7, 2, 4, 7, 7]
  , [6, 6, 2, 8, 2, 3, 5, 5, 3, 2, 2, 2, 3, 4, 6, 6]
  , [2, 5, 2, 8, 2, 4, 6, 6, 2, 4, 2, 7, 2, 4, 7, 7]
  , [6, 6, 2, 8, 2, 3, 5, 5, 4, 2, 2, 2, 5, 4, 6, 6]
  , [2, 5, 2, 8, 2, 4, 6, 6, 2, 4, 2, 7, 2, 4, 7, 7] ]
  ++ [ [2, 6, 2, 6, 3, 3, 3, 3, 2, 2, 2, 2, 4, 4, 4, 4]
  , [2, 6, 2, 6, 4, 4, 4, 4, 2, 5, 2, 5, 5, 5, 5, 5]
  , [2, 6, 2, 6, 3, 3, 3, 3, 2, 2, 2, 2, 4, 4, 4, 4]
  , [2, 5, 2, 5, 4, 4, 4, 4, 2, 4, 2, 4, 4, 4, 4, 4]
  , [2, 6, 2, 8, 3, 3, 5, 5, 2, 2, 2, 2, 4, 4, 6, 6]
  , [2, 5, 2, 8, 2, 4, 6, 6, 2, 4, 2, 7, 2, 4, 7, 7]
  , [2, 6, 2, 8, 3, 3, 5, 5, 2, 2, 2, 2, 4, 4, 6, 6]
  , [2, 5, 2, 8, 2, 4, 6, 6, 2, 4, 2, 7, 2, 4, 7, 7] ]

/-- R118: the opcode bytes whose cell is marked `+`. -/
def matrixPlus : List Byte :=
  [ 0x11, 0x19, 0x1D, 0x31, 0x39, 0x3D, 0x51, 0x59, 0x5D, 0x71, 0x79, 0x7D,
    0xB1, 0xB3, 0xB9, 0xBB, 0xBC, 0xBD, 0xBE, 0xBF, 0xD1, 0xD9, 0xDD, 0xF1,
    0xF9, 0xFD ]

/-- R118: the base cycles of an opcode byte. -/
def baseCycles (op : Byte) : Nat := (matrixBase.getD (op.toNat / 16) []).getD (op.toNat % 16) 0

/-- The operand an instruction's effective address is made of; the accumulator for an instruction without one. -/
def memOperand (i : Instr) : Operand :=
  match i with
  | .lda m | .ldx m | .ldy m | .sta m | .stx m | .sty m | .adc m | .sbc m | .and m | .ora m | .eor m | .cmp m
  | .cpx m | .cpy m | .bit m | .inc m | .dec m | .asl m | .lsr m | .rol m | .ror m | .lax m | .sax m | .slo m
  | .rla m | .sre m | .rra m | .dcp m | .isc m | .ahx m => m
  | .anc v | .anc2B v | .alr v | .arr v | .sbx v | .usbc v | .xaa v | .lxa v => .imm v
  | .las a | .shx a | .tas a => .aby a
  | .shy a => .abx a
  | .bpl _ | .bmi _ | .bvc _ | .bvs _ | .bcc _ | .bcs _ | .bne _ | .beq _ | .jmpAbs _ | .jmpInd _ | .jsr _ | .unk _
  | .tax | .tay | .txa | .tya | .tsx | .txs | .inx | .iny | .dex | .dey | .rts | .rti | .brk | .pha | .pla | .php
  | .plp | .clc | .sec | .cli | .sei | .clv | .cld | .sed | .nop => .acc

/-- R207 to R214: whether the instruction is a branch that is taken, with its offset. -/
def takenBranch (i : Instr) (p : Byte) : Option Byte :=
  match i with
  | .bpl o => if getFlag .n p then none else some o
  | .bmi o => if getFlag .n p then some o else none
  | .bvc o => if getFlag .v p then none else some o
  | .bvs o => if getFlag .v p then some o else none
  | .bcc o => if getFlag .c p then none else some o
  | .bcs o => if getFlag .c p then some o else none
  | .bne o => if getFlag .z p then none else some o
  | .beq o => if getFlag .z p then some o else none
  | .lda _ | .ldx _ | .ldy _ | .sta _ | .stx _ | .sty _ | .adc _ | .sbc _ | .and _ | .ora _ | .eor _ | .cmp _
  | .cpx _ | .cpy _ | .bit _ | .inc _ | .dec _ | .asl _ | .lsr _ | .rol _ | .ror _ | .lax _ | .sax _ | .slo _
  | .rla _ | .sre _ | .rra _ | .dcp _ | .isc _ | .ahx _ | .anc _ | .anc2B _ | .alr _ | .arr _ | .sbx _ | .usbc _
  | .xaa _ | .lxa _ | .las _ | .shx _ | .tas _ | .shy _ | .jmpAbs _ | .jmpInd _ | .jsr _ | .unk _
  | .tax | .tay | .txa | .tya | .tsx | .txs | .inx | .iny | .dex | .dey | .rts | .rti | .brk | .pha | .pla | .php
  | .plp | .clc | .sec | .cli | .sei | .clv | .cld | .sed | .nop => none

/-- R116: the penalty of an instruction with the opcode byte `op`: 1 for a crossed page where the cell is marked `+`; 1 for a
taken branch, 2 where the target lies in another page than the next instruction. -/
def penalty (i : Instr) (op : Byte) (s : State) : Nat :=
  match takenBranch i s.regs.p with
  | some o => if hi (s.regs.pc + sext16 o) = hi s.regs.pc then 1 else 2
  | none => if matrixPlus.contains op && (effAddr (memOperand i) s).crossed then 1 else 0

/-! ### Stores and the stack -/

/-- One `Write` of `v` to the operand's effective address after its pointer reads, and `n` cycles; then the registers of `t`.
What that leaves unchanged is `StoreFrame`. -/
def Stores (m : Operand) (v : Byte) (n : Nat) (s t : State) : Prop :=
  t = { busWrite (effAddr m s).addr v (effAddr m s).st with
        regs := t.regs
        cpu.cycles := s.cpu.cycles + BitVec.ofNat 64 n } ∧
    StoreFrame (effAddr m s).addr v n s t

/-- The byte a read-modify-write instruction finds at its operand's effective address (R194). -/
def operandByte (m : Operand) (s : State) : Byte := (busRead (effAddr m s).addr (effAddr m s).st).val

/-- R194: one `Read` and one `Write` of `v` at the operand's effective address, and `n` cycles; then the registers of `t`. -/
def Modifies (m : Operand) (v : Byte) (n : Nat) (s t : State) : Prop :=
  t = { busWrite (effAddr m s).addr v (busRead (effAddr m s).addr (effAddr m s).st).st with
        regs := t.regs
        cpu.cycles := s.cpu.cycles + BitVec.ofNat 64 n } ∧
    StoreFrame (effAddr m s).addr v n s t

/-- The RAM cell a push from stack pointer `sp` writes (R230). -/
def pushCell (order : StackOrder) (sp : Byte) : Nat :=
  match order with
  | .doc => 256 + (sp - 1).toNat
  | .mos => 256 + sp.toNat

/-- The RAM cell a pull from stack pointer `sp` reads (R230). -/
def pullCell (order : StackOrder) (sp : Byte) : Nat :=
  match order with
  | .doc => 256 + sp.toNat
  | .mos => 256 + (sp + 1).toNat

/-- The `k`-th of the cells pushes from the stack pointer of `s` on write, the first for `k = 0` (R230). -/
def pushedCell (s : State) (k : Nat) : Nat := pushCell s.cfg.stackOrder (s.regs.sp - BitVec.ofNat 8 k)

/-- The byte the `k`-th pull from `s` on gives, the first for `k = 0` (R230). -/
def pulledByte (s : State) (k : Nat) : Byte :=
  readCell s.bus.ram (pullCell s.cfg.stackOrder (s.regs.sp + BitVec.ofNat 8 k))

/-- From `s` to `t` the bytes `vs` are pushed, in this order: they lie in their cells of page $01, no other byte of RAM has
changed, and nothing else but registers, the last-bus byte and the cycle counter has. -/
def Pushes (vs : List Byte) (n : Nat) (s t : State) : Prop :=
  t = { s with
        regs := t.regs
        cpu := chargedCpu n s
        bus := { s.bus with ram := t.bus.ram, lastBus := t.bus.lastBus } } ∧
    t.regs.sp = s.regs.sp - BitVec.ofNat 8 vs.length ∧
    (∀ k v, vs[k]? = some v → readCell t.bus.ram (pushedCell s k) = v) ∧
    ∀ c, (∀ k, k < vs.length → c ≠ pushedCell s k) → readCell t.bus.ram c = readCell s.bus.ram c

/-- From `s` to `t`, `k` bytes are pulled: nothing but registers, the last-bus byte and the cycle counter has changed. -/
def Pulls (k n : Nat) (s t : State) : Prop :=
  t = { s with
        regs := t.regs
        cpu := chargedCpu n s
        bus.lastBus := t.bus.lastBus } ∧
    t.regs.sp = s.regs.sp + BitVec.ofNat 8 k

/-! ### Pixels (R345, R356) -/

/-- The two bits of a pattern pixel: bit `bit` of the PPU-bus byte at `pa` is the low one, that of the byte at `pa + 8` the high
one. -/
def PlaneBits (px : BitVec 2) (pa bit : Nat) (s : State) : Prop :=
  px.getLsbD 0 = (ppuRead (BitVec.ofNat 14 pa) s).getLsbD bit ∧
    px.getLsbD 1 = (ppuRead (BitVec.ofNat 14 (pa + 8)) s).getLsbD bit

/-- R345 in numbers: `b` is the background pixel fetched for (x, line). The scrolled world position, the nametable it falls in
(the half to the right and the lower half each turn one bit of the latched base around), the tile, the two attribute bits of the
quadrant, and the pattern's bits, leftmost first. -/
def BackgroundFetched (x line : Nat) (s : State) (b : BgPixel) : Prop :=
  let wx := (x + s.ppu.activeX.toNat) % 512
  let wy := (line + s.ppu.activeY.toNat) % 480
  let base := 0x2000 + (if s.ppu.renderCtrl.getLsbD 0 != decide (256 ≤ wx) then 0x400 else 0)
    + (if s.ppu.renderCtrl.getLsbD 1 != decide (240 ≤ wy) then 0x800 else 0)
  let cx := wx % 256
  let cy := wy % 240
  let tile := ppuRead (BitVec.ofNat 14 (base + cy / 8 * 32 + cx / 8)) s
  let attr := ppuRead (BitVec.ofNat 14 (base + 0x3C0 + cy / 32 * 8 + cx / 32)) s
  let quadrant := (if cy % 32 < 16 then 0 else 4) + (if cx % 32 < 16 then 0 else 2)
  let pa := (if s.ppu.renderCtrl.getLsbD 4 then 0x1000 else 0) + tile.toNat * 16 + cy % 8
  b.pal = (if attr.getLsbD quadrant then 1 else 0) + (if attr.getLsbD (quadrant + 1) then 2 else 0) ∧
    PlaneBits b.px pa (7 - cx % 8) s

/-- The rows and columns of a sprite (R343, R346): its first row is one below its y byte, its first column its x byte; 16 or 8
rows by bit 5 of the latched control, 8 columns. -/
def SpriteCovers (e : SpriteEntry) (x line : Nat) (s : State) : Prop :=
  e.y.toNat + 1 ≤ line ∧ line < e.y.toNat + 1 + (if s.ppu.renderCtrl.getLsbD 5 then 16 else 8) ∧
    e.x.toNat ≤ x ∧ x < e.x.toNat + 8

/-- R356 in numbers: `px` is the pattern pixel of a sprite that covers (x, line). Attribute bit 6 mirrors the columns, bit 7 the
rows; an 8×8 sprite's table is by bit 3 of the latched control; an 8×16 sprite's table is by bit 0 of the tile byte, its upper
half the even tile, its lower half the odd one. -/
def SpriteSampled (e : SpriteEntry) (x line : Nat) (s : State) (px : BitVec 2) : Prop :=
  let tall := s.ppu.renderCtrl.getLsbD 5
  let row := if e.attr.getLsbD 7 then e.y.toNat + (if tall then 16 else 8) - line else line - (e.y.toNat + 1)
  let bit := if e.attr.getLsbD 6 then x - e.x.toNat else e.x.toNat + 7 - x
  let pa :=
    if tall then (if e.tile.getLsbD 0 then 0x1000 else 0) + e.tile.toNat / 2 * 32 + (if row < 8 then row else row + 8)
    else (if s.ppu.renderCtrl.getLsbD 3 then 0x1000 else 0) + e.tile.toNat * 16 + row
  PlaneBits px pa bit s

/-! ### Vectors (R404) and PRG (R63) -/

/-- R63: the PRG byte at a CPU address. -/
def prgByte (a : Addr) (s : State) : Byte := readCell s.cart.prg (prgIndex s.cart.prgSize a)

/-- R404: the little-endian word at a vector. -/
def vectorWord (a : Addr) (s : State) : Addr := w16 (prgByte a s) (prgByte (a + 1) s)

/-! ### What an instruction answers -/

/-- `i` answers a next state: the registers are `f` of the old ones, `n` cycles are added, nothing else changes. -/
def RegRun (i : Instr) (n : Nat) (f : Regs → Regs) (s : State) : Prop :=
  ∃ t, exec i s = .next t ∧ t.regs = f s.regs ∧ RegFrame n s t

/-- `i` answers a next state: the registers are `f` of the operand's byte and the old ones, and beside the cycle count nothing
changes but what the operand's reads change. -/
def ReadRun (i : Instr) (m : Operand) (f : Byte → Regs → Regs) (s : State) : Prop :=
  ∃ t, exec i s = .next t ∧ t.regs = f (readOperand m s).val s.regs ∧
    ReadFrame (readOperand m s) (readCycles m (readOperand m s).crossed) s t

/-- `i` answers a next state: `v` is stored to the operand's effective address, and the registers are `r`. -/
def StoreRun (i : Instr) (m : Operand) (v : Byte) (r : Regs) (s : State) : Prop :=
  ∃ t, exec i s = .next t ∧ t.regs = r ∧ Stores m v (writeCycles m) s t

/-- `i` answers a next state: the operand's byte is read once and `v` stored over it, and the registers are `r`. -/
def ModifyRun (i : Instr) (m : Operand) (v : Byte) (r : Regs) (s : State) : Prop :=
  ∃ t, exec i s = .next t ∧ t.regs = r ∧ Modifies m v (rmwCycles m) s t

/-- `i` answers a next state with `n` cycles added and the registers `r`; nothing else changes. -/
def JumpRun (i : Instr) (n : Nat) (r : Regs) (s : State) : Prop := RegRun i n (fun _ => r) s

/-- R206: `i` answers a next state: PC is left alone for 2 cycles, or, where `cond` holds, moved by the signed offset modulo
65536, for 3 cycles in the page of the next instruction and 4 out of it. Nothing else changes. -/
def BranchRun (i : Instr) (cond : Bool) (o : Byte) (s : State) : Prop :=
  let target : Addr := BitVec.ofInt 16 (s.regs.pc.toNat + o.toInt)
  if cond then
    JumpRun i (if target.toNat / 256 = s.regs.pc.toNat / 256 then 3 else 4) { s.regs with pc := target } s
  else JumpRun i 2 s.regs s

/-- A step that goes on: the machine has no other outcome (R421). -/
def goesOn (r : Result) : Prop := ∃ t, r = .next t

end Sys2Proof.Machine
end

