-- ==== Sys2Proof/Certificates/Slice0/Obligations.lean ====
section
/-! DEFINITION. The statements about the machine. `exec i s` is stated at the state the fetch of `i`'s bytes leaves: PC is the
address of the next instruction (log entry 12). A status byte's flags are named, not numbered, wherever the spec names them. -/

open Sys2Proof Sys2Proof.Machine

/-! ### Encoding (spec/30_encoding.md) -/

/-- Decoding an encoded well-formed instruction, whatever follows it, gives the instruction and what follows. -/
def Obligations.DecodeOfEncodeRoundTrip : Prop :=
  ∀ (i : Instr) (rest : List Byte), i.wf = true → decode (encode i ++ rest) = .ok (i, rest)

/-- What the decoder accepts is a well-formed instruction, and its encoding is the bytes the decoder took. -/
def Obligations.EncodeOfDecodeRoundTrip : Prop :=
  ∀ (bytes : List Byte) (i : Instr) (rest : List Byte), decode bytes = .ok (i, rest) → i.wf = true ∧ encode i ++ rest = bytes

/-- Every opcode byte decodes, and the unknown opcodes of R119 are the ones that decode to UNK, of one byte. That an unknown
opcode is one byte long is decision D3. -/
def Obligations.EveryOpcodeByteDecodes : Prop :=
  ∀ (op v w : Byte) (rest : List Byte),
    (∃ i rest', decode (op :: v :: w :: rest) = .ok (i, rest')) ∧
      (decode (op :: v :: w :: rest) = .ok (.unk op, v :: w :: rest) ↔ op ∈ unknownOpcodes)

/-- Words written out from the spec's encodings decode to the instructions they stand for. -/
def Obligations.TableWordsDecode : Prop :=
  decodeTableWord 16 0x80A9 = some (.lda (.imm 0x80)) ∧
    decodeTableWord 24 0x02FF9D = some (.sta (.abx 0x02FF)) ∧
    decodeTableWord 16 0x50B6 = some (.ldx (.zpy 0x50)) ∧
    decodeTableWord 16 0x1071 = some (.adc (.izy 0x10)) ∧
    decodeTableWord 8 0x6A = some (.ror .acc) ∧
    decodeTableWord 24 0x10FF6C = some (.jmpInd 0x10FF) ∧
    decodeTableWord 24 0x900020 = some (.jsr 0x9000) ∧
    decodeTableWord 16 0xFBD0 = some (.bne 0xFB) ∧
    decodeTableWord 8 0x28 = some .plp ∧
    decodeTableWord 24 0x06009F = some (.ahx (.aby 0x0600)) ∧
    decodeTableWord 16 0xF0EB = some (.usbc 0xF0) ∧
    decodeTableWord 8 0x04 = some (.unk 0x04)

/-! ### The step (spec/60_exceptions.md) -/

/-- When neither a stall nor an interrupt comes first, a step is `exec` of the instruction its fetched bytes decode to, in the
state those fetches leave, and three PPU ticks for each cycle it took. -/
def Obligations.StepRunsDecodedInstruction : Prop :=
  ∀ (s : State) (i : Instr) (rest : List Byte),
    s.cpu.stall = 0 → s.cpu.nmiPending = false → irqTaken s = false → decode (fetchInstr s).bytes = .ok (i, rest) →
      step s =
        match exec i (fetchInstr s).st with
        | .next t => .next (ticks (3 * returnedCycles s t) t)
        | .fault f => .fault f
        | .refused r => .refused r

/-- An instruction whose bytes are stored from PC on is fetched: exactly its bytes are read, PC passes them, and beside PC only
the last-bus byte changes, to the last byte fetched. -/
def Obligations.FetchReadsStoredInstruction : Prop :=
  ∀ (s : State) (i : Instr),
    i.wf = true → (∀ k b, (encode i)[k]? = some b → storedByte (s.regs.pc + BitVec.ofNat 16 k) s = some b) →
      (fetchInstr s).bytes = encode i ∧
        ∃ b, (encode i).getLast? = some b ∧
          (fetchInstr s).st =
            { s with regs.pc := s.regs.pc + BitVec.ofNat 16 (encode i).length, bus.lastBus := b }

/-- Every step of the machine, and of the CPU alone, has a next state, and the frame driver answers a boolean. -/
def Obligations.EveryOperationIsTotal : Prop :=
  ∀ s : State, goesOn (step s) ∧ goesOn (cpuStep s) ∧ ∀ n, ∃ t b, runUntilFrame n s = .next (t, b)

/-- The order of a step's events: a stall cycle, then NMI service, then IRQ service, then an instruction. A stall cycle takes
one cycle and changes nothing but the two counters. Where the interrupts are sampled is decision D35, when the count is added
decision D8. -/
def Obligations.StepTakesOneEventByPriority : Prop :=
  ∀ s : State,
    (0 < s.cpu.stall →
      cpuStep s = .next { s with cpu := { chargedCpu 1 s with stall := s.cpu.stall - 1 } }) ∧
    (s.cpu.stall = 0 → s.cpu.nmiPending = true →
      cpuStep s = .next ((interrupt 0xFFFA false { s with cpu.nmiPending := false }).charge 7)) ∧
    (s.cpu.stall = 0 → s.cpu.nmiPending = false → s.cpu.irqLine = true → getFlag .i s.regs.p = false →
      cpuStep s = .next ((interrupt 0xFFFE false s).charge 7)) ∧
    (s.cpu.stall = 0 → s.cpu.nmiPending = false → (s.cpu.irqLine = false ∨ getFlag .i s.regs.p = true) →
      cpuStep s = runInstr s)

/-- A step keeps the machine well-formed: bits 5 and 4 of P, the PPU position on its grid, status bits 4:0 clear, at most eight
cached sprites, whole framebuffer rows, every memory in canonical form. -/
def Obligations.StepKeepsInvariant : Prop := ∀ s t : State, s.Inv → step s = .next t → t.Inv

/-- The machine right after reset is well-formed. The memories of the reset state are the model's choice (log entries 5
and 6). -/
def Obligations.ResetMeetsInvariant : Prop := State.reset.Inv

/-- No step changes PRG, the mirroring, CHR that is not writable, or an implementation parameter. -/
def Obligations.StepKeepsConfiguration : Prop :=
  ∀ s t : State, step s = .next t →
    t.cfg = s.cfg ∧ t.cart = { s.cart with chr := t.cart.chr } ∧ (s.cart.chrWritable = false → t.cart = s.cart)

/-- Every instruction completes, in the cycles of the opcode matrix: the base count of its opcode, one more where a marked entry
crosses a page, one or two more for a taken branch. A branch's page is compared with that of the next instruction by decision
D11. -/
def Obligations.EveryInstructionTakesMatrixCycles : Prop :=
  ∀ (i : Instr) (op : Byte) (s : State), i.wf = true → i.opcode = some op →
    ∃ t, exec i s = .next t ∧ returnedCycles s t = baseCycles op + penalty i op s ∧
      t.cpu.cycles = s.cpu.cycles + BitVec.ofNat 64 (baseCycles op + penalty i op s)

/-! ### Operands (spec/30_encoding.md R104 to R113) -/

/-- The effective address of every addressing mode in numbers, with the page-cross flag and the base's high byte, and the one
thing the pointer reads change. The zero-page wrap of ZPX and ZPY is decision D10. -/
def Obligations.AddressingModes : Prop :=
  ∀ s : State,
    (∀ v, readOperand (.imm v) s = ⟨v, false, s⟩) ∧
    (∀ z, (effAddr (.zp z) s).addr.toNat = z.toNat ∧ (effAddr (.zp z) s).crossed = false) ∧
    (∀ z, (effAddr (.zpx z) s).addr.toNat = (z.toNat + s.regs.x.toNat) % 256 ∧ (effAddr (.zpx z) s).crossed = false) ∧
    (∀ z, (effAddr (.zpy z) s).addr.toNat = (z.toNat + s.regs.y.toNat) % 256 ∧ (effAddr (.zpy z) s).crossed = false) ∧
    (∀ a, (effAddr (.abs a) s).addr = a ∧ (effAddr (.abs a) s).crossed = false ∧
      (effAddr (.abs a) s).high.toNat = a.toNat / 256) ∧
    (∀ a, (effAddr (.abx a) s).addr.toNat = (a.toNat + s.regs.x.toNat) % 65536 ∧
      (effAddr (.abx a) s).crossed = decide (255 < a.toNat % 256 + s.regs.x.toNat) ∧
      (effAddr (.abx a) s).high.toNat = a.toNat / 256) ∧
    (∀ a, (effAddr (.aby a) s).addr.toNat = (a.toNat + s.regs.y.toNat) % 65536 ∧
      (effAddr (.aby a) s).crossed = decide (255 < a.toNat % 256 + s.regs.y.toNat) ∧
      (effAddr (.aby a) s).high.toNat = a.toNat / 256) ∧
    (∀ z, let q := (z.toNat + s.regs.x.toNat) % 256
      let l := readCell s.bus.ram q
      let h := readCell s.bus.ram ((q + 1) % 256)
      (effAddr (.izx z) s).addr.toNat = h.toNat * 256 + l.toNat ∧ (effAddr (.izx z) s).crossed = false ∧
        (effAddr (.izx z) s).high = h ∧ (effAddr (.izx z) s).st = s.setLastBus h) ∧
    (∀ z, let l := readCell s.bus.ram z.toNat
      let h := readCell s.bus.ram ((z.toNat + 1) % 256)
      (effAddr (.izy z) s).addr.toNat = (h.toNat * 256 + l.toNat + s.regs.y.toNat) % 65536 ∧
        (effAddr (.izy z) s).crossed = decide (255 < l.toNat + s.regs.y.toNat) ∧
        (effAddr (.izy z) s).high = h ∧ (effAddr (.izy z) s).st = s.setLastBus h) ∧
    ∀ m, inMemory m = true →
      readOperand m s =
        ⟨(busRead (effAddr m s).addr (effAddr m s).st).val, (effAddr m s).crossed,
          (busRead (effAddr m s).addr (effAddr m s).st).st⟩

/-! ### Loads, stores, transfers (spec/40_load_store_transfer.md, spec/45_unofficial.md R250, R251, R266 to R269) -/

/-- LDA, LDX, LDY and LAX, in every operand form: the register or registers take the operand's byte, N and Z follow it. -/
def Obligations.LoadsSetRegisterAndNZ : Prop :=
  ∀ (m : Operand) (s : State),
    ReadRun (.lda m) m (fun v r => setNZ v { r with a := v }) s ∧
    ReadRun (.ldx m) m (fun v r => setNZ v { r with x := v }) s ∧
    ReadRun (.ldy m) m (fun v r => setNZ v { r with y := v }) s ∧
    ReadRun (.lax m) m (fun v r => setNZ v { r with a := v, x := v }) s

/-- STA, STX, STY and SAX, in every operand form, store the register's byte (A & X for SAX); SHY, SHX, AHX and TAS store it and
the un-indexed high byte plus one. No flag and no register changes, but for TAS, which loads SP with A & X. The high byte and
the address of the SH stores are decision D30. -/
def Obligations.StoresWriteRegister : Prop :=
  ∀ (m : Operand) (a : Addr) (s : State), Memory.wf 2048 s.bus.ram = true →
    StoreRun (.sta m) m s.regs.a s.regs s ∧
    StoreRun (.stx m) m s.regs.x s.regs s ∧
    StoreRun (.sty m) m s.regs.y s.regs s ∧
    StoreRun (.sax m) m (s.regs.a &&& s.regs.x) s.regs s ∧
    StoreRun (.shy a) (.abx a) (s.regs.y &&& (hi a + 1)) s.regs s ∧
    StoreRun (.shx a) (.aby a) (s.regs.x &&& (hi a + 1)) s.regs s ∧
    StoreRun (.ahx m) m (s.regs.a &&& s.regs.x &&& ((effAddr m s).high + 1)) s.regs s ∧
    StoreRun (.tas a) (.aby a) (s.regs.a &&& s.regs.x &&& (hi a + 1)) { s.regs with sp := s.regs.a &&& s.regs.x } s

/-- The transfers and the increments and decrements of X and Y, with their encodings: two cycles; the destination takes the source,
or the register plus or minus one modulo 256; N and Z follow the value, but for TXS, which sets no flag. -/
def Obligations.TransfersAndIndexSteps : Prop :=
  ∀ (s : State) (rest : List Byte),
    decode (0xAA :: rest) = .ok (.tax, rest) ∧ RegRun .tax 2 (fun r => setNZ r.a { r with x := r.a }) s ∧
    decode (0xA8 :: rest) = .ok (.tay, rest) ∧ RegRun .tay 2 (fun r => setNZ r.a { r with y := r.a }) s ∧
    decode (0x8A :: rest) = .ok (.txa, rest) ∧ RegRun .txa 2 (fun r => setNZ r.x { r with a := r.x }) s ∧
    decode (0x98 :: rest) = .ok (.tya, rest) ∧ RegRun .tya 2 (fun r => setNZ r.y { r with a := r.y }) s ∧
    decode (0xBA :: rest) = .ok (.tsx, rest) ∧ RegRun .tsx 2 (fun r => setNZ r.sp { r with x := r.sp }) s ∧
    decode (0x9A :: rest) = .ok (.txs, rest) ∧ RegRun .txs 2 (fun r => { r with sp := r.x }) s ∧
    decode (0xE8 :: rest) = .ok (.inx, rest) ∧ RegRun .inx 2 (fun r => setNZ (r.x + 1) { r with x := r.x + 1 }) s ∧
    decode (0xC8 :: rest) = .ok (.iny, rest) ∧ RegRun .iny 2 (fun r => setNZ (r.y + 1) { r with y := r.y + 1 }) s ∧
    decode (0xCA :: rest) = .ok (.dex, rest) ∧ RegRun .dex 2 (fun r => setNZ (r.x - 1) { r with x := r.x - 1 }) s ∧
    decode (0x88 :: rest) = .ok (.dey, rest) ∧ RegRun .dey 2 (fun r => setNZ (r.y - 1) { r with y := r.y - 1 }) s

/-! ### Arithmetic and logic (spec/41_arith_logic.md) -/

/-- `setNZ(v)`: N is bit 7 of the value, Z says that it is 0, no other flag and no register changes. -/
def Obligations.SetNZFollowsValue : Prop :=
  ∀ (v : Byte) (r : Regs), NZOnly r.p v (setNZ v r).p ∧ setNZ v r = { r with p := (setNZ v r).p }

/-- `adc_core(m)` in integers: the sum modulo 256, the carry out of it, the overflow by the XOR-of-sign rule, which says that
the addends agree in sign and the result does not; N and Z follow the result; nothing else changes. -/
def Obligations.AddCoreIsIntegerSum : Prop :=
  ∀ (m : Byte) (r : Regs),
    let t := r.a.toNat + m.toNat + (if getFlag .c r.p then 1 else 0)
    let r' := adcCore m r
    r'.a.toNat = t % 256 ∧ getFlag .c r'.p = decide (256 ≤ t) ∧
      getFlag .v r'.p = (((r.a ^^^ r'.a) &&& (m ^^^ r'.a) &&& 0x80) != 0) ∧
      (getFlag .v r'.p = true ↔ r.a.getLsbD 7 = m.getLsbD 7 ∧ r'.a.getLsbD 7 ≠ m.getLsbD 7) ∧
      getFlag .n r'.p = r'.a.getLsbD 7 ∧ getFlag .z r'.p = (r'.a == 0) ∧
      (∀ f, f ≠ .c → f ≠ .z → f ≠ .v → f ≠ .n → getFlag f r'.p = getFlag f r.p) ∧
      r' = { r with a := r'.a, p := r'.p }

/-- SBC's function as a subtraction: A − M − (1 − C) modulo 256, no borrow out exactly where that is not negative, V the signed
overflow of it. -/
def Obligations.SubtractIsIntegerDifference : Prop :=
  ∀ (m : Byte) (r : Regs),
    let borrow : Int := if getFlag .c r.p then 0 else 1
    let r' := adcCore (m ^^^ 0xFF) r
    (r'.a.toNat : Int) = ((r.a.toNat : Int) - m.toNat - borrow) % 256 ∧
      getFlag .c r'.p = decide (0 ≤ (r.a.toNat : Int) - m.toNat - borrow) ∧
      getFlag .v r'.p = decide (r.a.toInt - m.toInt - borrow < -128 ∨ 127 < r.a.toInt - m.toInt - borrow)

/-- ADC, SBC, RRA, ISC, ARR and USBC do the same whatever D holds, and leave D as it was. Decision D34. -/
def Obligations.DecimalFlagChangesNoComputation : Prop :=
  ∀ (i : Instr) (m : Operand) (v : Byte) (d : Bool) (s t : State),
    (i = .adc m ∨ i = .sbc m ∨ i = .rra m ∨ i = .isc m ∨ i = .arr v ∨ i = .usbc v) →
      exec i s = .next t →
        getFlag .d t.regs.p = getFlag .d s.regs.p ∧
          exec i (s.setP (setFlag .d d s.regs.p)) = .next (t.setP (setFlag .d d t.regs.p))

/-- AND, ORA, EOR, ADC, SBC, CMP, CPX, CPY in every operand form: the operand's byte combined with A by the operation, by
`adc_core` (of the one's complement for SBC), or compared with the register. -/
def Obligations.AccumulatorOperations : Prop :=
  ∀ (m : Operand) (s : State),
    ReadRun (.and m) m (fun v r => setNZ (r.a &&& v) { r with a := r.a &&& v }) s ∧
    ReadRun (.ora m) m (fun v r => setNZ (r.a ||| v) { r with a := r.a ||| v }) s ∧
    ReadRun (.eor m) m (fun v r => setNZ (r.a ^^^ v) { r with a := r.a ^^^ v }) s ∧
    ReadRun (.adc m) m adcCore s ∧
    ReadRun (.sbc m) m (fun b => adcCore (b ^^^ 0xFF)) s ∧
    ReadRun (.cmp m) m (fun v r => compareRegs r.a v r) s ∧
    ReadRun (.cpx m) m (fun v r => compareRegs r.x v r) s ∧
    ReadRun (.cpy m) m (fun v r => compareRegs r.y v r) s

/-- BIT: V and N are bits 6 and 7 of the operand, Z says that A & M is 0, every other flag and every register stays. -/
def Obligations.BitTestsOperand : Prop :=
  ∀ (m : Operand) (s : State), ∃ t,
    exec (.bit m) s = .next t ∧ ReadFrame (readOperand m s) (readCycles m (readOperand m s).crossed) s t ∧
      t.regs = { s.regs with p := t.regs.p } ∧
      getFlag .v t.regs.p = (readOperand m s).val.getLsbD 6 ∧ getFlag .n t.regs.p = (readOperand m s).val.getLsbD 7 ∧
      getFlag .z t.regs.p = ((s.regs.a &&& (readOperand m s).val) == 0) ∧
      ∀ f, f ≠ .v → f ≠ .n → f ≠ .z → getFlag f t.regs.p = getFlag f s.regs.p

/-- `compare(r, m)`: C says that the register is not below the operand, N and Z follow the difference, Z exactly for equal
bytes; every other flag, V among them, and every register stays. -/
def Obligations.CompareSetsCarryOnGreaterOrEqual : Prop :=
  ∀ (v m : Byte) (r : Regs),
    CNZOnly r.p (decide (m.toNat ≤ v.toNat)) (v - m) (compareRegs v m r).p ∧
      (getFlag .z (compareRegs v m r).p = true ↔ v = m) ∧ compareRegs v m r = { r with p := (compareRegs v m r).p }

/-! ### Read-modify-write (spec/42_shift_rotate.md, spec/41_arith_logic.md R169, R170, spec/45_unofficial.md) -/

/-- ASL, LSR, ROL, ROR on the accumulator: two cycles; the bit shifted out goes to C, the rotates shift the old C in, N and Z
follow the result. The same and INC, DEC in every memory form: one read and one write at one address; INC and DEC leave C alone;
no other flag or register changes. One read and one write, no dummy access, is decision D4. -/
def Obligations.ReadModifyWrite : Prop :=
  ∀ (m : Operand) (s : State),
    RegRun (.asl .acc) 2 (fun r => setNZ (r.a <<< 1) { r with a := r.a <<< 1, p := setFlag .c (r.a.getLsbD 7) r.p }) s ∧
    RegRun (.lsr .acc) 2 (fun r => setNZ (r.a >>> 1) { r with a := r.a >>> 1, p := setFlag .c (r.a.getLsbD 0) r.p }) s ∧
    RegRun (.rol .acc) 2 (fun r =>
      let v := (r.a <<< 1) ||| (if getFlag .c r.p then 1 else 0)
      setNZ v { r with a := v, p := setFlag .c (r.a.getLsbD 7) r.p }) s ∧
    RegRun (.ror .acc) 2 (fun r =>
      let v := (r.a >>> 1) ||| (if getFlag .c r.p then 0x80 else 0)
      setNZ v { r with a := v, p := setFlag .c (r.a.getLsbD 0) r.p }) s ∧
    (inMemory m = true → Memory.wf 2048 s.bus.ram = true →
      let b := operandByte m s
      let c := getFlag .c s.regs.p
      let rol := (b <<< 1) ||| (if c then 1 else 0)
      let ror := (b >>> 1) ||| (if c then 0x80 else 0)
      ModifyRun (.asl m) m (b <<< 1) (setNZ (b <<< 1) { s.regs with p := setFlag .c (b.getLsbD 7) s.regs.p }) s ∧
      ModifyRun (.lsr m) m (b >>> 1) (setNZ (b >>> 1) { s.regs with p := setFlag .c (b.getLsbD 0) s.regs.p }) s ∧
      ModifyRun (.rol m) m rol (setNZ rol { s.regs with p := setFlag .c (b.getLsbD 7) s.regs.p }) s ∧
      ModifyRun (.ror m) m ror (setNZ ror { s.regs with p := setFlag .c (b.getLsbD 0) s.regs.p }) s ∧
      ModifyRun (.inc m) m (b + 1) (setNZ (b + 1) s.regs) s ∧
      ModifyRun (.dec m) m (b - 1) (setNZ (b - 1) s.regs) s)

/-- SLO, RLA, SRE, RRA, DCP, ISC in every form: the memory part as ASL, ROL, LSR, ROR, DEC, INC, then the new byte is combined
with A; RRA adds with the carry the rotate left. -/
def Obligations.CombinedReadModifyWrite : Prop :=
  ∀ (m : Operand) (s : State), inMemory m = true → Memory.wf 2048 s.bus.ram = true →
    let b := operandByte m s
    let c := getFlag .c s.regs.p
    let rol := (b <<< 1) ||| (if c then 1 else 0)
    let ror := (b >>> 1) ||| (if c then 0x80 else 0)
    let slo := s.regs.a ||| (b <<< 1)
    let rla := s.regs.a &&& rol
    let sre := s.regs.a ^^^ (b >>> 1)
    ModifyRun (.slo m) m (b <<< 1) (setNZ slo { s.regs with a := slo, p := setFlag .c (b.getLsbD 7) s.regs.p }) s ∧
    ModifyRun (.rla m) m rol (setNZ rla { s.regs with a := rla, p := setFlag .c (b.getLsbD 7) s.regs.p }) s ∧
    ModifyRun (.sre m) m (b >>> 1) (setNZ sre { s.regs with a := sre, p := setFlag .c (b.getLsbD 0) s.regs.p }) s ∧
    ModifyRun (.rra m) m ror (adcCore ror { s.regs with p := setFlag .c (b.getLsbD 0) s.regs.p }) s ∧
    ModifyRun (.dcp m) m (b - 1) (compareRegs s.regs.a (b - 1) s.regs) s ∧
    ModifyRun (.isc m) m (b + 1) (adcCore ((b + 1) ^^^ 0xFF) s.regs) s

/-! ### Control flow (spec/43_control_flow.md) -/

/-- The eight conditional branches: taken exactly on their flag. The page comparison is decision D11. -/
def Obligations.BranchesTestTheirFlag : Prop :=
  ∀ (o : Byte) (s : State),
    BranchRun (.bpl o) (!getFlag .n s.regs.p) o s ∧ BranchRun (.bmi o) (getFlag .n s.regs.p) o s ∧
    BranchRun (.bvc o) (!getFlag .v s.regs.p) o s ∧ BranchRun (.bvs o) (getFlag .v s.regs.p) o s ∧
    BranchRun (.bcc o) (!getFlag .c s.regs.p) o s ∧ BranchRun (.bcs o) (getFlag .c s.regs.p) o s ∧
    BranchRun (.bne o) (!getFlag .z s.regs.p) o s ∧ BranchRun (.beq o) (getFlag .z s.regs.p) o s

/-- JMP absolute, with its encoding, and JMP indirect: the pointer's low byte is read first, its high byte from the same page;
both jumps change nothing but PC, the cycle count and what those two reads change. -/
def Obligations.JumpsLoadPC : Prop :=
  ∀ (a p : Addr) (s : State) (rest : List Byte),
    decode (0x4C :: lo a :: hi a :: rest) = .ok (.jmpAbs a, rest) ∧
    JumpRun (.jmpAbs a) 3 { s.regs with pc := a } s ∧
    decode (0x6C :: lo p :: hi p :: rest) = .ok (.jmpInd p, rest) ∧
    ∃ q : Addr, q.toNat = p.toNat / 256 * 256 + (p.toNat + 1) % 256 ∧
      exec (.jmpInd p) s = .next { (busRead q (busRead p s).st).st with
        regs := { s.regs with pc := w16 (busRead p s).val (busRead q (busRead p s).st).val }
        cpu := chargedCpu 5 s } ∧
      ReadEffect s (busRead q (busRead p s).st).st

/-- JSR pushes the address of its own third byte, high byte first, and jumps; RTS pulls the low byte, then the high byte, and
goes on one past that address. The last-bus byte ends as the last byte pushed or pulled. The stack order is a parameter
(decision D2). -/
def Obligations.JsrAndRts : Prop :=
  ∀ (a : Addr) (s : State),
    (Memory.wf 2048 s.bus.ram = true → ∃ t,
      exec (.jsr a) s = .next t ∧ Pushes [hi (s.regs.pc - 1), lo (s.regs.pc - 1)] 6 s t ∧
        t.regs = { s.regs with pc := a, sp := s.regs.sp - 2 } ∧ t.bus.lastBus = lo (s.regs.pc - 1)) ∧
    ∃ t, exec .rts s = .next t ∧ Pulls 2 6 s t ∧
      t.regs = { s.regs with pc := w16 (pulledByte s 0) (pulledByte s 1) + 1, sp := s.regs.sp + 2 } ∧
      t.bus.lastBus = pulledByte s 1

/-- BRK skips a byte, pushes PC and P with bits 5 and 4 set, sets I and goes to the vector at $FFFE; no other flag or register
changes, and I does not mask it. The return address is decision D5. -/
def Obligations.BrkEntersHandler : Prop :=
  ∀ s : State, Memory.wf 2048 s.bus.ram = true → ∃ t,
    exec .brk s = .next t ∧ Pushes [hi (s.regs.pc + 1), lo (s.regs.pc + 1), s.regs.p ||| 0x30] 7 s t ∧
      t.regs = { s.regs with pc := vectorWord 0xFFFE s, sp := s.regs.sp - 3, p := setFlag .i true s.regs.p } ∧
      t.bus.lastBus = prgByte 0xFFFF s

/-- RTI, with its encoding, pulls P (bit 5 forced set, bit 4 forced clear, every other flag as pulled), then PC low byte first,
and resumes there; the last-bus byte ends as the last byte pulled. The stack order is a parameter (decision D2). -/
def Obligations.RtiRestoresStatusAndPC : Prop :=
  ∀ (s : State) (rest : List Byte), decode (0x40 :: rest) = .ok (.rti, rest) ∧ ∃ t,
    exec .rti s = .next t ∧ Pulls 3 6 s t ∧
      t.regs = { s.regs with pc := w16 (pulledByte s 1) (pulledByte s 2), sp := s.regs.sp + 3, p := t.regs.p } ∧
      t.bus.lastBus = pulledByte s 2 ∧
      getFlag .u t.regs.p = true ∧ getFlag .b t.regs.p = false ∧
      ∀ f, f ≠ .u → f ≠ .b → getFlag f t.regs.p = getFlag f (pulledByte s 0)

/-! ### Interrupts (spec/60_exceptions.md) -/

/-- The interrupt sequence of NMI, IRQ and BRK: PC high, PC low and the image of P are pushed, I is set, PC comes from the
vector low byte first; A, X, Y and every other flag stay, and nothing else changes. The stack order is a parameter (decision
D2). -/
def Obligations.InterruptSequence : Prop :=
  ∀ (vector : Addr) (brk : Bool) (s : State), (vector = 0xFFFA ∨ vector = 0xFFFE) → Memory.wf 2048 s.bus.ram = true →
    let t := interrupt vector brk s
    Pushes [hi s.regs.pc, lo s.regs.pc, if brk then s.regs.p ||| 0x30 else (s.regs.p ||| 0x20) &&& 0xEF] 0 s t ∧
      t.regs = { s.regs with pc := vectorWord vector s, sp := s.regs.sp - 3, p := t.regs.p } ∧
      getFlag .i t.regs.p = true ∧ (∀ f, f ≠ .i → getFlag f t.regs.p = getFlag f s.regs.p) ∧
      t.bus.lastBus = prgByte (vector + 1) s

/-- NMI service consumes the latch, IRQ service leaves the line and is masked by the I it sets; both push P as it is and take
seven cycles. Where the interrupts are sampled is decision D35. -/
def Obligations.InterruptServiceConsumesNmiOnly : Prop :=
  ∀ s : State, s.cpu.stall = 0 → Memory.wf 2048 s.bus.ram = true → s.regs.pOk →
    (s.cpu.nmiPending = true → ∃ t, cpuStep s = .next t ∧
      Pushes [hi s.regs.pc, lo s.regs.pc, s.regs.p] 7 { s with cpu.nmiPending := false } t ∧
      t.regs.pc = vectorWord 0xFFFA s ∧ t.cpu.nmiPending = false ∧ t.cpu.irqLine = s.cpu.irqLine) ∧
    (s.cpu.nmiPending = false → s.cpu.irqLine = true → getFlag .i s.regs.p = false → ∃ t, cpuStep s = .next t ∧
      Pushes [hi s.regs.pc, lo s.regs.pc, s.regs.p] 7 s t ∧
      t.regs.pc = vectorWord 0xFFFE s ∧ t.cpu.irqLine = true ∧ irqTaken t = false)

/-- RTI right after an interrupt sequence gives back every register, under either stack order. -/
def Obligations.RtiUndoesInterrupt : Prop :=
  ∀ (vector : Addr) (brk : Bool) (s t : State), (vector = 0xFFFA ∨ vector = 0xFFFE) → Memory.wf 2048 s.bus.ram = true →
    s.regs.pOk → exec .rti (interrupt vector brk s) = .next t → t.regs = s.regs

/-! ### Stack, flags, no operation (spec/44_stack_flags_nop.md) -/

/-- PHA, PLA, PHP and PLP, with their encodings: what is pushed and what is pulled, the flags, and the last-bus byte, which
ends as the byte pushed or pulled. Where the bytes lie rests on the stack order, a parameter (decision D2, log entries 1 and
25). -/
def Obligations.StackInstructions : Prop :=
  ∀ (s : State) (rest : List Byte), Memory.wf 2048 s.bus.ram = true →
    decode (0x48 :: rest) = .ok (.pha, rest) ∧
    (∃ t, exec .pha s = .next t ∧ Pushes [s.regs.a] 3 s t ∧ t.regs = { s.regs with sp := s.regs.sp - 1 } ∧
      t.bus.lastBus = s.regs.a) ∧
    decode (0x08 :: rest) = .ok (.php, rest) ∧
    (∃ t, exec .php s = .next t ∧ Pushes [s.regs.p ||| 0x30] 3 s t ∧ t.regs = { s.regs with sp := s.regs.sp - 1 } ∧
      t.bus.lastBus = s.regs.p ||| 0x30) ∧
    decode (0x68 :: rest) = .ok (.pla, rest) ∧
    (∃ t, exec .pla s = .next t ∧ Pulls 1 4 s t ∧
      t.regs = setNZ (pulledByte s 0) { s.regs with a := pulledByte s 0, sp := s.regs.sp + 1 } ∧
      t.bus.lastBus = pulledByte s 0) ∧
    decode (0x28 :: rest) = .ok (.plp, rest) ∧
    ∃ t, exec .plp s = .next t ∧ Pulls 1 4 s t ∧ t.regs = { s.regs with sp := s.regs.sp + 1, p := t.regs.p } ∧
      t.bus.lastBus = pulledByte s 0 ∧ getFlag .u t.regs.p = true ∧ getFlag .b t.regs.p = false ∧
      ∀ f, f ≠ .u → f ≠ .b → getFlag f t.regs.p = getFlag f (pulledByte s 0)

/-- What is pushed comes back, under either stack order: RTS after JSR returns to the instruction after the JSR, PHP then PLP
restores P exactly, PHA then PLA restores A; SP is as it was each time. The stack order is a parameter (decision D2). -/
def Obligations.PullsUndoPushes : Prop :=
  ∀ (a : Addr) (s t u : State), Memory.wf 2048 s.bus.ram = true →
    (exec (.jsr a) s = .next t → exec .rts t = .next u → u.regs = s.regs) ∧
    (s.regs.pOk → exec .php s = .next t → exec .plp t = .next u → u.regs = s.regs) ∧
    (exec .pha s = .next t → exec .pla t = .next u → u.regs = setNZ s.regs.a s.regs)

/-- The seven flag instructions and NOP, with their encodings: two cycles, one flag takes one value (none for NOP), nothing else
changes. -/
def Obligations.FlagInstructionsSetOneFlag : Prop :=
  ∀ (s : State) (rest : List Byte),
    decode (0x18 :: rest) = .ok (.clc, rest) ∧ RegRun .clc 2 (fun r => { r with p := setFlag .c false r.p }) s ∧
    decode (0x38 :: rest) = .ok (.sec, rest) ∧ RegRun .sec 2 (fun r => { r with p := setFlag .c true r.p }) s ∧
    decode (0x58 :: rest) = .ok (.cli, rest) ∧ RegRun .cli 2 (fun r => { r with p := setFlag .i false r.p }) s ∧
    decode (0x78 :: rest) = .ok (.sei, rest) ∧ RegRun .sei 2 (fun r => { r with p := setFlag .i true r.p }) s ∧
    decode (0xB8 :: rest) = .ok (.clv, rest) ∧ RegRun .clv 2 (fun r => { r with p := setFlag .v false r.p }) s ∧
    decode (0xD8 :: rest) = .ok (.cld, rest) ∧ RegRun .cld 2 (fun r => { r with p := setFlag .d false r.p }) s ∧
    decode (0xF8 :: rest) = .ok (.sed, rest) ∧ RegRun .sed 2 (fun r => { r with p := setFlag .d true r.p }) s ∧
    decode (0xEA :: rest) = .ok (.nop, rest) ∧ RegRun .nop 2 (fun r => r) s

/-! ### Unofficial immediate forms and unknown opcodes (spec/45_unofficial.md) -/

/-- ANC (both bytes), ALR, ARR, SBX, USBC; XAA and LXA for every value of their constants; LAS in its one form. The constants of
XAA and LXA are free values (log entry 2). The flags of ARR are decision D31. -/
def Obligations.UnofficialImmediatesAndLas : Prop :=
  ∀ (v : Byte) (a : Addr) (s : State),
    let anc := fun r : Regs => setNZ (r.a &&& v) { r with a := r.a &&& v, p := setFlag .c ((r.a &&& v).getLsbD 7) r.p }
    RegRun (.anc v) 2 anc s ∧ RegRun (.anc2B v) 2 anc s ∧
    RegRun (.alr v) 2 (fun r =>
      setNZ ((r.a &&& v) >>> 1) { r with a := (r.a &&& v) >>> 1, p := setFlag .c ((r.a &&& v).getLsbD 0) r.p }) s ∧
    RegRun (.arr v) 2 (fun r =>
      let t := ((r.a &&& v) >>> 1) ||| (if getFlag .c r.p then 0x80 else 0)
      setNZ t { r with
        a := t
        p := setFlag .v (t.getLsbD 6 ^^ t.getLsbD 5) (setFlag .c (t.getLsbD 6) r.p) }) s ∧
    RegRun (.sbx v) 2 (fun r => { compareRegs (r.a &&& r.x) v r with x := (r.a &&& r.x) - v }) s ∧
    RegRun (.usbc v) 2 (adcCore (v ^^^ 0xFF)) s ∧
    RegRun (.xaa v) 2 (fun r =>
      let t := (r.a ||| Config.xaaMagic) &&& r.x &&& v
      setNZ t { r with a := t }) s ∧
    RegRun (.lxa v) 2 (fun r =>
      let t := (r.a ||| Config.lxaMagic) &&& v
      setNZ t { r with a := t, x := t }) s ∧
    ReadRun (.las a) (.aby a) (fun b r => setNZ (b &&& r.sp) { r with a := b &&& r.sp, x := b &&& r.sp, sp := b &&& r.sp }) s

/-- An unknown opcode takes two cycles and changes nothing; PC passes the opcode's `UNKNOWN_OPERAND_BYTES`, which is 0 for every
opcode by default (log entry 9). The default length is decision D3; what a nonzero parameter does is log entry 9. -/
def Obligations.UnknownOpcodesDoNothing : Prop :=
  ∀ (op : Byte) (s : State),
    RegRun (.unk op) 2 (fun r => { r with pc := r.pc + BitVec.ofNat 16 (unknownOperandBytes s.cfg op) }) s ∧
      unknownOperandBytes Params.default op = 0

/-! ### The CPU bus (spec/20_memory.md) -/

/-- RAM: writing a byte at any RAM address and reading at any mirror of it gives the byte, and every other RAM address reads as
before; a read changes the last-bus byte only. -/
def Obligations.RamReadAfterWrite : Prop :=
  ∀ (a b : Addr) (v : Byte) (s : State), a.toNat < 0x2000 → b.toNat < 0x2000 → Memory.wf 2048 s.bus.ram = true →
    (busRead b (busWrite a v s)).val =
        (if a.toNat % 2048 = b.toNat % 2048 then v else (busRead b s).val) ∧
      (busRead b s).st = s.setLastBus (busRead b s).val

/-- PRG: a read at $8000 or above gives the PRG byte at that offset modulo its size, 16 KiB appear twice, and writes there are
ignored. -/
def Obligations.PrgReadsWrapAndWritesIgnored : Prop :=
  ∀ (a : Addr) (v : Byte) (s : State), 0x8000 ≤ a.toNat →
    let size := if s.cart.prgSize = .kib16 then 16384 else 32768
    busRead a s = ⟨readCell s.cart.prg ((a.toNat - 0x8000) % size),
        s.setLastBus (readCell s.cart.prg ((a.toNat - 0x8000) % size))⟩ ∧
      busWrite a v s = s.setLastBus v ∧
      (s.cart.prgSize = .kib16 → a.toNat < 0xC000 → (busRead (a + 0x4000) s).val = (busRead a s).val)

/-- After a read the last-bus byte is the byte returned, after a write that is no OAM DMA the byte written; the placeholder
ranges, the unmapped range and the ports without a read rule read as it; $4017 reads as $40; writes to all these are ignored but
for the last-bus byte. What placeholder, unmapped and write-only reads give is decisions D12, D13 (log entry 10). -/
def Obligations.LastBusAndOpenBusReads : Prop :=
  ∀ (a : Addr) (v : Byte) (s : State),
    (busRead a s).st.bus.lastBus = (busRead a s).val ∧ (a ≠ 0x4014 → (busWrite a v s).bus.lastBus = v) ∧
    (busRead 0x4017 s = ⟨0x40, s.setLastBus 0x40⟩ ∧ busWrite 0x4017 v s = s.setLastBus v) ∧
    (0x4000 ≤ a.toNat → a.toNat < 0x8000 → a ≠ 0x4016 → a ≠ 0x4017 →
      busRead a s = ⟨s.bus.lastBus, s⟩ ∧ (a ≠ 0x4014 → busWrite a v s = s.setLastBus v)) ∧
    (0x2000 ≤ a.toNat → a.toNat < 0x4000 →
      (a.toNat % 8 = 0 ∨ a.toNat % 8 = 1 ∨ a.toNat % 8 = 3 ∨ a.toNat % 8 = 5 ∨ a.toNat % 8 = 6 →
        busRead a s = ⟨s.bus.lastBus, s⟩) ∧
      (a.toNat % 8 = 2 → busWrite a v s = s.setLastBus v))

/-- The controller: a write takes the strobe from bit 0, and the fall of strobe takes the controller byte into the shift register;
a read with strobe high gives the controller byte's bit 0, a read with strobe low the shift register's bit 0, which then shifts
a 1 in at bit 7. So after a rise and a fall of strobe the controller byte's bits come out one a read, bit 0 first, and 1 from the
ninth on. -/
def Obligations.ControllerShiftsOutSnapshot : Prop :=
  ∀ (s : State) (v v1 v0 : Byte), v1.getLsbD 0 = true → v0.getLsbD 0 = false →
    let low := busWrite 0x4016 v0 (busWrite 0x4016 v1 s)
    busWrite 0x4016 v s = { s.setLastBus v with
        bus := { (s.setLastBus v).bus with
          strobe := v.getLsbD 0
          shift := if s.bus.strobe = true ∧ v.getLsbD 0 = false then s.bus.controllerByte else s.bus.shift } } ∧
      (s.bus.strobe = true → ∃ b, busRead 0x4016 s = ⟨b, s.setLastBus b⟩ ∧
        b = if s.bus.controllerByte.getLsbD 0 then 0x41 else 0x40) ∧
      (s.bus.strobe = false → ∃ b n, busRead 0x4016 s = ⟨b, { s.setLastBus b with bus := { (s.setLastBus b).bus with shift := n } }⟩ ∧
        (b = if s.bus.shift.getLsbD 0 then 0x41 else 0x40) ∧
        ∀ k, k < 8 → n.getLsbD k = (s.bus.shift.getLsbD (k + 1) || k == 7)) ∧
      (∀ k, (busRead 0x4016 (Nat.repeat (fun u => (busRead 0x4016 u).st) k low)).val =
        if k < 8 then 0x40 ||| (if s.bus.controllerByte.getLsbD k then 1 else 0) else 0x41) ∧
      ∀ k, 8 ≤ k → (Nat.repeat (fun u => (busRead 0x4016 u).st) k low).bus.shift = 0xFF

/-- OAM DMA from any page, by the store that triggers it. The 256 source bytes are read one after the other, each by an ordinary
bus read in the state the reads and copies before it leave (`u i`), side effects included, and each lands at the OAM address
plus its number; so after it the last-bus byte is the last byte read. The OAM address is left as it was, the stall grows by 513
and the parity of the cycle counter before the step's own count, and beside OAM nothing changes but what bus reads change. From a
page that stores bytes the bytes copied are those stored before the instruction, and only the last-bus byte changes beside. The
read path and the parity are decisions D9 and D8. -/
def Obligations.OamDmaCopiesPageAndStalls : Prop :=
  ∀ s : State, Memory.wf 256 s.ppu.oam = true →
    let source := fun i : Nat => (BitVec.ofNat 16 (s.regs.a.toNat * 256 + i) : Addr)
    let cpu := { chargedCpu 4 s with stall := s.cpu.stall + 513 + s.cpu.cycles.toNat % 2 }
    ∃ (t : State) (u : Nat → State), exec (.sta (.abs 0x4014)) s = .next t ∧
      u 0 = s.setLastBus s.regs.a ∧
      (∀ i, i < 256 →
        u (i + 1) = { (busRead (source i) (u i)).st with ppu.oam := (u (i + 1)).ppu.oam } ∧
          ∀ c, readCell (u (i + 1)).ppu.oam c =
            if c = (s.ppu.oamAddr.toNat + i) % 256 then (busRead (source i) (u i)).val else readCell (u i).ppu.oam c) ∧
      t = { u 256 with cpu := cpu } ∧
      ReadEffect { s with cpu := cpu, ppu.oam := t.ppu.oam } t ∧
      (s.regs.a.toNat < 0x20 ∨ 0x80 ≤ s.regs.a.toNat →
        (∀ i, i < 256 →
          storedByte (source i) s = some (readCell t.ppu.oam ((s.ppu.oamAddr.toNat + i) % 256))) ∧
        t = { s with cpu := cpu, bus.lastBus := t.bus.lastBus, ppu.oam := t.ppu.oam } ∧
        storedByte (source 255) s = some t.bus.lastBus)

/-! ### The PPU port and bus (spec/47_ppu_port.md, spec/20_memory.md R68 to R71) -/

/-- Port 0 at any of its addresses: the byte is stored and latched, its bits 1:0 go to bits 11:10 of t, and the NMI is raised
exactly when bit 7 rises while the vblank bit is set. Nothing else changes. That the NMI counter counts each raise is decision
D28. -/
def Obligations.ControlPortWrite : Prop :=
  ∀ (a : Addr) (v : Byte) (s : State), 0x2000 ≤ a.toNat → a.toNat < 0x4000 → a.toNat % 8 = 0 →
    let t := busWrite a v s
    let raises := s.ppu.ctrl.getLsbD 7 = false ∧ v.getLsbD 7 = true ∧ s.ppu.status.getLsbD 7 = true
    t = { s.setLastBus v with
          cpu := t.cpu
          ppu := { s.ppu with ctrl := v, renderCtrlNext := v, t := t.ppu.t } } ∧
      (∀ k, t.ppu.t.getLsbD k = if k = 10 then v.getLsbD 0 else if k = 11 then v.getLsbD 1 else s.ppu.t.getLsbD k) ∧
      (raises → t.cpu = { s.cpu with nmiPending := true, nmiCount := s.cpu.nmiCount + 1 }) ∧
      (¬ raises → t.cpu = s.cpu)

/-- Ports 1, 3 and 5: mask and OAM address are stored; the first scroll write sets fine x, coarse x and the next x scroll, the
second fine y, coarse y and the next y scroll, and w tells them apart. -/
def Obligations.MaskOamAddressAndScrollPorts : Prop :=
  ∀ (a : Addr) (v : Byte) (s : State), 0x2000 ≤ a.toNat → a.toNat < 0x4000 →
    let t := busWrite a v s
    (a.toNat % 8 = 1 → t = { s.setLastBus v with ppu.mask := v }) ∧
    (a.toNat % 8 = 3 → t = { s.setLastBus v with ppu.oamAddr := v }) ∧
    (a.toNat % 8 = 5 → s.ppu.w = false →
      t = { s.setLastBus v with
            ppu := { s.ppu with fineX := t.ppu.fineX, t := t.ppu.t, nextX := v, w := true } } ∧
        t.ppu.fineX.toNat = v.toNat % 8 ∧ t.ppu.t.toNat = s.ppu.t.toNat / 32 * 32 + v.toNat / 8) ∧
    (a.toNat % 8 = 5 → s.ppu.w = true →
      t = { s.setLastBus v with ppu := { s.ppu with t := t.ppu.t, nextY := v, w := false } } ∧
        t.ppu.t.toNat = v.toNat % 8 * 4096 + s.ppu.t.toNat / 1024 % 4 * 1024 + v.toNat / 8 * 32 + s.ppu.t.toNat % 32)

/-- Port 6: two writes set v and t to the 14-bit address, high byte first, and nothing else. Each write alone, whatever set the
toggle before it, for ports 5 and 6 share it: with w clear it replaces bits 14:8 of t by six bits of the byte and sets w, with
w set it replaces bits 7:0 of t, copies t to v and clears w. Port 7: a read below $3F00 gives the old buffer and reloads it, a
palette read is immediate and loads the nametable byte underneath; a write goes to the PPU bus and leaves the buffer; each
advances v by 1 or, with ctrl bit 2, by 32, modulo $8000. That v wraps at $8000 and that the first port-6 write clears bit 14
is decision D14. -/
def Obligations.AddressAndDataPorts : Prop :=
  ∀ (a b : Addr) (v l : Byte) (s : State), 0x2000 ≤ a.toNat → a.toNat < 0x4000 → 0x2000 ≤ b.toNat → b.toNat < 0x4000 →
    (a.toNat % 8 = 6 → b.toNat % 8 = 6 → s.ppu.w = false →
      let t := busWrite b l (busWrite a v s)
      t = { s.setLastBus l with ppu := { s.ppu with t := t.ppu.t, v := t.ppu.t } } ∧
        t.ppu.t.toNat = v.toNat % 64 * 256 + l.toNat ∧ (busWrite a v s).ppu.v = s.ppu.v ∧ (busWrite a v s).ppu.w = true) ∧
    (a.toNat % 8 = 6 → s.ppu.w = false →
      let t := busWrite a v s
      t = { s.setLastBus v with ppu := { s.ppu with t := t.ppu.t, w := true } } ∧
        t.ppu.t.toNat = v.toNat % 64 * 256 + s.ppu.t.toNat % 256) ∧
    (a.toNat % 8 = 6 → s.ppu.w = true →
      let t := busWrite a v s
      t = { s.setLastBus v with ppu := { s.ppu with t := t.ppu.t, v := t.ppu.t, w := false } } ∧
        t.ppu.t.toNat = s.ppu.t.toNat / 256 * 256 + v.toNat) ∧
    (a.toNat % 8 = 7 →
      let p : PpuAddr := BitVec.ofNat 14 s.ppu.v.toNat
      let r := busRead a s
      let t := busWrite a v s
      let next := (s.ppu.v.toNat + (if s.ppu.ctrl.getLsbD 2 then 32 else 1)) % 0x8000
      r.st = { s.setLastBus r.val with ppu := { s.ppu with readBuffer := r.st.ppu.readBuffer, v := r.st.ppu.v } } ∧
        r.st.ppu.v.toNat = next ∧
        (p.toNat < 0x3F00 → r.val = s.ppu.readBuffer ∧ r.st.ppu.readBuffer = ppuRead p s) ∧
        (0x3F00 ≤ p.toNat → r.val = ppuRead p s ∧ r.st.ppu.readBuffer = ppuRead (p - 0x1000) s) ∧
        t = { ppuWrite p v (s.setLastBus v) with ppu := { (ppuWrite p v s).ppu with v := t.ppu.v } } ∧
        t.ppu.v.toNat = next ∧ t.ppu.readBuffer = s.ppu.readBuffer)

/-- Port 2 read: the status is returned, then the vblank bit and w are cleared and nothing else, sprite-0 hit and overflow
included; port 4: a write stores at the OAM address and moves it on, a read gives that byte and does not. Whole OAM bytes are
decision D37. -/
def Obligations.StatusAndOamDataPorts : Prop :=
  ∀ (a : Addr) (v : Byte) (s : State), 0x2000 ≤ a.toNat → a.toNat < 0x4000 → Memory.wf 256 s.ppu.oam = true →
    (a.toNat % 8 = 2 →
      busRead a s = ⟨s.ppu.status,
        { s.setLastBus s.ppu.status with
          ppu := { s.ppu with status := (busRead a s).st.ppu.status, w := false } }⟩ ∧
        ∀ k, (busRead a s).st.ppu.status.getLsbD k = (s.ppu.status.getLsbD k && k != 7)) ∧
    (a.toNat % 8 = 4 →
      (∃ b, busRead a s = ⟨b, s.setLastBus b⟩ ∧ b = readCell s.ppu.oam s.ppu.oamAddr.toNat) ∧
        busWrite a v s = { s.setLastBus v with
          ppu := { s.ppu with oam := (busWrite a v s).ppu.oam, oamAddr := s.ppu.oamAddr + 1 } } ∧
        ∀ i, readCell (busWrite a v s).ppu.oam i =
          if i = s.ppu.oamAddr.toNat then v else readCell s.ppu.oam i)

/-- The PPU bus: a byte written reads back (six bits of it in the palette; not at all in CHR that is not writable), at exactly
the addresses that name the same cell; which nametable addresses those are under each mirroring, and the four palette aliases.
The four-screen mapping is decision D25. That a palette read gives six bits, in a window that repeats every 32 bytes, is
decision D36. -/
def Obligations.PpuBusReadAfterWrite : Prop :=
  ∀ (a b : PpuAddr) (v : Byte) (s : State), s.memoriesOk →
    (a.toNat < 0x2000 → ppuRead b (ppuWrite a v s) = if b = a ∧ s.cart.chrWritable = true then v else ppuRead b s) ∧
    (0x2000 ≤ a.toNat → a.toNat < 0x3F00 →
      let o := (a.toNat - 0x2000) % 0x1000
      vramIndex .horizontal a = (if o < 0x800 then 0 else 0x400) + o % 0x400 ∧
      vramIndex .vertical a = (if o / 0x400 = 1 ∨ o / 0x400 = 3 then 0x400 else 0) + o % 0x400 ∧
      vramIndex .fourScreen a = vramIndex .vertical a ∧
      ppuRead b (ppuWrite a v s) =
        if 0x2000 ≤ b.toNat ∧ b.toNat < 0x3F00 ∧ vramIndex s.cart.mirroring b = vramIndex s.cart.mirroring a then v
        else ppuRead b s) ∧
    (0x3F00 ≤ a.toNat → ppuRead b (ppuWrite a v s) =
      if 0x3F00 ≤ b.toNat ∧
          (a.toNat % 32 = b.toNat % 32 ∨ (a.toNat % 16 = b.toNat % 16 ∧ a.toNat % 4 = 0)) then v &&& 0x3F
      else ppuRead b s)

/-! ### The PPU machine (spec/48_ppu_machine.md) -/

/-- A tick moves the position one dot on, at dot 341 to the next line, at line 261 to line −1. -/
def Obligations.TickAdvancesPosition : Prop :=
  ∀ s : State,
    ((tick s).ppu.dot = if s.ppu.dot = 340 then 0 else s.ppu.dot + 1) ∧
      (tick s).ppu.scanline =
        if s.ppu.dot = 340 then (if s.ppu.scanline = 260 then -1 else s.ppu.scanline + 1) else s.ppu.scanline

/-- A tick changes no CPU, bus or cartridge state but by raising the NMI, which it does at (241, 1) with ctrl bit 7 set and
nowhere else; and it writes no PPU memory or port register. That the NMI counter counts each raise is decision D28. -/
def Obligations.TickLeavesCpuAlone : Prop :=
  ∀ s : State,
    tick s = { s with cpu := (tick s).cpu, ppu := (tick s).ppu } ∧
      ((tick s).cpu = if s.ppu.scanline = 241 ∧ s.ppu.dot = 1 ∧ s.ppu.ctrl.getLsbD 7 = true then
        { s.cpu with nmiPending := true, nmiCount := s.cpu.nmiCount + 1 } else s.cpu) ∧
      (tick s).ppu = { s.ppu with
        status := (tick s).ppu.status
        activeX := (tick s).ppu.activeX
        activeY := (tick s).ppu.activeY
        renderCtrl := (tick s).ppu.renderCtrl
        scanline := (tick s).ppu.scanline
        dot := (tick s).ppu.dot
        frameReady := (tick s).ppu.frameReady
        line := (tick s).ppu.line
        framebuffer := (tick s).ppu.framebuffer }

/-- The scroll and control latches are taken at (−1, 0), and the horizontal ones at dot 257 of a visible line; at no other
position do they change. -/
def Obligations.LatchPoints : Prop :=
  ∀ s : State,
    (s.ppu.scanline = -1 → s.ppu.dot = 0 →
      (tick s).ppu = { s.ppu with
        activeX := s.ppu.nextX, activeY := s.ppu.nextY, renderCtrl := s.ppu.renderCtrlNext, dot := 1 }) ∧
    (0 ≤ s.ppu.scanline → s.ppu.scanline ≤ 239 → s.ppu.dot = 257 →
      (tick s).ppu = { s.ppu with activeX := s.ppu.nextX, renderCtrl := s.ppu.renderCtrlNext, dot := 258 }) ∧
    (¬ (s.ppu.scanline = -1 ∧ s.ppu.dot = 0) →
      (tick s).ppu.activeY = s.ppu.activeY ∧
      (¬ (0 ≤ s.ppu.scanline ∧ s.ppu.scanline ≤ 239 ∧ s.ppu.dot = 257) →
        (tick s).ppu.activeX = s.ppu.activeX ∧ (tick s).ppu.renderCtrl = s.ppu.renderCtrl))

/-- At (241, 1) the vblank bit and the frame-ready flag are set, and the NMI is raised if ctrl bit 7 is set; at (−1, 1) the
vblank and sprite-0 bits are cleared, and the overflow bit only where the parameter says so. The overflow bit's stay is
decision D24, a parameter. That the NMI counter counts each raise is decision D28. -/
def Obligations.VblankStartAndPrerenderClear : Prop :=
  ∀ s : State, s.ppu.dot = 1 →
    (s.ppu.scanline = 241 →
      tick s = { s with
        cpu := if s.ppu.ctrl.getLsbD 7 then { s.cpu with nmiPending := true, nmiCount := s.cpu.nmiCount + 1 } else s.cpu
        ppu := { s.ppu with status := (tick s).ppu.status, frameReady := true, dot := 2 } } ∧
      ∀ k, (tick s).ppu.status.getLsbD k = (s.ppu.status.getLsbD k || k == 7)) ∧
    (s.ppu.scanline = -1 → s.ppu.statusOk →
      tick s = { s with ppu := { s.ppu with status := (tick s).ppu.status, dot := 2 } } ∧
        (tick s).ppu.status.getLsbD 7 = false ∧ (tick s).ppu.status.getLsbD 6 = false ∧
        (tick s).ppu.status.getLsbD 5 = (s.ppu.status.getLsbD 5 && !s.cfg.clearOverflowAtPrerender) ∧
        (tick s).ppu.statusOk)

/-- Sprite evaluation at dot 0 of a visible line: the cached sprites are the first eight, by OAM index, whose rows cover the
line, with their four bytes; the overflow bit is set exactly when more than eight cover it, or was set. The half-open range is
decision D19, the latched height decision D17. Evaluation whatever the mask
holds is decision D22. -/
def Obligations.SpriteEvaluationCachesFirstEight : Prop :=
  ∀ s : State, 0 ≤ s.ppu.scanline → s.ppu.scanline ≤ 239 → s.ppu.dot = 0 →
    let h : Int := if s.ppu.renderCtrl.getLsbD 5 then 16 else 8
    let covers := fun i : Nat =>
      ((readCell s.ppu.oam (4 * i)).toNat : Int) + 1 ≤ s.ppu.scanline ∧
        s.ppu.scanline < ((readCell s.ppu.oam (4 * i)).toNat : Int) + 1 + h
    let found := (List.range 64).filter fun i => decide (covers i)
    let t := tick s
    t.ppu.line.length = min 8 found.length ∧
      (∀ (k : Nat) (e : SpriteEntry), t.ppu.line[k]? = some e →
        found[k]? = some e.index ∧ e.y = readCell s.ppu.oam (4 * e.index) ∧ e.tile = readCell s.ppu.oam (4 * e.index + 1) ∧
          e.attr = readCell s.ppu.oam (4 * e.index + 2) ∧ e.x = readCell s.ppu.oam (4 * e.index + 3)) ∧
      ∀ k, t.ppu.status.getLsbD k = (s.ppu.status.getLsbD k || (k == 5 && decide (8 < found.length)))

/-- At dot 0 of a visible line all 256 framebuffer words of that line become the table's words of their pixels' colours, as they
are with the line's sprites cached, and no other word changes. That a line is rendered whatever the mask is decision D22. -/
def Obligations.ScanlineRendersAtDotZero : Prop :=
  ∀ (s : State) (line : Nat), s.ppu.scanline = line → line < 240 → s.ppu.dot = 0 →
    (∀ x, x < 256 →
      framebufferWord x line (tick s) = Config.rgbTable (pixelColour x line (evaluateSprites line s))) ∧
      ∀ x y, y ≠ line → framebufferWord x y (tick s) = framebufferWord x y s

/-- A pixel, whole. The background's pixel is (0, 0) where its source is off or masked in the left eight pixels, and what R345
fetches elsewhere; the sprite's is that of the first cached sprite whose eight columns reach x with an opaque pattern pixel, if
its source is neither off nor masked there, and takes its palette from bits 1:0 and its priority from bit 5 of the attribute
byte (1 is behind); the pattern pixel of a sprite that covers the pixel is what R356 samples. Both transparent give palette
entry 0; an opaque sprite in front, or over a transparent background, gives its palette entry, an opaque background the other.
That a source that is off is transparent is decision D22; the latched control fields are D17, the background's addresses D21,
the sprite's addresses, flips and palette bits D20, the mask bits D18. -/
def Obligations.PixelPriority : Prop :=
  ∀ (x line : Nat) (s : State),
    let bg := bgPixel x line s
    let entry := fun i : Nat => (readCell s.ppu.palette (paletteIndex (BitVec.ofNat 14 (0x3F00 + i))))
    let bgOff := s.ppu.mask.getLsbD 3 = false ∨ (x < 8 ∧ s.ppu.mask.getLsbD 1 = false)
    let spritesOff := s.ppu.mask.getLsbD 4 = false ∨ (x < 8 ∧ s.ppu.mask.getLsbD 2 = false)
    let shows := fun e : SpriteEntry => e.x.toNat ≤ x ∧ x < e.x.toNat + 8 ∧ spritePatternPixel e x line s ≠ 0
    (bgOff → bg = ⟨0, 0⟩) ∧
    (¬ bgOff → BackgroundFetched x line s bg) ∧
    (∀ e : SpriteEntry, SpriteCovers e x line s → SpriteSampled e x line s (spritePatternPixel e x line s)) ∧
    (spritesOff → spritePixel x line s = none) ∧
    (∀ p, spritePixel x line s = some p ↔ ¬ spritesOff ∧ ∃ before e after, s.ppu.line = before ++ e :: after ∧
      (∀ e' ∈ before, ¬ shows e') ∧ shows e ∧
        p = ⟨spritePatternPixel e x line s, e.attr.toNat % 4, e.attr.getLsbD 5, decide (e.index = 0)⟩) ∧
    (spritePixel x line s = none → bg.px = 0 → pixelColour x line s = entry 0) ∧
    (spritePixel x line s = none → bg.px ≠ 0 → pixelColour x line s = entry (bg.pal * 4 + bg.px.toNat)) ∧
    ∀ p, spritePixel x line s = some p →
      p.px ≠ 0 ∧
      (bg.px = 0 ∨ p.behind = false → pixelColour x line s = entry (0x10 + p.pal * 4 + p.px.toNat)) ∧
      (bg.px ≠ 0 → p.behind = true → pixelColour x line s = entry (bg.pal * 4 + bg.px.toNat))

/-- Sprite 0 at dots 1 to 256 of a visible line: its hit bit is set exactly when both sources are on, the pixel is not masked
at the left edge, and sprite 0, read from OAM, covers the pixel with an opaque one (and the background is opaque too, where the
parameter asks for it), or was set; nothing else changes. Whether the background must be opaque is decision D23, a parameter.
The latched height and table select are decision D17. -/
def Obligations.SpriteZeroHit : Prop :=
  ∀ (s : State) (line x : Nat), s.ppu.scanline = line → line < 240 → s.ppu.dot = x + 1 → x < 256 →
    let e : SpriteEntry := ⟨0, readCell s.ppu.oam 0, readCell s.ppu.oam 1, readCell s.ppu.oam 2, readCell s.ppu.oam 3⟩
    let h := if s.ppu.renderCtrl.getLsbD 5 then 16 else 8
    let hit := s.ppu.mask.getLsbD 3 = true ∧ s.ppu.mask.getLsbD 4 = true ∧
      (8 ≤ x ∨ (s.ppu.mask.getLsbD 1 = true ∧ s.ppu.mask.getLsbD 2 = true)) ∧
      e.y.toNat + 1 ≤ line ∧ line < e.y.toNat + 1 + h ∧ e.x.toNat ≤ x ∧ x < e.x.toNat + 8 ∧
      spritePatternPixel e x line s ≠ 0 ∧ (s.cfg.s0RequireBgOpaque = true → (bgPixel x line s).px ≠ 0)
    tick s = { s with ppu := { s.ppu with status := (tick s).ppu.status, dot := x + 2 } } ∧
      (∀ k, k ≠ 6 → (tick s).ppu.status.getLsbD k = s.ppu.status.getLsbD k) ∧
      ((tick s).ppu.status.getLsbD 6 = true ↔ s.ppu.status.getLsbD 6 = true ∨ hit)

/-! ### Composition, reset, the host (spec/60_exceptions.md R415, R419, spec/70_reset_and_hazards.md) -/

/-- A system step is one CPU step and three PPU ticks for each cycle that step took; a step takes at least one. That a step of
the model is a system step is log entry 11, that the count is read off the cycle counter log entry 12. -/
def Obligations.SystemStepTicksThreePerCycle : Prop :=
  ∀ s : State, ∃ t, cpuStep s = .next t ∧ 1 ≤ returnedCycles s t ∧ step s = .next (ticks (3 * returnedCycles s t) t)

/-- With the position on its grid, 29781 system steps are enough for a frame: the frame driver answers true, with the
frame-ready flag set. That the driver clears the flag at entry and counts every system step is decision D27 (log entry 21). -/
def Obligations.FrameArrivesWithin29781Steps : Prop :=
  ∀ s : State, s.ppu.posOk → ∃ t, runUntilFrame 29781 s = .next (t, true) ∧ t.ppu.frameReady = true

/-- Reset: SP, P, the cycle counter, the latches and the stall counter get their values, PC and the last-bus byte come from the
reset vector, every PPU register and the position are cleared; A, X, Y, every memory, the controller and the framebuffer stay.
And `State.reset` is what `load` makes of the blank cartridge with the parameters' defaults and the power-on contents of log
entries 4 and 5; those contents and that cartridge are the model's choice. That reset pushes nothing and keeps A, X, Y is
decision D6. That it clears every PPU register and the position is decision D16 (log entry 7); that it clears the stall
counter, keeps RAM and the controller and ends the last-bus byte as it does is D7, that it keeps the NMI counter D28 (log entry
8). -/
def Obligations.ResetForcesRegistersKeepsMemories : Prop :=
  (∀ s : State,
    hostReset s = { s with
      regs := { s.regs with pc := vectorWord 0xFFFC s, sp := 0xFD, p := 0x24 }
      cpu := { s.cpu with cycles := 7, stall := 0, nmiPending := false, irqLine := false }
      bus := { s.bus with lastBus := prgByte 0xFFFD s }
      ppu := Ppu.cleared s.cfg s.ppu.oam s.ppu.vram s.ppu.palette s.ppu.framebuffer } ∧
    getFlag .i (hostReset s).regs.p = true) ∧
  load Cart.blank Params.default PowerOn.zero = State.reset ∧
  ∀ (cart : Cart) (init : PowerOn),
    let s := load cart Params.default init
    s.regs.pc = vectorWord 0xFFFC s ∧ s.regs.sp = 0xFD ∧ getFlag .i s.regs.p = true ∧ s.cpu.cycles = 7 ∧
      s.regs.a = init.a ∧ s.regs.x = init.x ∧ s.regs.y = init.y ∧ s.bus.ram = init.ram

/-- The host's operations between steps. The controller byte changes nothing else: reads of $4016 see it with strobe high, and the
next fall of strobe takes it; with strobe low a read is as before. The IRQ line changes nothing else, and where nothing comes
first the next step services it. The framebuffer has pixel (x, y) at index y · 256 + x. The frame driver clears the frame-ready
flag, then steps, and answers true at the first step that sets the flag, false when it has made all its steps. When the host
acts is decision D40 and the line's driver D38 (log entry 16), the framebuffer's index D26 (log entry 20), the driver D27 (log
entry 21). -/
def Obligations.HostOperations : Prop :=
  ∀ (s : State) (v w : Byte) (high : Bool),
    setController v s = { s with bus.controllerByte := v } ∧
    (s.bus.strobe = true → (busRead 0x4016 (setController v s)).val = if v.getLsbD 0 then 0x41 else 0x40) ∧
    (s.bus.strobe = true → w.getLsbD 0 = false → (busWrite 0x4016 w (setController v s)).bus.shift = v) ∧
    (s.bus.strobe = false →
      busRead 0x4016 (setController v s) = ⟨(busRead 0x4016 s).val, setController v (busRead 0x4016 s).st⟩) ∧
    setIrqLine high s = { s with cpu.irqLine := high } ∧
    (s.cpu.stall = 0 → s.cpu.nmiPending = false → getFlag .i s.regs.p = false →
      cpuStep (setIrqLine true s) = .next ((interrupt 0xFFFE false (setIrqLine true s)).charge 7) ∧
        cpuStep (setIrqLine false s) = runInstr (setIrqLine false s)) ∧
    (framebuffer s).length = 256 * 240 ∧
    (∀ x y, x < 256 → y < 240 → (framebuffer s)[y * 256 + x]? = some (framebufferWord x y s)) ∧
    ∃ u : Nat → State, u 0 = { s with ppu.frameReady := false } ∧ (∀ k, step (u k) = .next (u (k + 1))) ∧
      ∀ n,
        (∀ k, k < n → (∀ j, j < k → (u (j + 1)).ppu.frameReady = false) → (u (k + 1)).ppu.frameReady = true →
          runUntilFrame n s = .next (u (k + 1), true)) ∧
        ((∀ k, k < n → (u (k + 1)).ppu.frameReady = false) → runUntilFrame n s = .next (u n, false))
end

