-- ==== Sys2Proof/Laws/BitLaws.lean ====
section
/-! SUPPORT. The byte-order helpers in numbers (spec/00_scope.md section 4.1). -/

namespace Sys2Proof.Machine

@[simp] theorem lo_toNat (a : Addr) : (lo a).toNat = a.toNat % 256 := by
  simp [lo]

@[simp] theorem hi_toNat (a : Addr) : (hi a).toNat = a.toNat / 256 := by
  simp [hi, Nat.shiftRight_eq_div_pow]
  omega

@[simp] theorem w16_toNat (l h : Byte) : (w16 l h).toNat = h.toNat * 256 + l.toNat := by
  simp only [w16, BitVec.toNat_append]
  rw [← Nat.shiftLeft_add_eq_or_of_lt l.isLt, Nat.shiftLeft_eq]

@[simp] theorem lo_w16 (l h : Byte) : lo (w16 l h) = l := by
  apply BitVec.eq_of_toNat_eq
  have := l.isLt
  simp only [lo_toNat, w16_toNat]
  omega

@[simp] theorem hi_w16 (l h : Byte) : hi (w16 l h) = h := by
  apply BitVec.eq_of_toNat_eq
  have := l.isLt
  simp only [hi_toNat, w16_toNat]
  omega

@[simp] theorem w16_lo_hi (a : Addr) : w16 (lo a) (hi a) = a := by
  apply BitVec.eq_of_toNat_eq
  simp only [w16_toNat, hi_toNat, lo_toNat]
  omega

/-- Two addresses are in one page exactly when their high bytes agree. -/
theorem hi_eq_iff (a b : Addr) : hi a = hi b ↔ a.toNat / 256 = b.toNat / 256 := by
  rw [← hi_toNat, ← hi_toNat]
  exact BitVec.toNat_inj.symm

/-- R114: adding the sign-extended offset is adding the offset as an integer, modulo 65536. -/
theorem add_sext16 (a : Addr) (o : Byte) : a + sext16 o = BitVec.ofInt 16 (a.toNat + o.toInt) := by
  apply BitVec.eq_of_toInt_eq
  rw [BitVec.toInt_add, sext16, BitVec.toInt_signExtend_of_le (by decide), BitVec.toInt_ofInt]
  have h : a.toInt = (a.toNat : Int).bmod 65536 := BitVec.toInt_eq_toNat_bmod a
  rw [h]
  simp

end Sys2Proof.Machine
end

