-- ==== Sys2Proof/Laws/Cells.lean ====
section
/-! SUPPORT. Memories: what a read gives after a write, and that a write keeps the canonical form. -/

namespace Sys2Proof.Machine

variable {w : Nat}

@[simp] theorem cellsWfFrom_cons {size lowest k : Nat} {v : BitVec w} {rest : List (Nat × BitVec w)} :
    cellsWfFrom size lowest ((k, v) :: rest) = true ↔
      lowest ≤ k ∧ k < size ∧ v ≠ unlisted w ∧ cellsWfFrom size (k + 1) rest = true := by
  simp [cellsWfFrom, and_assoc]

/-- An address below every listed one reads as unlisted. -/
theorem readCell_below {size lowest a : Nat} {m : List (Nat × BitVec w)} (h : cellsWfFrom size lowest m = true)
    (ha : a < lowest) : readCell m a = unlisted w := by
  cases m with
  | nil => rfl
  | cons c rest =>
    obtain ⟨k, v⟩ := c
    simp only [cellsWfFrom_cons] at h
    simp [readCell, show a < k by omega]

theorem readCell_putCell_same {size lowest a : Nat} {v : BitVec w} {rest : List (Nat × BitVec w)}
    (h : cellsWfFrom size lowest rest = true) (ha : a < lowest) : readCell (putCell a v rest) a = v := by
  by_cases hv : v = unlisted w
  · simp [putCell, hv, readCell_below h ha]
  · simp [putCell, hv, readCell]

theorem readCell_putCell_other {size a b : Nat} {v : BitVec w} {rest : List (Nat × BitVec w)}
    (h : cellsWfFrom size (a + 1) rest = true) (hb : b ≠ a) : readCell (putCell a v rest) b = readCell rest b := by
  by_cases hv : v = unlisted w
  · simp [putCell, hv]
  · simp only [putCell, hv, if_false, readCell]
    split_ifs with h1
    · exact (readCell_below h (by omega)).symm
    · rfl

theorem cellsWfFrom_weaken {size l l' : Nat} {m : List (Nat × BitVec w)} (h : cellsWfFrom size l m = true)
    (hl : l' ≤ l) : cellsWfFrom size l' m = true := by
  cases m with
  | nil => rfl
  | cons c rest =>
    obtain ⟨k, v⟩ := c
    simp only [cellsWfFrom_cons] at h ⊢
    exact ⟨by omega, h.2⟩

theorem readCell_writeCell_from {size lowest a : Nat} {v : BitVec w} {m : List (Nat × BitVec w)}
    (h : cellsWfFrom size lowest m = true) (b : Nat) :
    readCell (writeCell m a v) b = if b = a then v else readCell m b := by
  induction m generalizing lowest with
  | nil =>
    by_cases hv : v = unlisted w <;> by_cases hb : b = a
    all_goals simp [writeCell, putCell, hv, hb, readCell]
  | cons c rest ih =>
    obtain ⟨k, u⟩ := c
    have h0 := h
    simp only [cellsWfFrom_cons] at h
    obtain ⟨h1, h2, h3, h4⟩ := h
    simp only [writeCell]
    split_ifs with c1 c2 c3 c4 c5
    · subst c2
      exact readCell_putCell_same (size := size) (lowest := b + 1)
        (by simp [h2, h3, h4]; omega) (by omega)
    · exact readCell_putCell_other (size := size) (by simp [h2, h3, h4]; omega) c2
    · subst c3; subst c4
      exact readCell_putCell_same h4 (by omega)
    · subst c3
      rw [readCell_putCell_other h4 c4]
      simp only [readCell, c4, if_false]
      split_ifs with h6
      · exact readCell_below h4 (by omega)
      · rfl
    · subst c5
      simp [readCell, c1, c3, ih h4]
    · simp only [readCell]
      rw [ih h4, if_neg c5]

/-- R56, R27, R28, R29: a cell holds the last value written to it, and every other cell is left alone. -/
theorem readCell_writeCell {size a : Nat} {v : BitVec w} {m : List (Nat × BitVec w)} (h : cellsWf size m = true) (b : Nat) :
    readCell (writeCell m a v) b = if b = a then v else readCell m b :=
  readCell_writeCell_from h b

theorem putCell_wf {size lowest a : Nat} {v : BitVec w} {rest : List (Nat × BitVec w)} (hl : lowest ≤ a) (ha : a < size)
    (h : cellsWfFrom size (a + 1) rest = true) : cellsWfFrom size lowest (putCell a v rest) = true := by
  by_cases hv : v = unlisted w
  · simp only [putCell, hv, if_true]
    exact cellsWfFrom_weaken h (by omega)
  · simp [putCell, hv, hl, ha, h]

theorem writeCell_wfFrom {size lowest a : Nat} {v : BitVec w} {m : List (Nat × BitVec w)}
    (h : cellsWfFrom size lowest m = true) (hl : lowest ≤ a) (ha : a < size) :
    cellsWfFrom size lowest (writeCell m a v) = true := by
  induction m generalizing lowest with
  | nil => exact putCell_wf hl ha rfl
  | cons c rest ih =>
    obtain ⟨k, u⟩ := c
    have h0 := h
    simp only [cellsWfFrom_cons] at h
    obtain ⟨h1, h2, h3, h4⟩ := h
    simp only [writeCell]
    split_ifs with c1 c2
    · exact putCell_wf hl ha (by simp [h2, h3, h4]; omega)
    · subst c2
      exact putCell_wf hl ha h4
    · simp only [cellsWfFrom_cons]
      exact ⟨h1, h2, h3, ih h4 (by omega)⟩

/-- Every write inside the memory keeps the canonical form. -/
theorem writeCell_wf {size a : Nat} {v : BitVec w} {m : List (Nat × BitVec w)} (h : cellsWf size m = true) (ha : a < size) :
    cellsWf size (writeCell m a v) = true :=
  writeCell_wfFrom h (Nat.zero_le a) ha

/-- Two memories in canonical form that read alike are equal. -/
theorem cells_ext_from {size lowest : Nat} {m n : List (Nat × BitVec w)} (hm : cellsWfFrom size lowest m = true)
    (hn : cellsWfFrom size lowest n = true) (h : ∀ a, readCell m a = readCell n a) : m = n := by
  induction m generalizing lowest n with
  | nil =>
    cases n with
    | nil => rfl
    | cons c rest =>
      obtain ⟨k, v⟩ := c
      simp only [cellsWfFrom_cons] at hn
      have := h k
      simp [readCell] at this
      exact absurd this.symm hn.2.2.1
  | cons c rest ih =>
    obtain ⟨k, v⟩ := c
    simp only [cellsWfFrom_cons] at hm
    cases n with
    | nil =>
      have := h k
      simp [readCell] at this
      exact absurd this hm.2.2.1
    | cons d rest' =>
      obtain ⟨k', v'⟩ := d
      simp only [cellsWfFrom_cons] at hn
      have e1 := h k
      have e2 := h k'
      simp only [readCell, lt_irrefl, if_false, if_true] at e1 e2
      have hk : k = k' := by
        by_contra hne
        rcases Nat.lt_or_gt_of_ne hne with hlt | hgt
        · rw [if_pos hlt] at e1
          exact hm.2.2.1 e1
        · rw [if_pos hgt] at e2
          exact hn.2.2.1 e2.symm
      subst hk
      simp only [lt_irrefl, if_false, if_true] at e1
      subst e1
      congr 1
      refine ih hm.2.2.2 hn.2.2.2 fun a => ?_
      have ea := h a
      simp only [readCell] at ea
      split_ifs at ea with h1 h2
      · rw [readCell_below hm.2.2.2 (by omega), readCell_below hn.2.2.2 (by omega)]
      · rw [readCell_below hm.2.2.2 (by omega), readCell_below hn.2.2.2 (by omega)]
      · exact ea

end Sys2Proof.Machine
end

