-- ==== Sys2Proof/Laws/FlagLaws.lean ====
section
/-! SUPPORT. Flags: what setting one leaves in it and in the others (R11, R176). -/

namespace Sys2Proof.Machine

/-- A flag reads as it was last set; the others are left alone. -/
@[simp] theorem getFlag_setFlag (f g : Flag) (v : Bool) (p : Byte) :
    getFlag g (setFlag f v p) = if g = f then v else getFlag g p := by
  cases f <;> cases g <;> cases v <;> simp [getFlag, setFlag, flagMask, flagBit]

/-- R176: N is bit 7 of the value, Z says that it is zero, no other flag changes. -/
@[simp] theorem getFlag_nzFlags (g : Flag) (v p : Byte) :
    getFlag g (nzFlags v p) = if g = .z then v == 0 else if g = .n then v.getLsbD 7 else getFlag g p := by
  cases g <;> simp [nzFlags]

/-- Two status bytes with the same flags are the same. -/
theorem flags_ext {p q : Byte} (h : ∀ f, getFlag f p = getFlag f q) : p = q := by
  apply BitVec.eq_of_getLsbD_eq
  intro i hi
  have hc := h .c
  have hz := h .z
  have hI := h .i
  have hd := h .d
  have hb := h .b
  have hu := h .u
  have hv := h .v
  have hn := h .n
  simp only [getFlag, flagBit] at hc hz hI hd hb hu hv hn
  interval_cases i <;> assumption

/-- Setting a flag to the value it has changes nothing. -/
theorem setFlag_same (f : Flag) (p : Byte) : setFlag f (getFlag f p) p = p := by
  apply flags_ext
  intro g
  by_cases h : g = f <;> simp [h]

/-- Testing bit 7 by a mask. -/
theorem mask_sign (v : Byte) : ((v &&& 0x80) != 0) = v.getLsbD 7 := by
  revert v
  decide +kernel

/-- Bit 7 of a byte as a comparison. -/
theorem sign_eq (v : Byte) : v.getLsbD 7 = decide (128 ≤ v.toNat) := by
  revert v
  decide +kernel

/-- R178: the overflow of `adc_core` from the three signs. -/
theorem addWithCarry_overflow (a m : Byte) (c : Bool) :
    (addWithCarry a m c).overflow =
      ((a.getLsbD 7 ^^ (addWithCarry a m c).res.getLsbD 7) && (m.getLsbD 7 ^^ (addWithCarry a m c).res.getLsbD 7)) := by
  simp only [addWithCarry, mask_sign, BitVec.getLsbD_and, BitVec.getLsbD_xor]

end Sys2Proof.Machine
end

