-- ==== Sys2Proof/Laws/State.lean ====
section
/-! SUPPORT. What each update of the state does to each part of it, so that no later proof unfolds a record update. -/

namespace Sys2Proof.Machine

@[simp] theorem State.setPC_cpu (v : Addr) (s : State) : (s.setPC v).cpu = s.cpu := rfl
@[simp] theorem State.setPC_bus (v : Addr) (s : State) : (s.setPC v).bus = s.bus := rfl
@[simp] theorem State.setPC_cart (v : Addr) (s : State) : (s.setPC v).cart = s.cart := rfl
@[simp] theorem State.setPC_ppu (v : Addr) (s : State) : (s.setPC v).ppu = s.ppu := rfl
@[simp] theorem State.setPC_cfg (v : Addr) (s : State) : (s.setPC v).cfg = s.cfg := rfl
@[simp] theorem State.setPC_regs_pc (v : Addr) (s : State) : (s.setPC v).regs.pc = v := rfl
@[simp] theorem State.setPC_regs_a (v : Addr) (s : State) : (s.setPC v).regs.a = s.regs.a := rfl
@[simp] theorem State.setPC_regs_x (v : Addr) (s : State) : (s.setPC v).regs.x = s.regs.x := rfl
@[simp] theorem State.setPC_regs_y (v : Addr) (s : State) : (s.setPC v).regs.y = s.regs.y := rfl
@[simp] theorem State.setPC_regs_sp (v : Addr) (s : State) : (s.setPC v).regs.sp = s.regs.sp := rfl
@[simp] theorem State.setPC_regs_p (v : Addr) (s : State) : (s.setPC v).regs.p = s.regs.p := rfl

@[simp] theorem State.setSP_cpu (v : Byte) (s : State) : (s.setSP v).cpu = s.cpu := rfl
@[simp] theorem State.setSP_bus (v : Byte) (s : State) : (s.setSP v).bus = s.bus := rfl
@[simp] theorem State.setSP_cart (v : Byte) (s : State) : (s.setSP v).cart = s.cart := rfl
@[simp] theorem State.setSP_ppu (v : Byte) (s : State) : (s.setSP v).ppu = s.ppu := rfl
@[simp] theorem State.setSP_cfg (v : Byte) (s : State) : (s.setSP v).cfg = s.cfg := rfl
@[simp] theorem State.setSP_regs_pc (v : Byte) (s : State) : (s.setSP v).regs.pc = s.regs.pc := rfl
@[simp] theorem State.setSP_regs_a (v : Byte) (s : State) : (s.setSP v).regs.a = s.regs.a := rfl
@[simp] theorem State.setSP_regs_x (v : Byte) (s : State) : (s.setSP v).regs.x = s.regs.x := rfl
@[simp] theorem State.setSP_regs_y (v : Byte) (s : State) : (s.setSP v).regs.y = s.regs.y := rfl
@[simp] theorem State.setSP_regs_sp (v : Byte) (s : State) : (s.setSP v).regs.sp = v := rfl
@[simp] theorem State.setSP_regs_p (v : Byte) (s : State) : (s.setSP v).regs.p = s.regs.p := rfl

@[simp] theorem State.setP_cpu (v : Byte) (s : State) : (s.setP v).cpu = s.cpu := rfl
@[simp] theorem State.setP_bus (v : Byte) (s : State) : (s.setP v).bus = s.bus := rfl
@[simp] theorem State.setP_cart (v : Byte) (s : State) : (s.setP v).cart = s.cart := rfl
@[simp] theorem State.setP_ppu (v : Byte) (s : State) : (s.setP v).ppu = s.ppu := rfl
@[simp] theorem State.setP_cfg (v : Byte) (s : State) : (s.setP v).cfg = s.cfg := rfl
@[simp] theorem State.setP_regs_pc (v : Byte) (s : State) : (s.setP v).regs.pc = s.regs.pc := rfl
@[simp] theorem State.setP_regs_a (v : Byte) (s : State) : (s.setP v).regs.a = s.regs.a := rfl
@[simp] theorem State.setP_regs_x (v : Byte) (s : State) : (s.setP v).regs.x = s.regs.x := rfl
@[simp] theorem State.setP_regs_y (v : Byte) (s : State) : (s.setP v).regs.y = s.regs.y := rfl
@[simp] theorem State.setP_regs_sp (v : Byte) (s : State) : (s.setP v).regs.sp = s.regs.sp := rfl
@[simp] theorem State.setP_regs_p (v : Byte) (s : State) : (s.setP v).regs.p = v := rfl

@[simp] theorem State.charge_regs (n : Nat) (s : State) : (s.charge n).regs = s.regs := rfl
@[simp] theorem State.charge_bus (n : Nat) (s : State) : (s.charge n).bus = s.bus := rfl
@[simp] theorem State.charge_cart (n : Nat) (s : State) : (s.charge n).cart = s.cart := rfl
@[simp] theorem State.charge_ppu (n : Nat) (s : State) : (s.charge n).ppu = s.ppu := rfl
@[simp] theorem State.charge_cfg (n : Nat) (s : State) : (s.charge n).cfg = s.cfg := rfl
@[simp] theorem State.charge_cpu_cycles (n : Nat) (s : State) : (s.charge n).cpu.cycles = s.cpu.cycles + BitVec.ofNat 64 n := rfl
@[simp] theorem State.charge_cpu_stall (n : Nat) (s : State) : (s.charge n).cpu.stall = s.cpu.stall := rfl
@[simp] theorem State.charge_cpu_nmiPending (n : Nat) (s : State) : (s.charge n).cpu.nmiPending = s.cpu.nmiPending := rfl
@[simp] theorem State.charge_cpu_irqLine (n : Nat) (s : State) : (s.charge n).cpu.irqLine = s.cpu.irqLine := rfl
@[simp] theorem State.charge_cpu_nmiCount (n : Nat) (s : State) : (s.charge n).cpu.nmiCount = s.cpu.nmiCount := rfl

@[simp] theorem State.setLastBus_regs (v : Byte) (s : State) : (s.setLastBus v).regs = s.regs := rfl
@[simp] theorem State.setLastBus_cpu (v : Byte) (s : State) : (s.setLastBus v).cpu = s.cpu := rfl
@[simp] theorem State.setLastBus_cart (v : Byte) (s : State) : (s.setLastBus v).cart = s.cart := rfl
@[simp] theorem State.setLastBus_ppu (v : Byte) (s : State) : (s.setLastBus v).ppu = s.ppu := rfl
@[simp] theorem State.setLastBus_cfg (v : Byte) (s : State) : (s.setLastBus v).cfg = s.cfg := rfl
@[simp] theorem State.setLastBus_bus_ram (v : Byte) (s : State) : (s.setLastBus v).bus.ram = s.bus.ram := rfl
@[simp] theorem State.setLastBus_bus_lastBus (v : Byte) (s : State) : (s.setLastBus v).bus.lastBus = v := rfl
@[simp] theorem State.setLastBus_bus_controllerByte (v : Byte) (s : State) : (s.setLastBus v).bus.controllerByte = s.bus.controllerByte := rfl
@[simp] theorem State.setLastBus_bus_shift (v : Byte) (s : State) : (s.setLastBus v).bus.shift = s.bus.shift := rfl
@[simp] theorem State.setLastBus_bus_strobe (v : Byte) (s : State) : (s.setLastBus v).bus.strobe = s.bus.strobe := rfl

@[simp] theorem State.mapRegs_cpu (f : Regs → Regs) (s : State) : (s.mapRegs f).cpu = s.cpu := rfl
@[simp] theorem State.mapRegs_bus (f : Regs → Regs) (s : State) : (s.mapRegs f).bus = s.bus := rfl
@[simp] theorem State.mapRegs_cart (f : Regs → Regs) (s : State) : (s.mapRegs f).cart = s.cart := rfl
@[simp] theorem State.mapRegs_ppu (f : Regs → Regs) (s : State) : (s.mapRegs f).ppu = s.ppu := rfl
@[simp] theorem State.mapRegs_cfg (f : Regs → Regs) (s : State) : (s.mapRegs f).cfg = s.cfg := rfl
@[simp] theorem State.mapRegs_regs (f : Regs → Regs) (s : State) : (s.mapRegs f).regs = f s.regs := rfl

@[simp] theorem raiseNmi_regs (s : State) : (raiseNmi s).regs = s.regs := rfl
@[simp] theorem raiseNmi_bus (s : State) : (raiseNmi s).bus = s.bus := rfl
@[simp] theorem raiseNmi_cart (s : State) : (raiseNmi s).cart = s.cart := rfl
@[simp] theorem raiseNmi_ppu (s : State) : (raiseNmi s).ppu = s.ppu := rfl
@[simp] theorem raiseNmi_cfg (s : State) : (raiseNmi s).cfg = s.cfg := rfl
@[simp] theorem raiseNmi_cpu_cycles (s : State) : (raiseNmi s).cpu.cycles = s.cpu.cycles := rfl
@[simp] theorem raiseNmi_cpu_stall (s : State) : (raiseNmi s).cpu.stall = s.cpu.stall := rfl
@[simp] theorem raiseNmi_cpu_nmiPending (s : State) : (raiseNmi s).cpu.nmiPending = true := rfl
@[simp] theorem raiseNmi_cpu_irqLine (s : State) : (raiseNmi s).cpu.irqLine = s.cpu.irqLine := rfl
@[simp] theorem raiseNmi_cpu_nmiCount (s : State) : (raiseNmi s).cpu.nmiCount = s.cpu.nmiCount + 1 := rfl

@[simp] theorem setNZ_pc (v : Byte) (r : Regs) : (setNZ v r).pc = r.pc := rfl
@[simp] theorem setNZ_a (v : Byte) (r : Regs) : (setNZ v r).a = r.a := rfl
@[simp] theorem setNZ_x (v : Byte) (r : Regs) : (setNZ v r).x = r.x := rfl
@[simp] theorem setNZ_y (v : Byte) (r : Regs) : (setNZ v r).y = r.y := rfl
@[simp] theorem setNZ_sp (v : Byte) (r : Regs) : (setNZ v r).sp = r.sp := rfl
@[simp] theorem setNZ_p (v : Byte) (r : Regs) : (setNZ v r).p = nzFlags v r.p := rfl

@[simp] theorem compareRegs_pc (v m : Byte) (r : Regs) : (compareRegs v m r).pc = r.pc := rfl
@[simp] theorem compareRegs_a (v m : Byte) (r : Regs) : (compareRegs v m r).a = r.a := rfl
@[simp] theorem compareRegs_x (v m : Byte) (r : Regs) : (compareRegs v m r).x = r.x := rfl
@[simp] theorem compareRegs_y (v m : Byte) (r : Regs) : (compareRegs v m r).y = r.y := rfl
@[simp] theorem compareRegs_sp (v m : Byte) (r : Regs) : (compareRegs v m r).sp = r.sp := rfl

@[simp] theorem adcCore_pc (m : Byte) (r : Regs) : (adcCore m r).pc = r.pc := rfl
@[simp] theorem adcCore_x (m : Byte) (r : Regs) : (adcCore m r).x = r.x := rfl
@[simp] theorem adcCore_y (m : Byte) (r : Regs) : (adcCore m r).y = r.y := rfl
@[simp] theorem adcCore_sp (m : Byte) (r : Regs) : (adcCore m r).sp = r.sp := rfl

end Sys2Proof.Machine
end

