-- ==== Sys2Proof/Laws/BusLaws.lean ====
section
/-! SUPPORT. What a CPU-bus access can do: one lemma for reads (`busRead_effect`), one for writes (`busWrite_effect`), and what
they do exactly in RAM and PRG. -/

namespace Sys2Proof.Machine

/-! ### Read effects -/

theorem ReadEffect.refl (s : State) : ReadEffect s s := rfl

theorem ReadEffect.trans {s t u : State} (h : ReadEffect s t) (h' : ReadEffect t u) : ReadEffect s u := by
  unfold ReadEffect at *
  rw [h'] at *
  rw [h]

theorem ReadEffect.regs {s t : State} (h : ReadEffect s t) : t.regs = s.regs := by rw [h]
theorem ReadEffect.cpu {s t : State} (h : ReadEffect s t) : t.cpu = s.cpu := by rw [h]
theorem ReadEffect.cart {s t : State} (h : ReadEffect s t) : t.cart = s.cart := by rw [h]
theorem ReadEffect.cfg {s t : State} (h : ReadEffect s t) : t.cfg = s.cfg := by rw [h]
theorem ReadEffect.ram {s t : State} (h : ReadEffect s t) : t.bus.ram = s.bus.ram := by rw [h]
theorem ReadEffect.oam {s t : State} (h : ReadEffect s t) : t.ppu.oam = s.ppu.oam := by rw [h]
theorem ReadEffect.oamAddr {s t : State} (h : ReadEffect s t) : t.ppu.oamAddr = s.ppu.oamAddr := by rw [h]
theorem ReadEffect.vram {s t : State} (h : ReadEffect s t) : t.ppu.vram = s.ppu.vram := by rw [h]
theorem ReadEffect.palette {s t : State} (h : ReadEffect s t) : t.ppu.palette = s.ppu.palette := by rw [h]

theorem ReadEffect.setLastBus (v : Byte) (s : State) : ReadEffect s (s.setLastBus v) := rfl

theorem readData_effect (s : State) : ReadEffect s (readData s).st := by
  simp only [readData]
  split_ifs <;> rfl

theorem portRead_effect (n : PpuPort) (s : State) : ReadEffect s (portRead n s).st := by
  cases n
  case data => exact readData_effect s
  all_goals rfl

theorem readController_effect (s : State) : ReadEffect s (readController s).st := by
  simp only [readController]
  split_ifs <;> rfl

theorem readRegion_effect (a : Addr) (s : State) : ReadEffect s (readRegion a s).st := by
  simp only [readRegion]
  cases regionOf a
  case ppuPort => exact portRead_effect _ s
  case controller => exact readController_effect s
  all_goals rfl

/-- R54, R65, R67: everything a CPU-bus read can do to the state. -/
theorem busRead_effect (a : Addr) (s : State) : ReadEffect s (busRead a s).st :=
  (readRegion_effect a s).trans (ReadEffect.setLastBus _ _)

@[simp] theorem busRead_regs (a : Addr) (s : State) : (busRead a s).st.regs = s.regs := (busRead_effect a s).regs
@[simp] theorem busRead_cpu (a : Addr) (s : State) : (busRead a s).st.cpu = s.cpu := (busRead_effect a s).cpu
@[simp] theorem busRead_cart (a : Addr) (s : State) : (busRead a s).st.cart = s.cart := (busRead_effect a s).cart
@[simp] theorem busRead_cfg (a : Addr) (s : State) : (busRead a s).st.cfg = s.cfg := (busRead_effect a s).cfg
@[simp] theorem busRead_ram' (a : Addr) (s : State) : (busRead a s).st.bus.ram = s.bus.ram := (busRead_effect a s).ram
/-- R65: after a read the last-bus byte is the value returned. -/
@[simp] theorem busRead_lastBus (a : Addr) (s : State) : (busRead a s).st.bus.lastBus = (busRead a s).val := rfl

/-! ### Write effects -/

theorem WriteEffect.refl (s : State) : WriteEffect s s := rfl

theorem WriteEffect.trans {s t u : State} (h : WriteEffect s t) (h' : WriteEffect t u) : WriteEffect s u := by
  unfold WriteEffect at *
  rw [h'] at *
  rw [h]

theorem ReadEffect.write {s t : State} (h : ReadEffect s t) : WriteEffect s t := by
  unfold WriteEffect
  rw [h]

theorem WriteEffect.regs {s t : State} (h : WriteEffect s t) : t.regs = s.regs := by rw [h]
theorem WriteEffect.cycles {s t : State} (h : WriteEffect s t) : t.cpu.cycles = s.cpu.cycles := by rw [h]
theorem WriteEffect.irqLine {s t : State} (h : WriteEffect s t) : t.cpu.irqLine = s.cpu.irqLine := by rw [h]
theorem WriteEffect.cfg {s t : State} (h : WriteEffect s t) : t.cfg = s.cfg := by rw [h]
theorem WriteEffect.prg {s t : State} (h : WriteEffect s t) : t.cart.prg = s.cart.prg := by rw [h]
theorem WriteEffect.prgSize {s t : State} (h : WriteEffect s t) : t.cart.prgSize = s.cart.prgSize := by rw [h]
theorem WriteEffect.chrWritable {s t : State} (h : WriteEffect s t) : t.cart.chrWritable = s.cart.chrWritable := by rw [h]
theorem WriteEffect.mirroring {s t : State} (h : WriteEffect s t) : t.cart.mirroring = s.cart.mirroring := by rw [h]

theorem WriteEffect.setLastBus (v : Byte) (s : State) : WriteEffect s (s.setLastBus v) := rfl

theorem raiseNmi_effect (s : State) : WriteEffect s (raiseNmi s) := rfl

theorem writeControl_effect (v : Byte) (s : State) : WriteEffect s (writeControl v s) := by
  simp only [writeControl]
  split_ifs <;> rfl

theorem writeScroll_effect (v : Byte) (s : State) : WriteEffect s (writeScroll v s) := by
  simp only [writeScroll]
  split_ifs <;> rfl

theorem writeAddress_effect (v : Byte) (s : State) : WriteEffect s (writeAddress v s) := by
  simp only [writeAddress]
  split_ifs <;> rfl

theorem ppuWrite_effect (a : PpuAddr) (v : Byte) (s : State) : WriteEffect s (ppuWrite a v s) := by
  simp only [ppuWrite]
  split_ifs <;> rfl

theorem writeData_effect (v : Byte) (s : State) : WriteEffect s (writeData v s) :=
  (ppuWrite_effect _ v s).trans rfl

theorem portWrite_effect (n : PpuPort) (v : Byte) (s : State) : WriteEffect s (portWrite n v s) := by
  cases n
  case control => exact writeControl_effect v s
  case scroll => exact writeScroll_effect v s
  case address => exact writeAddress_effect v s
  case data => exact writeData_effect v s
  all_goals rfl

theorem dmaByte_effect (page : Byte) (s : State) (i : Nat) : WriteEffect s (dmaByte page s i) :=
  (busRead_effect _ s).write.trans rfl

theorem dmaFold_effect (page : Byte) (is : List Nat) (s : State) : WriteEffect s (is.foldl (dmaByte page) s) := by
  induction is generalizing s with
  | nil => rfl
  | cons i rest ih => exact (dmaByte_effect page s i).trans (ih _)

theorem WriteEffect.setStall (n : Nat) (s : State) : WriteEffect s { s with cpu.stall := n } := rfl

theorem dmaCopy_effect (page : Byte) (s : State) : WriteEffect s (dmaCopy page s) := dmaFold_effect page _ s

theorem oamDma_effect (page : Byte) (s : State) : WriteEffect s (oamDma page s) := by
  unfold oamDma
  exact (dmaCopy_effect page s).trans (WriteEffect.setStall _ _)

theorem writeRegion_effect (a : Addr) (v : Byte) (s : State) : WriteEffect s (writeRegion a v s) := by
  simp only [writeRegion]
  cases regionOf a
  case ppuPort => exact portWrite_effect _ v s
  case oamDma => exact oamDma_effect v s
  all_goals rfl

/-- R55, R67: everything a CPU-bus write can do to the state. -/
theorem busWrite_effect (a : Addr) (v : Byte) (s : State) : WriteEffect s (busWrite a v s) :=
  (WriteEffect.setLastBus v s).trans (writeRegion_effect a v _)

@[simp] theorem busWrite_regs (a : Addr) (v : Byte) (s : State) : (busWrite a v s).regs = s.regs :=
  (busWrite_effect a v s).regs
@[simp] theorem busWrite_cycles (a : Addr) (v : Byte) (s : State) : (busWrite a v s).cpu.cycles = s.cpu.cycles :=
  (busWrite_effect a v s).cycles
@[simp] theorem busWrite_irqLine (a : Addr) (v : Byte) (s : State) : (busWrite a v s).cpu.irqLine = s.cpu.irqLine :=
  (busWrite_effect a v s).irqLine
@[simp] theorem busWrite_cfg (a : Addr) (v : Byte) (s : State) : (busWrite a v s).cfg = s.cfg := (busWrite_effect a v s).cfg
@[simp] theorem busWrite_prg (a : Addr) (v : Byte) (s : State) : (busWrite a v s).cart.prg = s.cart.prg :=
  (busWrite_effect a v s).prg
@[simp] theorem busWrite_prgSize (a : Addr) (v : Byte) (s : State) : (busWrite a v s).cart.prgSize = s.cart.prgSize :=
  (busWrite_effect a v s).prgSize

/-! ### RAM and PRG exactly -/

theorem regionOf_ram {a : Addr} (h : a.toNat < 0x2000) : regionOf a = .ram := if_pos h

theorem regionOf_prg {a : Addr} (h : 0x8000 ≤ a.toNat) : regionOf a = .prg := by
  simp only [regionOf]
  split_ifs <;> first | rfl | omega

/-- R54, R56: a read of RAM. -/
theorem busRead_ram {a : Addr} (h : a.toNat < 0x2000) (s : State) :
    busRead a s = ⟨readCell s.bus.ram (ramIndex a), s.setLastBus (readCell s.bus.ram (ramIndex a))⟩ := by
  simp [busRead, readRegion, regionOf_ram h]

/-- R54, R63: a read of PRG. -/
theorem busRead_prg {a : Addr} (h : 0x8000 ≤ a.toNat) (s : State) :
    busRead a s = ⟨readCell s.cart.prg (prgIndex s.cart.prgSize a),
      s.setLastBus (readCell s.cart.prg (prgIndex s.cart.prgSize a))⟩ := by
  simp [busRead, readRegion, regionOf_prg h]

/-- R54: a read of stored memory gives the stored byte and changes the last-bus byte only. -/
theorem busRead_stored {a : Addr} {s : State} {v : Byte} (h : storedByte a s = some v) :
    busRead a s = ⟨v, s.setLastBus v⟩ := by
  simp only [storedByte] at h
  simp only [busRead, readRegion]
  cases hr : regionOf a <;> simp_all

/-- R55, R56: a write to RAM. -/
theorem busWrite_ram {a : Addr} (h : a.toNat < 0x2000) (v : Byte) (s : State) :
    busWrite a v s = { s with bus.ram := writeCell s.bus.ram (ramIndex a) v, bus.lastBus := v } := by
  simp [busWrite, writeRegion, regionOf_ram h, State.setLastBus]

/-- What is stored at a CPU address depends on RAM and PRG alone. -/
theorem storedByte_congr {s t : State} (hr : t.bus.ram = s.bus.ram) (hp : t.cart.prg = s.cart.prg)
    (hs : t.cart.prgSize = s.cart.prgSize) (a : Addr) : storedByte a t = storedByte a s := by
  simp only [storedByte, hr, hp, hs]

theorem ReadEffect.stored {s t : State} (h : ReadEffect s t) (a : Addr) : storedByte a t = storedByte a s :=
  storedByte_congr h.ram (by rw [h.cart]) (by rw [h.cart]) a

/-! ### OAM DMA (R58) -/

/-- The state after the first `k` bytes of a copy. -/
def dmaPrefix (page : Byte) (s : State) (k : Nat) : State := (List.range k).foldl (dmaByte page) s

theorem dmaPrefix_zero (page : Byte) (s : State) : dmaPrefix page s 0 = s := rfl

theorem dmaPrefix_all (page : Byte) (s : State) : dmaPrefix page s 256 = dmaCopy page s := rfl

/-- One byte more. -/
theorem dmaPrefix_succ (page : Byte) (s : State) (k : Nat) :
    dmaPrefix page s (k + 1) = dmaByte page (dmaPrefix page s k) k := by
  simp [dmaPrefix, List.range_succ]

/-- Beside OAM, a copy changes what bus reads change. -/
theorem dmaPrefix_effect (page : Byte) (s : State) (k : Nat) :
    ReadEffect { s with ppu.oam := (dmaPrefix page s k).ppu.oam } (dmaPrefix page s k) := by
  induction k with
  | zero => rfl
  | succ k ih =>
    rw [dmaPrefix_succ]
    have h := busRead_effect (dmaSource page k) (dmaPrefix page s k)
    generalize dmaPrefix page s k = d at *
    unfold dmaByte
    dsimp only
    generalize (busRead (dmaSource page k) d).st = e at *
    unfold ReadEffect at *
    rw [h, ih]

theorem dmaPrefix_oamAddr (page : Byte) (s : State) (k : Nat) : (dmaPrefix page s k).ppu.oamAddr = s.ppu.oamAddr :=
  (dmaPrefix_effect page s k).oamAddr

theorem dmaPrefix_wf (page : Byte) {s : State} (hw : Memory.wf 256 s.ppu.oam = true) (k : Nat) :
    Memory.wf 256 (dmaPrefix page s k).ppu.oam = true := by
  induction k with
  | zero => exact hw
  | succ k ih =>
    rw [dmaPrefix_succ]
    unfold dmaByte
    dsimp only
    rw [(busRead_effect _ _).oam]
    exact writeCell_wf ih (by omega)

/-- The `k`-th byte lands at the OAM address plus `k`, and no other OAM byte changes. -/
theorem dmaPrefix_oam (page : Byte) {s : State} (hw : Memory.wf 256 s.ppu.oam = true) (k c : Nat) :
    readCell (dmaPrefix page s (k + 1)).ppu.oam c =
      if c = (s.ppu.oamAddr.toNat + k) % 256 then (busRead (dmaSource page k) (dmaPrefix page s k)).val
      else readCell (dmaPrefix page s k).ppu.oam c := by
  rw [dmaPrefix_succ]
  unfold dmaByte
  dsimp only
  rw [(busRead_effect _ _).oam, (busRead_effect _ _).oamAddr, dmaPrefix_oamAddr]
  exact readCell_writeCell (dmaPrefix_wf page hw k) c

/-! ### The stack (R230) -/

theorem stackAddr_toNat (sp : Byte) : (stackAddr sp).toNat = 256 + sp.toNat := by
  simp [stackAddr, zext16]
  omega

theorem stackAddr_lt (sp : Byte) : (stackAddr sp).toNat < 0x2000 := by
  rw [stackAddr_toNat]
  omega

theorem ramIndex_stackAddr (sp : Byte) : ramIndex (stackAddr sp) = 256 + sp.toNat := by
  simp only [ramIndex, stackAddr_toNat]
  omega

/-- R230: a push changes SP, one RAM byte of page $01 and the last-bus byte. -/
theorem push_eq (v : Byte) (s : State) :
    push v s = { s with
      regs.sp := s.regs.sp - 1
      bus.ram := writeCell s.bus.ram (pushCell s.cfg.stackOrder s.regs.sp) v
      bus.lastBus := v } := by
  unfold push pushCell
  cases s.cfg.stackOrder <;> simp [busWrite_ram (stackAddr_lt _), ramIndex_stackAddr, State.setSP]

/-- R230: a pull changes SP and the last-bus byte. -/
theorem pull_eq (s : State) :
    pull s = ⟨readCell s.bus.ram (pullCell s.cfg.stackOrder s.regs.sp),
      { s with
        regs.sp := s.regs.sp + 1
        bus.lastBus := readCell s.bus.ram (pullCell s.cfg.stackOrder s.regs.sp) }⟩ := by
  unfold pull pullCell
  cases s.cfg.stackOrder <;>
    simp [busRead_ram (stackAddr_lt _), ramIndex_stackAddr, State.setSP, State.setLastBus]

theorem pushCell_lt (o : StackOrder) (sp : Byte) : pushCell o sp < 2048 := by
  cases o <;> simp only [pushCell] <;> omega

/-- R230: a pull right after a push reads the pushed byte's cell. -/
theorem pullCell_sub_one (o : StackOrder) (sp : Byte) : pullCell o (sp - 1) = pushCell o sp := by
  cases o <;> simp [pullCell, pushCell]

/-- Pushes from different stack pointers write different cells. -/
theorem pushCell_inj {o : StackOrder} {a b : Byte} (h : pushCell o a = pushCell o b) : a = b := by
  cases o <;> simp only [pushCell, Nat.add_left_cancel_iff] at h
  · have := BitVec.eq_of_toNat_eq h
    simpa using this
  · exact BitVec.eq_of_toNat_eq h

/-- R403, R440: loading PC from a vector in PRG. -/
theorem loadPC_eq {vector : Addr} (h : 0x8000 ≤ vector.toNat) (h' : 0x8000 ≤ (vector + 1#16).toNat) (s : State) :
    loadPC vector s = { s with
      regs.pc := w16 (readCell s.cart.prg (prgIndex s.cart.prgSize vector))
        (readCell s.cart.prg (prgIndex s.cart.prgSize (vector + 1#16)))
      bus.lastBus := readCell s.cart.prg (prgIndex s.cart.prgSize (vector + 1#16)) } := by
  simp [loadPC, busRead_prg h, busRead_prg h', State.setPC, State.setLastBus]

/-- R403: everything the interrupt sequence does, for a vector in PRG. -/
theorem interrupt_eq {vector : Addr} (h : 0x8000 ≤ vector.toNat) (h' : 0x8000 ≤ (vector + 1#16).toNat) (brk : Bool)
    (s : State) :
    interrupt vector brk s = { s with
      regs := { s.regs with
        pc := w16 (readCell s.cart.prg (prgIndex s.cart.prgSize vector))
          (readCell s.cart.prg (prgIndex s.cart.prgSize (vector + 1#16)))
        sp := s.regs.sp - 1 - 1 - 1
        p := setFlag .i true s.regs.p }
      bus := { s.bus with
        ram := writeCell (writeCell (writeCell s.bus.ram
          (pushCell s.cfg.stackOrder s.regs.sp) (hi s.regs.pc))
          (pushCell s.cfg.stackOrder (s.regs.sp - 1)) (lo s.regs.pc))
          (pushCell s.cfg.stackOrder (s.regs.sp - 1 - 1))
          (if brk then pushedByInstruction s.regs.p else pushedByHardware s.regs.p)
        lastBus := readCell s.cart.prg (prgIndex s.cart.prgSize (vector + 1#16)) } } := by
  simp [interrupt, push_eq, loadPC_eq h h', State.setP]

/-- R204: everything the return from an interrupt does. -/
theorem returnFromInterrupt_eq (s : State) :
    returnFromInterrupt s = { s with
      regs := { s.regs with
        p := pulledP (readCell s.bus.ram (pullCell s.cfg.stackOrder s.regs.sp))
        pc := w16 (readCell s.bus.ram (pullCell s.cfg.stackOrder (s.regs.sp + 1)))
          (readCell s.bus.ram (pullCell s.cfg.stackOrder (s.regs.sp + 1 + 1)))
        sp := s.regs.sp + 1 + 1 + 1 }
      bus.lastBus := readCell s.bus.ram (pullCell s.cfg.stackOrder (s.regs.sp + 1 + 1)) } := by
  simp [returnFromInterrupt, pull_eq, State.setP, State.setPC]

end Sys2Proof.Machine
end

