-- ==== Sys2Proof/Laws/OperandLaws.lean ====
section
/-! SUPPORT. Addressing modes and the shared instruction shapes: what each can do, said once. -/

namespace Sys2Proof.Machine

/-! ### Pointers and effective addresses -/

theorem zext16_toNat (b : Byte) : (zext16 b).toNat = b.toNat := by
  simp [zext16]
  omega

theorem zext16_lt (b : Byte) : (zext16 b).toNat < 0x2000 := by
  rw [zext16_toNat]
  omega

theorem ramIndex_zext16 (b : Byte) : ramIndex (zext16 b) = b.toNat := by
  simp only [ramIndex, zext16_toNat]
  omega

/-- R112, R113: a zero-page pointer is two RAM bytes; reading it changes the last-bus byte only. -/
theorem readPointer_eq (z : Byte) (s : State) :
    readPointer z s = ⟨w16 (readCell s.bus.ram z.toNat) (readCell s.bus.ram (z + 1).toNat),
      s.setLastBus (readCell s.bus.ram (z + 1).toNat)⟩ := by
  simp only [readPointer, busRead_ram (zext16_lt _), ramIndex_zext16, State.setLastBus]

/-- The pointer reads of an addressing mode change the last-bus byte only. -/
theorem effAddr_st (m : Operand) (s : State) : ∃ b, (effAddr m s).st = s.setLastBus b := by
  cases m <;>
    first
      | exact ⟨s.bus.lastBus, rfl⟩
      | exact ⟨_, by simp only [effAddr, readPointer_eq, indexed]; rfl⟩

theorem effAddr_read (m : Operand) (s : State) : ReadEffect s (effAddr m s).st := by
  obtain ⟨b, h⟩ := effAddr_st m s
  rw [h]
  exact ReadEffect.setLastBus b s

@[simp] theorem effAddr_regs (m : Operand) (s : State) : (effAddr m s).st.regs = s.regs := (effAddr_read m s).regs
@[simp] theorem effAddr_cpu (m : Operand) (s : State) : (effAddr m s).st.cpu = s.cpu := (effAddr_read m s).cpu

/-- Everything reading an operand can do to the state. -/
theorem readOperand_effect (m : Operand) (s : State) : ReadEffect s (readOperand m s).st := by
  cases m <;> first | rfl | exact (effAddr_read _ s).trans (busRead_effect _ _)

@[simp] theorem readOperand_regs (m : Operand) (s : State) : (readOperand m s).st.regs = s.regs :=
  (readOperand_effect m s).regs
@[simp] theorem readOperand_cpu (m : Operand) (s : State) : (readOperand m s).st.cpu = s.cpu := (readOperand_effect m s).cpu
@[simp] theorem readOperand_cfg (m : Operand) (s : State) : (readOperand m s).st.cfg = s.cfg := (readOperand_effect m s).cfg

/-! ### The instruction shapes -/

theorem regInstr_next {n : Nat} {f : Regs → Regs} {s : State} :
    ∃ t, regInstr n f s = .next t ∧ t.regs = f s.regs ∧ RegFrame n s t := ⟨_, rfl, rfl, rfl⟩

/-- A reading instruction: the registers follow the operand, the rest is the operand's read. -/
theorem readInstr_next {m : Operand} {f : Byte → Regs → Regs} {s : State} :
    ∃ t, readInstr m f s = .next t ∧ t.regs = f (readOperand m s).val s.regs ∧
      ReadFrame (readOperand m s) (readCycles m (readOperand m s).crossed) s t := by
  refine ⟨_, rfl, by simp, ?_, ?_, ?_⟩
  · simp [State.charge, State.mapRegs, chargedCpu]
  · have h := readOperand_effect m s
    unfold ReadEffect at *
    simp only [State.charge, State.mapRegs, chargedCpu]
    rw [h]
  · intro a
    rw [← (readOperand_effect m s).stored a]
    exact storedByte_congr rfl rfl rfl a

theorem regionOf_eq_ram {a : Addr} : regionOf a = .ram ↔ a.toNat < 0x2000 := by
  constructor
  · intro h
    simp only [regionOf] at h
    split_ifs at h
    assumption
  · exact regionOf_ram

/-- A byte stored in RAM reads back at its mirrors; the other bytes are left alone. Needs the canonical form of RAM. -/
theorem storedByte_ramWrite {s : State} (hw : cellsWf 2048 s.bus.ram = true) {addr : Addr} (h : regionOf addr = .ram) (v : Byte)
    {t : State} (hr : t.bus.ram = writeCell s.bus.ram (ramIndex addr) v) (hp : t.cart.prg = s.cart.prg)
    (hs : t.cart.prgSize = s.cart.prgSize) (a : Addr) :
    storedByte a t = if sameRamByte a addr then some v else storedByte a s := by
  simp only [storedByte, sameRamByte, hr, hp, hs, h]
  cases regionOf a <;> simp [readCell_writeCell hw]
  split_ifs <;> rfl

/-- Outside RAM and the PPU's data port a bus write leaves RAM alone; a port or DMA write does too. -/
theorem portWrite_ram (n : PpuPort) (v : Byte) (s : State) : (portWrite n v s).bus.ram = s.bus.ram := by
  cases n <;> simp only [portWrite, writeControl, writeMask, writeOamAddr, writeOamData, writeScroll, writeAddress, writeData,
    ppuWrite]
  all_goals split_ifs <;> rfl

theorem dmaFold_ram (page : Byte) (is : List Nat) (s : State) : (is.foldl (dmaByte page) s).bus.ram = s.bus.ram := by
  induction is generalizing s with
  | nil => rfl
  | cons i rest ih =>
    simp only [List.foldl_cons, ih]
    simp [dmaByte]

theorem busWrite_ram_other {a : Addr} (h : regionOf a ≠ .ram) (v : Byte) (s : State) :
    (busWrite a v s).bus.ram = s.bus.ram := by
  simp only [busWrite, writeRegion]
  cases hr : regionOf a
  case ram => exact absurd hr h
  case ppuPort => exact portWrite_ram _ _ _
  case oamDma =>
    simp only [oamDma, dmaCopy]
    exact dmaFold_ram v _ _
  all_goals rfl

/-- R143 to R145: what a storing access does, its pointer reads included. -/
theorem busWrite_storeFrame {m : Operand} {s : State} (hw : cellsWf 2048 s.bus.ram = true) (v : Byte) (n : Nat) (f : Regs → Regs) :
    StoreFrame (effAddr m s).addr v n s (((busWrite (effAddr m s).addr v (effAddr m s).st).mapRegs f).charge n) := by
  obtain ⟨b, hb⟩ := effAddr_st m s
  have hd := busWrite_effect (effAddr m s).addr v (effAddr m s).st
  constructor
  · intro h
    have hlt := regionOf_eq_ram.mp h
    rw [hb, busWrite_ram hlt]
    refine ⟨by simp [State.charge, State.mapRegs, State.setLastBus, chargedCpu], ?_⟩
    exact storedByte_ramWrite hw h v rfl rfl rfl
  · intro h
    refine ⟨?_, ?_⟩
    · rw [hb] at hd ⊢
      unfold WriteEffect at hd ⊢
      simp only [State.charge, State.mapRegs, State.setLastBus, chargedCpu] at hd ⊢
      rw [hd]
    · apply storedByte_congr
      · rw [hb]; simp [busWrite_ram_other h]
      · rw [hb]; simp
      · rw [hb]; simp

/-! ### Bus accesses do not look at the registers -/

/-- The state with other registers. -/
def State.withRegs (r : Regs) (s : State) : State := { s with regs := r }

theorem portRead_withRegs (n : PpuPort) (r : Regs) (s : State) :
    portRead n (s.withRegs r) = ⟨(portRead n s).val, (portRead n s).st.withRegs r⟩ := by
  cases n
  case data =>
    have hv : vAddr (s.withRegs r).ppu = vAddr s.ppu := rfl
    by_cases h : (vAddr s.ppu).toNat < 0x3F00
    · simp only [portRead, readData, hv, if_pos h]
      rfl
    · simp only [portRead, readData, hv, if_neg h]
      rfl
  all_goals rfl

theorem readController_withRegs (r : Regs) (s : State) :
    readController (s.withRegs r) = ⟨(readController s).val, (readController s).st.withRegs r⟩ := by
  have hb : (s.withRegs r).bus = s.bus := rfl
  by_cases h : s.bus.strobe = true
  · simp only [readController, hb, if_pos h]
  · simp only [readController, hb, if_neg h]
    rfl

theorem busRead_withRegs (a : Addr) (r : Regs) (s : State) :
    busRead a (s.withRegs r) = ⟨(busRead a s).val, (busRead a s).st.withRegs r⟩ := by
  simp only [busRead, readRegion]
  cases regionOf a
  case ppuPort =>
    simp only [portRead_withRegs]
    rfl
  case controller =>
    simp only [readController_withRegs]
    rfl
  all_goals rfl

theorem ppuWrite_withRegs (a : PpuAddr) (v : Byte) (r : Regs) (s : State) :
    ppuWrite a v (s.withRegs r) = (ppuWrite a v s).withRegs r := by
  unfold ppuWrite State.withRegs
  split
  · split <;> rfl
  · split <;> rfl

theorem portWrite_withRegs (n : PpuPort) (v : Byte) (r : Regs) (s : State) :
    portWrite n v (s.withRegs r) = (portWrite n v s).withRegs r := by
  cases n
  case control =>
    unfold portWrite writeControl State.withRegs
    dsimp only
    split <;> rfl
  case scroll =>
    unfold portWrite writeScroll State.withRegs
    dsimp only
    split <;> rfl
  case address =>
    unfold portWrite writeAddress State.withRegs
    dsimp only
    split <;> rfl
  case data =>
    have h : vAddr (s.withRegs r).ppu = vAddr s.ppu := rfl
    simp only [portWrite, writeData, h, ppuWrite_withRegs]
    rfl
  all_goals rfl

theorem dmaByte_withRegs (page : Byte) (r : Regs) (s : State) (i : Nat) :
    dmaByte page (s.withRegs r) i = (dmaByte page s i).withRegs r := by
  simp only [dmaByte, busRead_withRegs]
  rfl

theorem dmaFold_withRegs (page : Byte) (r : Regs) (is : List Nat) (s : State) :
    is.foldl (dmaByte page) (s.withRegs r) = (is.foldl (dmaByte page) s).withRegs r := by
  induction is generalizing s with
  | nil => rfl
  | cons i rest ih => simp only [List.foldl_cons, dmaByte_withRegs, ih]

/-- A bus write is the same whatever the registers hold. -/
theorem busWrite_withRegs (a : Addr) (v : Byte) (r : Regs) (s : State) :
    busWrite a v (s.withRegs r) = (busWrite a v s).withRegs r := by
  have hl : (s.withRegs r).setLastBus v = (s.setLastBus v).withRegs r := rfl
  simp only [busWrite, writeRegion, hl]
  cases regionOf a
  case ppuPort => exact portWrite_withRegs _ _ _ _
  case oamDma =>
    simp only [oamDma, dmaCopy, dmaFold_withRegs]
    rfl
  all_goals rfl

/-! ### Read-modify-write (R194) -/

/-- What R194's function makes of the byte at the operand's address. -/
def modified (f : Bool → Byte → Shifted) (m : Operand) (s : State) : Shifted :=
  f (getFlag .c s.regs.p) (busRead (effAddr m s).addr (effAddr m s).st).val

/-- R194 in memory: one `Read` and one `Write` at one address, and P.C. -/
theorem modifyOperand_memory {f : Bool → Byte → Shifted} {m : Operand} (hm : inMemory m = true) (s : State) :
    modifyOperand f m s = ⟨(modified f m s).val,
      (busWrite (effAddr m s).addr (modified f m s).val (busRead (effAddr m s).addr (effAddr m s).st).st).withRegs
        { s.regs with p := setFlag .c (modified f m s).carry s.regs.p }⟩ := by
  have key : ∀ t : State, t.regs = s.regs →
      t.setP (setFlag .c (modified f m s).carry s.regs.p)
        = t.withRegs { s.regs with p := setFlag .c (modified f m s).carry s.regs.p } := by
    intro t ht
    simp only [State.setP, State.withRegs, ht]
  have h1 : modifyOperand f m s = ⟨(modified f m s).val,
      busWrite (effAddr m s).addr (modified f m s).val
        ((busRead (effAddr m s).addr (effAddr m s).st).st.setP (setFlag .c (modified f m s).carry s.regs.p))⟩ := by
    cases m <;> first | rfl | exact absurd hm (by decide)
  rw [h1, key _ (by simp), busWrite_withRegs]

/-- R194 in memory: the state after the read and the write. -/
def modifiedState (f : Bool → Byte → Shifted) (m : Operand) (s : State) : State :=
  busWrite (effAddr m s).addr (modified f m s).val (busRead (effAddr m s).addr (effAddr m s).st).st

@[simp] theorem modifiedState_regs (f : Bool → Byte → Shifted) (m : Operand) (s : State) :
    (modifiedState f m s).regs = s.regs := by
  simp [modifiedState]

/-- A read-modify-write instruction on memory. -/
theorem modifyInstr_memory {f : Bool → Byte → Shifted} {g : Byte → Regs → Regs} {m : Operand} (hm : inMemory m = true)
    {s : State} :
    modifyInstr m f g s = .next (((modifiedState f m s).withRegs
      (g (modified f m s).val { s.regs with p := setFlag .c (modified f m s).carry s.regs.p })).charge (rmwCycles m)) := by
  simp only [modifyInstr, modifyOperand_memory hm]
  rfl

/-- What the read and the write of R194 can do, in RAM and elsewhere. -/
theorem modified_storeFrame {f : Bool → Byte → Shifted} {m : Operand} {s : State} (hw : cellsWf 2048 s.bus.ram = true)
    (n : Nat) (r : Regs) :
    StoreFrame (effAddr m s).addr (modified f m s).val n s (((modifiedState f m s).withRegs r).charge n) := by
  obtain ⟨b, hb⟩ := effAddr_st m s
  have hd : WriteEffect s (modifiedState f m s) :=
    ((effAddr_read m s).write.trans (busRead_effect _ _).write).trans (busWrite_effect _ _ _)
  constructor
  · intro h
    have hlt := regionOf_eq_ram.mp h
    have hs : modifiedState f m s = { s with
        bus.ram := writeCell s.bus.ram (ramIndex (effAddr m s).addr) (modified f m s).val
        bus.lastBus := (modified f m s).val } := by
      unfold modifiedState
      rw [busWrite_ram hlt, busRead_ram hlt]
      simp [hb, State.setLastBus]
    rw [hs]
    refine ⟨rfl, ?_⟩
    exact storedByte_ramWrite hw h _ rfl rfl rfl
  · intro h
    refine ⟨?_, ?_⟩
    · unfold WriteEffect at hd ⊢
      simp only [State.charge, State.withRegs, chargedCpu] at hd ⊢
      rw [hd]
    · apply storedByte_congr
      · simp only [State.charge, State.withRegs, modifiedState]
        rw [busWrite_ram_other h, busRead_ram', hb, State.setLastBus]
      · exact hd.prg
      · exact hd.prgSize

end Sys2Proof.Machine
end

