-- ==== Sys2Proof/Laws/TickLaws.lean ====
section
/-! SUPPORT. The PPU tick: everything it can do, said once (`tick_effect`), and where it leaves the position (R353). -/

namespace Sys2Proof.Machine

/-- `t` differs from `s` at most in the PPU and in the NMI latch and counter (R357). -/
def TickEffect (s t : State) : Prop :=
  t = { s with cpu.nmiPending := t.cpu.nmiPending, cpu.nmiCount := t.cpu.nmiCount, ppu := t.ppu }

theorem TickEffect.trans {s t u : State} (h : TickEffect s t) (h' : TickEffect t u) : TickEffect s u := by
  unfold TickEffect at *
  rw [h'] at *
  rw [h]

theorem TickEffect.regs {s t : State} (h : TickEffect s t) : t.regs = s.regs := by rw [h]
theorem TickEffect.bus {s t : State} (h : TickEffect s t) : t.bus = s.bus := by rw [h]
theorem TickEffect.cart {s t : State} (h : TickEffect s t) : t.cart = s.cart := by rw [h]
theorem TickEffect.cfg {s t : State} (h : TickEffect s t) : t.cfg = s.cfg := by rw [h]
theorem TickEffect.cycles {s t : State} (h : TickEffect s t) : t.cpu.cycles = s.cpu.cycles := by rw [h]
theorem TickEffect.stall {s t : State} (h : TickEffect s t) : t.cpu.stall = s.cpu.stall := by rw [h]
theorem TickEffect.irqLine {s t : State} (h : TickEffect s t) : t.cpu.irqLine = s.cpu.irqLine := by rw [h]

/-- Every case of an event, for a property of the state it leaves (R340). -/
theorem tickEvent_cases {P : State → Prop} {line : Int} {dot : Nat} {s : State}
    (hnone : P s) (hframe : P (frameLatch s)) (hclear : P (prerenderClear s))
    (hrender : 0 ≤ line → line ≤ 239 → P (renderScanline line.toNat (evaluateSprites line.toNat s)))
    (hhit : ∀ x, P (sprite0Test x line.toNat s)) (hline : P (lineLatch s)) (hvblank : P (vblankStart s)) :
    P (tickEvent line dot s) := by
  unfold tickEvent
  by_cases h1 : line = -1
  · rw [if_pos h1]
    split_ifs
    · exact hframe
    · exact hclear
    · exact hnone
  · rw [if_neg h1]
    by_cases h2 : 0 ≤ line ∧ line ≤ 239
    · rw [if_pos h2]
      by_cases h3 : dot = 0
      · rw [if_pos h3]
        exact hrender h2.1 h2.2
      · rw [if_neg h3]
        split_ifs
        · exact hhit _
        · exact hline
        · exact hnone
    · rw [if_neg h2]
      split_ifs
      · exact hvblank
      · exact hnone

theorem sprite0Test_effect (x line : Nat) (s : State) : TickEffect s (sprite0Test x line s) := by
  unfold sprite0Test
  split
  · rfl
  · rfl

theorem vblankStart_effect (s : State) : TickEffect s (vblankStart s) := by
  unfold vblankStart
  split
  · rfl
  · rfl

theorem renderScanline_effect (line : Nat) (s : State) : TickEffect s (renderScanline line s) := by
  unfold renderScanline
  rfl

theorem evaluateSprites_effect (line : Nat) (s : State) : TickEffect s (evaluateSprites line s) := by
  unfold evaluateSprites
  rfl

theorem tickEvent_effect (line : Int) (dot : Nat) (s : State) : TickEffect s (tickEvent line dot s) :=
  tickEvent_cases rfl rfl rfl (fun _ _ => (evaluateSprites_effect _ s).trans (renderScanline_effect _ _))
    (fun x => sprite0Test_effect x _ s) rfl (vblankStart_effect s)

theorem advancePos_effect (s : State) : TickEffect s (advancePos s) := by
  unfold advancePos
  split
  · rfl
  · rfl

/-- R357: everything a tick can do outside the PPU is to raise the NMI. -/
theorem tick_effect (s : State) : TickEffect s (tick s) :=
  (tickEvent_effect _ _ s).trans (advancePos_effect _)

theorem ticks_effect (n : Nat) (s : State) : TickEffect s (ticks n s) := by
  induction n generalizing s with
  | zero => rfl
  | succ n ih => exact (tick_effect s).trans (ih _)

/-- An event does not move the position. -/
theorem tickEvent_pos (line : Int) (dot : Nat) (s : State) :
    (tickEvent line dot s).ppu.scanline = s.ppu.scanline ∧ (tickEvent line dot s).ppu.dot = s.ppu.dot := by
  refine tickEvent_cases (P := fun t => t.ppu.scanline = s.ppu.scanline ∧ t.ppu.dot = s.ppu.dot)
    ⟨rfl, rfl⟩ ⟨rfl, rfl⟩ ⟨rfl, rfl⟩ (fun _ _ => ?_) (fun x => ?_) ⟨rfl, rfl⟩ ?_
  · unfold renderScanline evaluateSprites
    exact ⟨rfl, rfl⟩
  · unfold sprite0Test
    split <;> exact ⟨rfl, rfl⟩
  · unfold vblankStart
    split <;> exact ⟨rfl, rfl⟩

/-- R353: where a tick leaves the position. -/
theorem tick_pos (s : State) :
    (tick s).ppu.dot = (if s.ppu.dot + 1 = 341 then 0 else s.ppu.dot + 1) ∧
      (tick s).ppu.scanline =
        if s.ppu.dot + 1 = 341 then (if s.ppu.scanline + 1 = 261 then -1 else s.ppu.scanline + 1) else s.ppu.scanline := by
  obtain ⟨h1, h2⟩ := tickEvent_pos s.ppu.scanline s.ppu.dot s
  unfold tick advancePos
  rw [h1, h2]
  split_ifs <;> simp [h1]

end Sys2Proof.Machine
end

