-- ==== Sys2Proof/Laws/InvLaws.lean ====
section
/-! SUPPORT. Every shared operation keeps a state well-formed (`State.Inv`): register updates, bus accesses, the stack, the
interrupt sequence, the instruction shapes and the tick. -/

namespace Sys2Proof.Machine

/-! ### Registers -/

theorem Regs.pOk_setFlag {r r' : Regs} {f : Flag} {v : Bool} (h : r.pOk) (hu : f ≠ .u) (hb : f ≠ .b)
    (hp : r'.p = setFlag f v r.p) : r'.pOk := by
  unfold Regs.pOk at *
  rw [hp]
  simp only [getFlag_setFlag, if_neg hu.symm, if_neg hb.symm]
  exact h

theorem Regs.pOk_nz {r r' : Regs} {v : Byte} (h : r.pOk) (hp : r'.p = nzFlags v r.p) : r'.pOk := by
  unfold Regs.pOk at *
  rw [hp]
  simpa using h

theorem adcCore_pOk {m : Byte} {r : Regs} (h : r.pOk) : (adcCore m r).pOk := by
  unfold Regs.pOk adcCore at *
  simpa using h

theorem compareRegs_pOk {v m : Byte} {r : Regs} (h : r.pOk) : (compareRegs v m r).pOk := by
  unfold Regs.pOk compareRegs at *
  simpa using h

/-- R204, R234: what a pulled status byte is loaded as. -/
theorem pulledP_pOk {v : Byte} {r : Regs} (hp : r.p = pulledP v) : r.pOk := by
  unfold Regs.pOk
  rw [hp]
  simp [pulledP, getFlag, flagBit]

/-- An update of the registers keeps the state well-formed if it keeps bits 5 and 4 of P. -/
theorem State.Inv.mapRegs {s : State} (h : s.Inv) {f : Regs → Regs} (hf : (f s.regs).pOk) : (s.mapRegs f).Inv :=
  { h with p := hf }

theorem State.Inv.charge {s : State} (h : s.Inv) (n : Nat) : (s.charge n).Inv := { h with }

theorem State.Inv.setPC {s : State} (h : s.Inv) (v : Addr) : (s.setPC v).Inv := { h with }

theorem State.Inv.setSP {s : State} (h : s.Inv) (v : Byte) : (s.setSP v).Inv := { h with }

theorem State.Inv.setP {s : State} (h : s.Inv) {v : Byte} (hv : (s.setP v).regs.pOk) : (s.setP v).Inv := { h with p := hv }

theorem State.Inv.setI {s : State} (h : s.Inv) : (s.setP (setFlag .i true s.regs.p)).Inv :=
  h.setP (Regs.pOk_setFlag h.p (f := .i) (v := true) (by decide) (by decide) rfl)

theorem State.Inv.setLastBus {s : State} (h : s.Inv) (v : Byte) : (s.setLastBus v).Inv := { h with }

theorem State.Inv.raiseNmi {s : State} (h : s.Inv) : (Machine.raiseNmi s).Inv := { h with }

/-! ### Reads -/

theorem ReadEffect.inv {s t : State} (h : ReadEffect s t) (hi : s.Inv) (hs : t.ppu.statusOk) : t.Inv := by
  unfold ReadEffect at h
  have e1 := congrArg State.regs h
  have e2 := congrArg (fun u => u.ppu.scanline) h
  have e3 := congrArg (fun u => u.ppu.dot) h
  have e4 := congrArg (fun u => u.ppu.line) h
  have e5 := congrArg (fun u => u.ppu.framebuffer) h
  dsimp only at e1 e2 e3 e4 e5
  refine ⟨by rw [e1]; exact hi.p, ?_, hs, ?_, by rw [e5]; exact hi.rows, ?_⟩
  · unfold Ppu.posOk
    rw [e2, e3]
    exact hi.pos
  · unfold Ppu.lineOk
    rw [e4]
    exact hi.line
  · have hm := hi.memories
    unfold State.memoriesOk at *
    rw [ReadEffect.ram h, ReadEffect.cart h, ReadEffect.oam h, ReadEffect.vram h, ReadEffect.palette h]
    exact hm

/-- R309: bits 4:0 of status stay 0 when bit 7 is cleared. -/
theorem statusOk_and {st m : Byte} (h : st &&& 0x1F = 0) : st &&& m &&& 0x1F = 0 := by
  rw [BitVec.and_assoc, BitVec.and_comm m, ← BitVec.and_assoc, h]
  simp

theorem portRead_statusOk (n : PpuPort) {s : State} (h : s.ppu.statusOk) : (portRead n s).st.ppu.statusOk := by
  cases n
  case status => exact statusOk_and h
  case data =>
    simp only [portRead, readData]
    split <;> exact h
  all_goals exact h

theorem busRead_statusOk (a : Addr) {s : State} (h : s.ppu.statusOk) : (busRead a s).st.ppu.statusOk := by
  simp only [busRead, readRegion]
  cases regionOf a
  case ppuPort => exact portRead_statusOk _ h
  case controller =>
    simp only [readController]
    split <;> exact h
  all_goals exact h

theorem State.Inv.busRead {s : State} (h : s.Inv) (a : Addr) : (Machine.busRead a s).st.Inv :=
  (busRead_effect a s).inv h (busRead_statusOk a h.status)

theorem State.Inv.effAddr {s : State} (h : s.Inv) (m : Operand) : (Machine.effAddr m s).st.Inv := by
  obtain ⟨b, hb⟩ := effAddr_st m s
  rw [hb]
  exact h.setLastBus b

theorem State.Inv.readOperand {s : State} (h : s.Inv) (m : Operand) : (Machine.readOperand m s).st.Inv := by
  cases m <;> first | exact h | exact (h.effAddr _).busRead _

/-! ### Writes -/

/-- R70: every nametable address falls inside VRAM, under every mirroring. -/
theorem vramIndex_lt (mode : Mirroring) (a : PpuAddr) : vramIndex mode a < 2048 := by
  cases mode <;> simp only [vramIndex] <;> omega

/-- R71: every palette index is below 32. -/
theorem paletteIndex_lt (a : PpuAddr) : paletteIndex a < 32 := by
  simp only [paletteIndex]
  split <;> omega

theorem ppuWrite_memories (a : PpuAddr) (v : Byte) {s : State} (h : s.memoriesOk) : (ppuWrite a v s).memoriesOk := by
  obtain ⟨h1, h2, h3, h4, h5, h6⟩ := h
  unfold ppuWrite
  split
  · split
    · exact ⟨h1, h2, writeCell_wf h3 (by omega), h4, h5, h6⟩
    · exact ⟨h1, h2, h3, h4, h5, h6⟩
  · split
    · exact ⟨h1, h2, h3, h4, writeCell_wf h5 (vramIndex_lt _ _), h6⟩
    · exact ⟨h1, h2, h3, h4, h5, writeCell_wf h6 (paletteIndex_lt _)⟩

theorem writeControl_memories (v : Byte) {s : State} (h : s.memoriesOk) : (writeControl v s).memoriesOk := by
  unfold writeControl
  dsimp only
  split <;> exact h

theorem writeScroll_memories (v : Byte) {s : State} (h : s.memoriesOk) : (writeScroll v s).memoriesOk := by
  unfold writeScroll
  split <;> exact h

theorem writeAddress_memories (v : Byte) {s : State} (h : s.memoriesOk) : (writeAddress v s).memoriesOk := by
  unfold writeAddress
  split <;> exact h

theorem writeOam_memories {i : Nat} (hi : i < 256) (v : Byte) {s t : State} (h : s.memoriesOk)
    (ht : t = { s with ppu := { t.ppu with vram := s.ppu.vram, palette := s.ppu.palette } })
    (ho : t.ppu.oam = writeCell s.ppu.oam i v) : t.memoriesOk := by
  obtain ⟨h1, h2, h3, h4, h5, h6⟩ := h
  unfold State.memoriesOk
  rw [ho, ht]
  exact ⟨h1, h2, h3, writeCell_wf h4 hi, h5, h6⟩

theorem portWrite_memories (n : PpuPort) (v : Byte) {s : State} (h : s.memoriesOk) : (portWrite n v s).memoriesOk := by
  cases n
  case control => exact writeControl_memories v h
  case oamData => exact writeOam_memories (i := s.ppu.oamAddr.toNat) (by omega) v h rfl rfl
  case scroll => exact writeScroll_memories v h
  case address => exact writeAddress_memories v h
  case data => exact ppuWrite_memories _ v h
  all_goals exact h

theorem ppuWrite_status (a : PpuAddr) (v : Byte) (s : State) : (ppuWrite a v s).ppu.status = s.ppu.status := by
  unfold ppuWrite
  split
  · split <;> rfl
  · split <;> rfl

/-- No port write changes the status register. -/
theorem portWrite_status (n : PpuPort) (v : Byte) (s : State) : (portWrite n v s).ppu.status = s.ppu.status := by
  cases n
  case control =>
    unfold portWrite writeControl
    dsimp only
    split <;> rfl
  case scroll =>
    unfold portWrite writeScroll
    dsimp only
    split <;> rfl
  case address =>
    unfold portWrite writeAddress
    dsimp only
    split <;> rfl
  case data => exact ppuWrite_status _ v s
  all_goals rfl

theorem State.Inv.dmaByte {s : State} (h : s.Inv) (page : Byte) (i : Nat) : (Machine.dmaByte page s i).Inv := by
  have hr := h.busRead (dmaSource page i)
  unfold Machine.dmaByte
  exact { hr with
    memories := writeOam_memories (i := ((Machine.busRead (dmaSource page i) s).st.ppu.oamAddr.toNat + i) % 256)
      (by omega) _ hr.memories rfl rfl }

theorem State.Inv.dmaFold {s : State} (h : s.Inv) (page : Byte) (is : List Nat) : (is.foldl (Machine.dmaByte page) s).Inv := by
  induction is generalizing s with
  | nil => exact h
  | cons i rest ih => exact ih (h.dmaByte page i)

theorem State.Inv.setStall {s : State} (h : s.Inv) (n : Nat) : State.Inv { s with cpu.stall := n } := { h with }

theorem State.Inv.oamDma {s : State} (h : s.Inv) (page : Byte) : (Machine.oamDma page s).Inv := by
  have hd : (dmaCopy page s).Inv := h.dmaFold page _
  unfold Machine.oamDma
  exact hd.setStall _

theorem WriteEffect.inv {s t : State} (h : WriteEffect s t) (hi : s.Inv) (hs : t.ppu.statusOk) (hm : t.memoriesOk) : t.Inv := by
  unfold WriteEffect at h
  have e1 := congrArg State.regs h
  have e2 := congrArg (fun u => u.ppu.scanline) h
  have e3 := congrArg (fun u => u.ppu.dot) h
  have e4 := congrArg (fun u => u.ppu.line) h
  have e5 := congrArg (fun u => u.ppu.framebuffer) h
  dsimp only at e1 e2 e3 e4 e5
  refine ⟨by rw [e1]; exact hi.p, ?_, hs, ?_, by rw [e5]; exact hi.rows, hm⟩
  · unfold Ppu.posOk
    rw [e2, e3]
    exact hi.pos
  · unfold Ppu.lineOk
    rw [e4]
    exact hi.line

theorem State.Inv.portWrite {s : State} (h : s.Inv) (n : PpuPort) (v : Byte) : (Machine.portWrite n v s).Inv :=
  (portWrite_effect n v s).inv h (by unfold Ppu.statusOk; rw [portWrite_status]; exact h.status)
    (portWrite_memories n v h.memories)

theorem State.Inv.ramWrite {s : State} (h : s.Inv) {i : Nat} (hi : i < 2048) (v : Byte) :
    State.Inv { s with bus.ram := writeCell s.bus.ram i v } := by
  obtain ⟨h1, h2⟩ := h.memories
  exact { h with memories := ⟨writeCell_wf h1 hi, h2⟩ }

theorem ramIndex_lt (a : Addr) : ramIndex a < 2048 := by
  simp only [ramIndex]
  omega

theorem State.Inv.busWrite {s : State} (h : s.Inv) (a : Addr) (v : Byte) : (Machine.busWrite a v s).Inv := by
  have h := h.setLastBus v
  unfold Machine.busWrite writeRegion
  cases regionOf a
  case ram => exact h.ramWrite (ramIndex_lt a) v
  case ppuPort => exact h.portWrite _ v
  case oamDma => exact h.oamDma v
  case controller => exact { h with }
  all_goals exact h

/-! ### Stack and interrupts -/

theorem State.Inv.push {s : State} (h : s.Inv) (v : Byte) : (Machine.push v s).Inv := by
  unfold Machine.push
  split
  · exact (h.setSP _).busWrite _ v
  · exact (h.busWrite _ v).setSP _

theorem State.Inv.pull {s : State} (h : s.Inv) : (Machine.pull s).st.Inv := by
  unfold Machine.pull
  split
  · exact (h.busRead _).setSP _
  · exact (h.setSP _).busRead _

theorem State.Inv.loadPC {s : State} (h : s.Inv) (vector : Addr) : (Machine.loadPC vector s).Inv :=
  ((h.busRead _).busRead _).setPC _

theorem State.Inv.interrupt {s : State} (h : s.Inv) (vector : Addr) (brk : Bool) : (Machine.interrupt vector brk s).Inv := by
  unfold Machine.interrupt
  exact State.Inv.loadPC (State.Inv.setI (((h.push _).push _).push _)) _

theorem State.Inv.returnFromInterrupt {s : State} (h : s.Inv) : (Machine.returnFromInterrupt s).Inv :=
  ((State.Inv.setP h.pull (pulledP_pOk rfl)).pull.pull).setPC _

theorem State.Inv.fetch {s : State} (h : s.Inv) : (Machine.fetch s).st.Inv := (h.busRead _).setPC _

theorem State.Inv.fetchBytes {s : State} (h : s.Inv) (n : Nat) : (Machine.fetchBytes n s).st.Inv := by
  induction n generalizing s with
  | zero => exact h
  | succ n ih => exact ih h.fetch

theorem State.Inv.fetchInstr {s : State} (h : s.Inv) : (Machine.fetchInstr s).st.Inv := h.fetch.fetchBytes _

theorem State.Inv.stallCycle {s : State} (h : s.Inv) : (Machine.stallCycle s).Inv := (h.setStall _).charge _

theorem State.Inv.clearNmi {s : State} (h : s.Inv) : State.Inv { s with cpu.nmiPending := false } := { h with }

theorem State.Inv.serviceNmi {s : State} (h : s.Inv) : (Machine.serviceNmi s).Inv := by
  unfold Machine.serviceNmi
  exact (h.clearNmi.interrupt nmiVector false).charge 7

theorem State.Inv.serviceIrq {s : State} (h : s.Inv) : (Machine.serviceIrq s).Inv := by
  unfold Machine.serviceIrq
  exact (h.interrupt irqVector false).charge 7

/-! ### Instruction shapes -/

theorem State.Inv.regInstr {s t : State} {n : Nat} {f : Regs → Regs} (h : s.Inv) (hf : (f s.regs).pOk)
    (ht : Machine.regInstr n f s = .next t) : t.Inv := by
  cases ht
  exact (h.mapRegs hf).charge n

theorem State.Inv.readInstr {s t : State} {m : Operand} {f : Byte → Regs → Regs} (h : s.Inv)
    (hf : ∀ v, (f v s.regs).pOk) (ht : Machine.readInstr m f s = .next t) : t.Inv := by
  cases ht
  exact ((h.readOperand m).mapRegs (by simpa using hf _)).charge _

theorem State.Inv.storeInstr {s t : State} {m : Operand} {value : Byte → Regs → Byte} (h : s.Inv)
    (ht : Machine.storeInstr m value s = .next t) : t.Inv := by
  cases ht
  exact ((h.effAddr m).busWrite _ _).charge _

theorem State.Inv.modifyOperand {s : State} (h : s.Inv) (f : Bool → Byte → Shifted) (m : Operand) :
    (Machine.modifyOperand f m s).st.Inv := by
  cases m
  case acc =>
    refine h.mapRegs (f := fun r => { r with
      a := (f (getFlag .c s.regs.p) s.regs.a).val
      p := setFlag .c (f (getFlag .c s.regs.p) s.regs.a).carry r.p }) ?_
    exact Regs.pOk_setFlag h.p (f := .c) (by decide) (by decide) rfl
  all_goals
    refine State.Inv.busWrite (State.Inv.setP ((h.effAddr _).busRead _) ?_) _ _
    exact Regs.pOk_setFlag h.p (f := .c) (by decide) (by decide) rfl

theorem State.Inv.modifyInstr {s t : State} {m : Operand} {f : Bool → Byte → Shifted} {g : Byte → Regs → Regs} (h : s.Inv)
    (hg : ∀ v r, r.pOk → (g v r).pOk) (ht : Machine.modifyInstr m f g s = .next t) : t.Inv := by
  cases ht
  have hm := h.modifyOperand f m
  exact (hm.mapRegs (hg _ _ hm.p)).charge _

theorem State.Inv.branchInstr {s t : State} {c : Bool} {o : Byte} (h : s.Inv) (ht : Machine.branchInstr c o s = .next t) :
    t.Inv := by
  unfold Machine.branchInstr at ht
  cases c
  · cases ht
    exact h.charge _
  · cases ht
    exact (h.setPC _).charge _

/-! ### The tick -/

theorem rowsOkFrom_weaken {rows : List FrameRow} {l l' : Nat} (h : rowsOkFrom l rows) (hl : l' ≤ l) : rowsOkFrom l' rows := by
  cases rows with
  | nil => trivial
  | cons r rest =>
    obtain ⟨h1, h2⟩ := h
    exact ⟨by omega, h2⟩

/-- R36: putting a row of a visible line keeps the framebuffer's form. -/
theorem putRow_ok {row : FrameRow} {rows : List FrameRow} {lowest : Nat} (h : rowsOkFrom lowest rows)
    (hl : lowest ≤ row.line) (hv : row.line < 240) (hp : row.pixels.length = 256) : rowsOkFrom lowest (putRow row rows) := by
  induction rows generalizing lowest with
  | nil => exact ⟨hl, hv, hp, trivial⟩
  | cons r rest ih =>
    obtain ⟨h1, h2, h3, h4⟩ := h
    unfold putRow
    split
    · exact ⟨hl, hv, hp, by omega, h2, h3, h4⟩
    · split
      · exact ⟨hl, hv, hp, by rwa [‹row.line = r.line›]⟩
      · exact ⟨h1, h2, h3, ih h4 (by omega)⟩

/-- R343: at most eight cached sprites, by OAM index. -/
theorem evaluateSprites_line (line : Nat) (s : State) : (evaluateSprites line s).ppu.lineOk := by
  constructor
  · simp [evaluateSprites]
  · intro e he
    simp only [evaluateSprites, List.mem_map] at he
    obtain ⟨i, hi, rfl⟩ := he
    have := List.mem_of_mem_take hi
    simp only [spritesOnLine, List.mem_filter, List.mem_range] at this
    exact this.1

theorem statusOk_or {st m : Byte} (h : st &&& 0x1F = 0) (hm : m &&& 0x1F = 0) : (st ||| m) &&& 0x1F = 0 := by
  rw [BitVec.and_comm, BitVec.and_or_distrib_left, BitVec.and_comm _ st, BitVec.and_comm _ m, h, hm]
  rfl

theorem State.Inv.evaluateSprites {s : State} (h : s.Inv) (line : Nat) : (Machine.evaluateSprites line s).Inv := by
  refine { h with status := ?_, line := evaluateSprites_line line s }
  have hs := h.status
  unfold Ppu.statusOk Machine.evaluateSprites at *
  dsimp only
  split
  · exact statusOk_or hs (by decide)
  · exact hs

theorem State.Inv.renderScanline {s : State} (h : s.Inv) {line : Nat} (hl : line < 240) :
    (Machine.renderScanline line s).Inv := by
  refine { h with rows := ?_ }
  unfold Machine.renderScanline
  exact putRow_ok h.rows (Nat.zero_le _) hl (by simp)

theorem State.Inv.orStatus {s : State} (h : s.Inv) {m : Byte} (hm : m &&& 0x1F = 0) :
    State.Inv { s with ppu.status := s.ppu.status ||| m } := { h with status := statusOk_or h.status hm }

theorem State.Inv.sprite0Test {s : State} (h : s.Inv) (x line : Nat) : (Machine.sprite0Test x line s).Inv := by
  unfold Machine.sprite0Test
  split
  · exact h.orStatus (by decide)
  · exact h

theorem State.Inv.vblankStart {s : State} (h : s.Inv) : (Machine.vblankStart s).Inv := by
  have h1 : State.Inv { s with ppu.status := s.ppu.status ||| 0x80, ppu.frameReady := true } :=
    { h with status := statusOk_or h.status (by decide) }
  unfold Machine.vblankStart
  dsimp only
  split
  · exact h1.raiseNmi
  · exact h1

theorem State.Inv.prerenderClear {s : State} (h : s.Inv) : (Machine.prerenderClear s).Inv :=
  { h with status := statusOk_and h.status }

theorem State.Inv.tickEvent {s : State} (h : s.Inv) (line : Int) (dot : Nat) : (Machine.tickEvent line dot s).Inv :=
  tickEvent_cases h { h with } h.prerenderClear
    (fun _ _ => (h.evaluateSprites _).renderScanline (by omega)) (fun x => h.sprite0Test x _) { h with } h.vblankStart

theorem State.Inv.advancePos {s : State} (h : s.Inv) : (Machine.advancePos s).Inv := by
  obtain ⟨h1, h2, h3⟩ := h.pos
  unfold Machine.advancePos
  split
  · refine { h with pos := ?_ }
    unfold Ppu.posOk
    dsimp only
    split <;> omega
  · refine { h with pos := ?_ }
    unfold Ppu.posOk
    dsimp only
    omega

theorem State.Inv.tick {s : State} (h : s.Inv) : (Machine.tick s).Inv := (h.tickEvent _ _).advancePos

theorem State.Inv.ticks {s : State} (h : s.Inv) (n : Nat) : (Machine.ticks n s).Inv := by
  induction n generalizing s with
  | zero => exact h
  | succ n ih => exact ih h.tick

end Sys2Proof.Machine
end

