-- ==== Sys2Proof/Laws/PerInstr.lean ====
section
/-! SUPPORT. The per-instruction laws of the encoding: decoding the bytes of a well-formed instruction gives it back, with what
follows it (spec/30_encoding.md R100 to R119). -/

namespace Sys2Proof.Laws.EncodeDecode

/-- Decoding `encode i`, whatever follows it, gives `i` and what follows. -/
def Statement (i : Instr) : Prop := i.wf = true → ∀ rest : List Byte, decode (encode i ++ rest) = .ok (i, rest)

theorem of_none {i : Instr} {op : Byte} (ho : i.opcode = some op) (hb : i.operandBytes = [])
    (h : opcodeEntry op = .none i) : Statement i := by
  intro _ rest
  simp only [encode, ho, hb, List.cons_append, List.nil_append, decode, h]

theorem of_byte {i : Instr} {op v : Byte} {f : Byte → Instr} (ho : i.opcode = some op) (hb : i.operandBytes = [v])
    (h : opcodeEntry op = .byte f) (hi : f v = i) : Statement i := by
  intro _ rest
  simp only [encode, ho, hb, List.cons_append, List.nil_append, decode, h, hi]

/-- R109: the operand word is low byte first. -/
theorem of_word {i : Instr} {op : Byte} {a : Addr} {f : Addr → Instr} (ho : i.opcode = some op)
    (hb : i.operandBytes = [Machine.lo a, Machine.hi a]) (h : opcodeEntry op = .word f) (hi : f a = i) : Statement i := by
  intro _ rest
  simp only [encode, ho, hb, List.cons_append, List.nil_append, decode, h, Machine.w16_lo_hi, hi]

/-- R119: each unknown opcode byte is an instruction of its own. -/
theorem opcodeEntry_unknown {op : Byte} (h : unknownOpcodes.contains op = true) : opcodeEntry op = .none (.unk op) := by
  simp only [unknownOpcodes, List.contains_iff_mem, List.mem_cons, List.not_mem_nil, or_false] at h
  rcases h with rfl | h
  · rfl
  iterate 37
    rcases h with rfl | h
    · rfl
  subst h
  rfl

theorem lda (m : Operand) : Statement (.lda m) := by
  cases m <;>
    first
      | exact fun h => absurd (show false = true from h) (by decide)
      | exact of_none rfl rfl rfl
      | exact of_byte rfl rfl rfl rfl
      | exact of_word rfl rfl rfl rfl

theorem ldx (m : Operand) : Statement (.ldx m) := by
  cases m <;>
    first
      | exact fun h => absurd (show false = true from h) (by decide)
      | exact of_none rfl rfl rfl
      | exact of_byte rfl rfl rfl rfl
      | exact of_word rfl rfl rfl rfl

theorem ldy (m : Operand) : Statement (.ldy m) := by
  cases m <;>
    first
      | exact fun h => absurd (show false = true from h) (by decide)
      | exact of_none rfl rfl rfl
      | exact of_byte rfl rfl rfl rfl
      | exact of_word rfl rfl rfl rfl

theorem sta (m : Operand) : Statement (.sta m) := by
  cases m <;>
    first
      | exact fun h => absurd (show false = true from h) (by decide)
      | exact of_none rfl rfl rfl
      | exact of_byte rfl rfl rfl rfl
      | exact of_word rfl rfl rfl rfl

theorem stx (m : Operand) : Statement (.stx m) := by
  cases m <;>
    first
      | exact fun h => absurd (show false = true from h) (by decide)
      | exact of_none rfl rfl rfl
      | exact of_byte rfl rfl rfl rfl
      | exact of_word rfl rfl rfl rfl

theorem sty (m : Operand) : Statement (.sty m) := by
  cases m <;>
    first
      | exact fun h => absurd (show false = true from h) (by decide)
      | exact of_none rfl rfl rfl
      | exact of_byte rfl rfl rfl rfl
      | exact of_word rfl rfl rfl rfl

theorem tax : Statement .tax := of_none rfl rfl rfl

theorem tay : Statement .tay := of_none rfl rfl rfl

theorem txa : Statement .txa := of_none rfl rfl rfl

theorem tya : Statement .tya := of_none rfl rfl rfl

theorem tsx : Statement .tsx := of_none rfl rfl rfl

theorem txs : Statement .txs := of_none rfl rfl rfl

theorem adc (m : Operand) : Statement (.adc m) := by
  cases m <;>
    first
      | exact fun h => absurd (show false = true from h) (by decide)
      | exact of_none rfl rfl rfl
      | exact of_byte rfl rfl rfl rfl
      | exact of_word rfl rfl rfl rfl

theorem sbc (m : Operand) : Statement (.sbc m) := by
  cases m <;>
    first
      | exact fun h => absurd (show false = true from h) (by decide)
      | exact of_none rfl rfl rfl
      | exact of_byte rfl rfl rfl rfl
      | exact of_word rfl rfl rfl rfl

theorem and (m : Operand) : Statement (.and m) := by
  cases m <;>
    first
      | exact fun h => absurd (show false = true from h) (by decide)
      | exact of_none rfl rfl rfl
      | exact of_byte rfl rfl rfl rfl
      | exact of_word rfl rfl rfl rfl

theorem ora (m : Operand) : Statement (.ora m) := by
  cases m <;>
    first
      | exact fun h => absurd (show false = true from h) (by decide)
      | exact of_none rfl rfl rfl
      | exact of_byte rfl rfl rfl rfl
      | exact of_word rfl rfl rfl rfl

theorem eor (m : Operand) : Statement (.eor m) := by
  cases m <;>
    first
      | exact fun h => absurd (show false = true from h) (by decide)
      | exact of_none rfl rfl rfl
      | exact of_byte rfl rfl rfl rfl
      | exact of_word rfl rfl rfl rfl

theorem cmp (m : Operand) : Statement (.cmp m) := by
  cases m <;>
    first
      | exact fun h => absurd (show false = true from h) (by decide)
      | exact of_none rfl rfl rfl
      | exact of_byte rfl rfl rfl rfl
      | exact of_word rfl rfl rfl rfl

theorem cpx (m : Operand) : Statement (.cpx m) := by
  cases m <;>
    first
      | exact fun h => absurd (show false = true from h) (by decide)
      | exact of_none rfl rfl rfl
      | exact of_byte rfl rfl rfl rfl
      | exact of_word rfl rfl rfl rfl

theorem cpy (m : Operand) : Statement (.cpy m) := by
  cases m <;>
    first
      | exact fun h => absurd (show false = true from h) (by decide)
      | exact of_none rfl rfl rfl
      | exact of_byte rfl rfl rfl rfl
      | exact of_word rfl rfl rfl rfl

theorem bit (m : Operand) : Statement (.bit m) := by
  cases m <;>
    first
      | exact fun h => absurd (show false = true from h) (by decide)
      | exact of_none rfl rfl rfl
      | exact of_byte rfl rfl rfl rfl
      | exact of_word rfl rfl rfl rfl

theorem inc (m : Operand) : Statement (.inc m) := by
  cases m <;>
    first
      | exact fun h => absurd (show false = true from h) (by decide)
      | exact of_none rfl rfl rfl
      | exact of_byte rfl rfl rfl rfl
      | exact of_word rfl rfl rfl rfl

theorem dec (m : Operand) : Statement (.dec m) := by
  cases m <;>
    first
      | exact fun h => absurd (show false = true from h) (by decide)
      | exact of_none rfl rfl rfl
      | exact of_byte rfl rfl rfl rfl
      | exact of_word rfl rfl rfl rfl

theorem inx : Statement .inx := of_none rfl rfl rfl

theorem iny : Statement .iny := of_none rfl rfl rfl

theorem dex : Statement .dex := of_none rfl rfl rfl

theorem dey : Statement .dey := of_none rfl rfl rfl

theorem asl (m : Operand) : Statement (.asl m) := by
  cases m <;>
    first
      | exact fun h => absurd (show false = true from h) (by decide)
      | exact of_none rfl rfl rfl
      | exact of_byte rfl rfl rfl rfl
      | exact of_word rfl rfl rfl rfl

theorem lsr (m : Operand) : Statement (.lsr m) := by
  cases m <;>
    first
      | exact fun h => absurd (show false = true from h) (by decide)
      | exact of_none rfl rfl rfl
      | exact of_byte rfl rfl rfl rfl
      | exact of_word rfl rfl rfl rfl

theorem rol (m : Operand) : Statement (.rol m) := by
  cases m <;>
    first
      | exact fun h => absurd (show false = true from h) (by decide)
      | exact of_none rfl rfl rfl
      | exact of_byte rfl rfl rfl rfl
      | exact of_word rfl rfl rfl rfl

theorem ror (m : Operand) : Statement (.ror m) := by
  cases m <;>
    first
      | exact fun h => absurd (show false = true from h) (by decide)
      | exact of_none rfl rfl rfl
      | exact of_byte rfl rfl rfl rfl
      | exact of_word rfl rfl rfl rfl

theorem jmpAbs (a : Addr) : Statement (.jmpAbs a) := of_word rfl rfl rfl rfl

theorem jmpInd (p : Addr) : Statement (.jmpInd p) := of_word rfl rfl rfl rfl

theorem jsr (a : Addr) : Statement (.jsr a) := of_word rfl rfl rfl rfl

theorem rts : Statement .rts := of_none rfl rfl rfl

theorem rti : Statement .rti := of_none rfl rfl rfl

theorem brk : Statement .brk := of_none rfl rfl rfl

theorem bpl (o : Byte) : Statement (.bpl o) := of_byte rfl rfl rfl rfl

theorem bmi (o : Byte) : Statement (.bmi o) := of_byte rfl rfl rfl rfl

theorem bvc (o : Byte) : Statement (.bvc o) := of_byte rfl rfl rfl rfl

theorem bvs (o : Byte) : Statement (.bvs o) := of_byte rfl rfl rfl rfl

theorem bcc (o : Byte) : Statement (.bcc o) := of_byte rfl rfl rfl rfl

theorem bcs (o : Byte) : Statement (.bcs o) := of_byte rfl rfl rfl rfl

theorem bne (o : Byte) : Statement (.bne o) := of_byte rfl rfl rfl rfl

theorem beq (o : Byte) : Statement (.beq o) := of_byte rfl rfl rfl rfl

theorem pha : Statement .pha := of_none rfl rfl rfl

theorem pla : Statement .pla := of_none rfl rfl rfl

theorem php : Statement .php := of_none rfl rfl rfl

theorem plp : Statement .plp := of_none rfl rfl rfl

theorem clc : Statement .clc := of_none rfl rfl rfl

theorem sec : Statement .sec := of_none rfl rfl rfl

theorem cli : Statement .cli := of_none rfl rfl rfl

theorem sei : Statement .sei := of_none rfl rfl rfl

theorem clv : Statement .clv := of_none rfl rfl rfl

theorem cld : Statement .cld := of_none rfl rfl rfl

theorem sed : Statement .sed := of_none rfl rfl rfl

theorem nop : Statement .nop := of_none rfl rfl rfl

theorem lax (m : Operand) : Statement (.lax m) := by
  cases m <;>
    first
      | exact fun h => absurd (show false = true from h) (by decide)
      | exact of_none rfl rfl rfl
      | exact of_byte rfl rfl rfl rfl
      | exact of_word rfl rfl rfl rfl

theorem sax (m : Operand) : Statement (.sax m) := by
  cases m <;>
    first
      | exact fun h => absurd (show false = true from h) (by decide)
      | exact of_none rfl rfl rfl
      | exact of_byte rfl rfl rfl rfl
      | exact of_word rfl rfl rfl rfl

theorem slo (m : Operand) : Statement (.slo m) := by
  cases m <;>
    first
      | exact fun h => absurd (show false = true from h) (by decide)
      | exact of_none rfl rfl rfl
      | exact of_byte rfl rfl rfl rfl
      | exact of_word rfl rfl rfl rfl

theorem rla (m : Operand) : Statement (.rla m) := by
  cases m <;>
    first
      | exact fun h => absurd (show false = true from h) (by decide)
      | exact of_none rfl rfl rfl
      | exact of_byte rfl rfl rfl rfl
      | exact of_word rfl rfl rfl rfl

theorem sre (m : Operand) : Statement (.sre m) := by
  cases m <;>
    first
      | exact fun h => absurd (show false = true from h) (by decide)
      | exact of_none rfl rfl rfl
      | exact of_byte rfl rfl rfl rfl
      | exact of_word rfl rfl rfl rfl

theorem rra (m : Operand) : Statement (.rra m) := by
  cases m <;>
    first
      | exact fun h => absurd (show false = true from h) (by decide)
      | exact of_none rfl rfl rfl
      | exact of_byte rfl rfl rfl rfl
      | exact of_word rfl rfl rfl rfl

theorem dcp (m : Operand) : Statement (.dcp m) := by
  cases m <;>
    first
      | exact fun h => absurd (show false = true from h) (by decide)
      | exact of_none rfl rfl rfl
      | exact of_byte rfl rfl rfl rfl
      | exact of_word rfl rfl rfl rfl

theorem isc (m : Operand) : Statement (.isc m) := by
  cases m <;>
    first
      | exact fun h => absurd (show false = true from h) (by decide)
      | exact of_none rfl rfl rfl
      | exact of_byte rfl rfl rfl rfl
      | exact of_word rfl rfl rfl rfl

theorem anc (v : Byte) : Statement (.anc v) := of_byte rfl rfl rfl rfl

theorem anc2B (v : Byte) : Statement (.anc2B v) := of_byte rfl rfl rfl rfl

theorem alr (v : Byte) : Statement (.alr v) := of_byte rfl rfl rfl rfl

theorem arr (v : Byte) : Statement (.arr v) := of_byte rfl rfl rfl rfl

theorem sbx (v : Byte) : Statement (.sbx v) := of_byte rfl rfl rfl rfl

theorem usbc (v : Byte) : Statement (.usbc v) := of_byte rfl rfl rfl rfl

theorem xaa (v : Byte) : Statement (.xaa v) := of_byte rfl rfl rfl rfl

theorem lxa (v : Byte) : Statement (.lxa v) := of_byte rfl rfl rfl rfl

theorem las (a : Addr) : Statement (.las a) := of_word rfl rfl rfl rfl

theorem shy (a : Addr) : Statement (.shy a) := of_word rfl rfl rfl rfl

theorem shx (a : Addr) : Statement (.shx a) := of_word rfl rfl rfl rfl

theorem ahx (m : Operand) : Statement (.ahx m) := by
  cases m <;>
    first
      | exact fun h => absurd (show false = true from h) (by decide)
      | exact of_none rfl rfl rfl
      | exact of_byte rfl rfl rfl rfl
      | exact of_word rfl rfl rfl rfl

theorem tas (a : Addr) : Statement (.tas a) := of_word rfl rfl rfl rfl

theorem unk (op : Byte) : Statement (.unk op) := by
  intro h
  exact of_none (if_pos h) rfl (opcodeEntry_unknown h) h

end Sys2Proof.Laws.EncodeDecode
end

