-- ==== Sys2Proof/Laws/PpuLaws.lean ====
section
/-! SUPPORT. The PPU ports as CPU addresses (R57), the palette aliases (R71), the bits the PPU sets in its status, what a
rendered row reads back as (R36, R344), and when the frame flag comes (R351, R353). -/

namespace Sys2Proof.Machine

/-! ### Ports -/

theorem regionOf_port {a : Addr} (h : 0x2000 ≤ a.toNat) (h' : a.toNat < 0x4000) : regionOf a = .ppuPort := by
  simp only [regionOf]
  split_ifs <;> first | rfl | omega

/-- R54, R57: a read of a port. -/
theorem busRead_port {a : Addr} (h : 0x2000 ≤ a.toNat) (h' : a.toNat < 0x4000) (s : State) :
    busRead a s = ⟨(portRead (portOf a) s).val, (portRead (portOf a) s).st.setLastBus (portRead (portOf a) s).val⟩ := by
  simp [busRead, readRegion, regionOf_port h h']

/-- R55, R57: a write to a port. -/
theorem busWrite_port {a : Addr} (h : 0x2000 ≤ a.toNat) (h' : a.toNat < 0x4000) (v : Byte) (s : State) :
    busWrite a v s = portWrite (portOf a) v (s.setLastBus v) := by
  simp [busWrite, writeRegion, regionOf_port h h']

/-! ### The fields of `t` (R306, R307) -/

/-- A high part and a low byte that do not overlap add up. -/
theorem toNat_or_low {x y : BitVec 15} {k n m : Nat} (hx : x.toNat = n * 2 ^ k) (hy : y.toNat = m) (hm : m < 2 ^ k) :
    (x ||| y).toNat = n * 2 ^ k + m := by
  rw [BitVec.toNat_or, hx, hy, ← Nat.shiftLeft_eq, Nat.shiftLeft_add_eq_or_of_lt hm]

theorem t_low (t : BitVec 15) : (t &&& 0x1F#15).toNat = t.toNat % 32 := Nat.and_two_pow_sub_one_eq_mod t.toNat 5

theorem t_high (t : BitVec 15) : (t &&& 0x7FE0#15).toNat = t.toNat / 32 * 2 ^ 5 := by
  have e : t &&& 0x7FE0#15 = (t >>> 5) <<< 5 := by
    apply BitVec.eq_of_getLsbD_eq
    intro i hi
    interval_cases i <;> simp
  rw [e]
  simp [Nat.shiftRight_eq_div_pow, Nat.shiftLeft_eq]
  omega

theorem t_nametable (t : BitVec 15) : (t &&& 0x0C00#15).toNat = t.toNat / 1024 % 4 * 2 ^ 10 := by
  have e : t &&& 0x0C00#15 = ((t >>> 10) &&& 3#15) <<< 10 := by
    apply BitVec.eq_of_getLsbD_eq
    intro i hi
    interval_cases i <;> simp
  rw [e, BitVec.toNat_shiftLeft, BitVec.toNat_and, BitVec.toNat_ushiftRight, Nat.shiftRight_eq_div_pow, Nat.shiftLeft_eq,
    show (3#15).toNat = 2 ^ 2 - 1 from rfl, Nat.and_two_pow_sub_one_eq_mod]
  omega

/-- R306, the first write: coarse x is replaced. -/
theorem t_coarseX (t : BitVec 15) (v : Byte) :
    ((t &&& 0x7FE0#15) ||| (v >>> 3).setWidth 15).toNat = t.toNat / 32 * 32 + v.toNat / 8 := by
  have h : ∀ v : Byte, ((v >>> 3).setWidth 15 : BitVec 15).toNat = v.toNat / 8 := by decide +kernel
  exact toNat_or_low (t_high t) (h v) (by omega)

/-- R307, the two writes: `t` is the 14-bit address. -/
theorem t_address (t : BitVec 15) (v l : Byte) :
    ((((t &&& 0x00FF#15) ||| ((v &&& 0x3F).setWidth 15 <<< 8)) &&& 0x7F00#15) ||| l.setWidth 15).toNat =
      v.toNat % 64 * 256 + l.toNat := by
  have h : ∀ v : Byte, (((v &&& 0x3F).setWidth 15 <<< 8) &&& 0x7F00#15).toNat = v.toNat % 64 * 2 ^ 8 := by decide +kernel
  have h' : ∀ l : Byte, (l.setWidth 15 : BitVec 15).toNat = l.toNat := by decide +kernel
  have e (x : BitVec 15) : ((t &&& 0x00FF#15) ||| x) &&& 0x7F00#15 = x &&& 0x7F00#15 := by
    apply BitVec.eq_of_getLsbD_eq
    intro i hi
    interval_cases i <;> simp
  rw [e]
  exact toNat_or_low (h v) (h' l) l.isLt

/-- R307, the first write: bits 14:8 are replaced. -/
theorem t_addressHigh (t : BitVec 15) (v : Byte) :
    ((t &&& 0x00FF#15) ||| ((v &&& 0x3F).setWidth 15 <<< 8)).toNat = v.toNat % 64 * 256 + t.toNat % 256 := by
  have h : ∀ v : Byte, ((v &&& 0x3F).setWidth 15 <<< 8 : BitVec 15).toNat = v.toNat % 64 * 2 ^ 8 := by decide +kernel
  have h' : (t &&& 0x00FF#15).toNat = t.toNat % 256 := Nat.and_two_pow_sub_one_eq_mod t.toNat 8
  rw [BitVec.or_comm]
  exact toNat_or_low (h v) h' (by omega)

/-- R307, the second write: bits 7:0 are replaced. -/
theorem t_addressLow (t : BitVec 15) (v : Byte) :
    ((t &&& 0x7F00#15) ||| v.setWidth 15).toNat = t.toNat / 256 * 256 + v.toNat := by
  have h : ∀ l : Byte, (l.setWidth 15 : BitVec 15).toNat = l.toNat := by decide +kernel
  have e : t &&& 0x7F00#15 = (t >>> 8) <<< 8 := by
    apply BitVec.eq_of_getLsbD_eq
    intro i hi
    interval_cases i <;> simp
  refine toNat_or_low (k := 8) ?_ (h v) v.isLt
  rw [e]
  simp [Nat.shiftRight_eq_div_pow, Nat.shiftLeft_eq]
  omega

/-- R306, the second write: fine y and coarse y are replaced. -/
theorem t_scrollY (t : BitVec 15) (v : Byte) :
    ((t &&& 0x0C1F#15) ||| ((v &&& 7).setWidth 15 <<< 12) ||| ((v >>> 3).setWidth 15 <<< 5)).toNat =
      v.toNat % 8 * 4096 + t.toNat / 1024 % 4 * 1024 + v.toNat / 8 * 32 + t.toNat % 32 := by
  have h1 : t &&& 0x0C1F#15 = (t &&& 0x0C00#15) ||| (t &&& 0x1F#15) := by
    rw [← BitVec.and_or_distrib_left]
    rfl
  have h4 : ∀ v : Byte, ((v >>> 3).setWidth 15 <<< 5 : BitVec 15).toNat = v.toNat / 8 * 32 := by decide +kernel
  have h5 : ∀ v : Byte, ((v &&& 7).setWidth 15 <<< 12 : BitVec 15).toNat = v.toNat % 8 * 2 ^ 12 := by decide +kernel
  have a1 := toNat_or_low (t_nametable t) (h4 v) (by omega)
  have a2 := toNat_or_low (h5 v) a1 (by omega)
  have a3 := toNat_or_low (k := 5) (n := v.toNat % 8 * 128 + (t.toNat / 1024 % 4 * 32 + v.toNat / 8))
    (a2.trans (by omega)) (t_low t) (by omega)
  rw [h1]
  have e : (t &&& 0x0C00#15 ||| t &&& 0x1F#15) ||| ((v &&& 7).setWidth 15 <<< 12) ||| ((v >>> 3).setWidth 15 <<< 5) =
      (((v &&& 7).setWidth 15 <<< 12) ||| ((t &&& 0x0C00#15) ||| ((v >>> 3).setWidth 15 <<< 5))) ||| (t &&& 0x1F#15) := by
    ac_rfl
  rw [e, a3]
  omega

/-! ### The palette -/

/-- R71: the four aliased entries are the multiples of 4. -/
theorem paletteIndex_eq (a : PpuAddr) : paletteIndex a = if a.toNat % 4 = 0 then a.toNat % 16 else a.toNat % 32 := by
  unfold paletteIndex
  dsimp only
  split_ifs <;> omega

/-- R347: the byte at a palette address of the PPU bus is that palette entry. -/
theorem ppuByte_palette {i : Nat} (hi : i < 0x20) (s : State) :
    (ppuByte (0x3F00 + i) s).setWidth 6 = readCell s.ppu.palette (paletteIndex (BitVec.ofNat 14 (0x3F00 + i))) := by
  have h : (BitVec.ofNat 14 (0x3F00 + i)).toNat = 0x3F00 + i := by
    simp only [BitVec.toNat_ofNat]
    omega
  simp only [ppuByte, ppuRead, h]
  rw [if_neg (by omega), if_neg (by omega)]
  simp

/-! ### Pixels -/

/-- R345, R356: the two bits of a pattern pixel. -/
theorem patternPixel_bits (pa bit : Nat) (s : State) : PlaneBits (patternPixel pa bit s) pa bit s := by
  unfold PlaneBits patternPixel ppuByte
  generalize (ppuRead (BitVec.ofNat 14 pa) s).getLsbD bit = a
  generalize (ppuRead (BitVec.ofNat 14 (pa + 8)) s).getLsbD bit = b
  revert a b
  decide

/-- R345: two bits of a number, one by one. -/
theorem twoBits (n k : Nat) :
    n / 2 ^ k % 4 = (if n.testBit k then 1 else 0) + (if n.testBit (k + 1) then 2 else 0) := by
  have e : n / 2 ^ (k + 1) = n / 2 ^ k / 2 := by rw [Nat.pow_succ, Nat.div_div_eq_div_mul]
  simp only [Nat.testBit_eq_decide_div_mod_eq, decide_eq_true_eq, e]
  split_ifs <;> omega

/-- R345: each half of the world turns one bit of the base nametable around. -/
theorem nametableBase (r : Byte) (right lower : Bool) :
    0x2000 + ((r.toNat % 4 ^^^ (if right then 1 else 0)) ^^^ (if lower then 2 else 0)) * 0x400 =
      0x2000 + (if r.getLsbD 0 != right then 0x400 else 0) + (if r.getLsbD 1 != lower then 0x800 else 0) := by
  revert r right lower
  decide +kernel

/-- R346 for one cached sprite: when it shows an opaque pixel, and which. -/
theorem spritePixelOf_some (e : SpriteEntry) (x line : Nat) (s : State) (p : SpritePixel) :
    spritePixelOf e x line s = some p ↔
      (e.x.toNat ≤ x ∧ x < e.x.toNat + 8 ∧ spritePatternPixel e x line s ≠ 0) ∧
        p = ⟨spritePatternPixel e x line s, e.attr.toNat % 4, e.attr.getLsbD 5, decide (e.index = 0)⟩ := by
  unfold spritePixelOf spriteHasColumn
  dsimp only
  split_ifs with h
  · have h' : e.x.toNat ≤ x ∧ x < e.x.toNat + 8 ∧ spritePatternPixel e x line s ≠ 0 := by simpa [and_assoc] using h
    simp only [h'.1, h'.2.1, h'.2.2, ne_eq, not_false_iff, and_self, true_and, Option.some.injEq]
    exact eq_comm
  · have h' : ¬ (e.x.toNat ≤ x ∧ x < e.x.toNat + 8 ∧ spritePatternPixel e x line s ≠ 0) := by
      simpa [and_assoc] using h
    exact iff_of_false (by simp) fun c => h' c.1

theorem spritePixelOf_none (e : SpriteEntry) (x line : Nat) (s : State) :
    spritePixelOf e x line s = none ↔
      ¬ (e.x.toNat ≤ x ∧ x < e.x.toNat + 8 ∧ spritePatternPixel e x line s ≠ 0) := by
  simp [spritePixelOf, spriteHasColumn, and_assoc]

/-! ### Status bits -/

/-- Setting bit 7, 6 or 5 of a status byte sets that bit alone. -/
theorem getLsbD_or_status (s : Byte) (k : Nat) :
    (s ||| 0x80).getLsbD k = (s.getLsbD k || k == 7) ∧ (s ||| 0x40).getLsbD k = (s.getLsbD k || k == 6) ∧
      (s ||| 0x20).getLsbD k = (s.getLsbD k || k == 5) := by
  by_cases hk : k < 8
  · have h : ∀ k : Fin 8, ∀ s : Byte,
        (s ||| 0x80).getLsbD k = (s.getLsbD k || k.val == 7) ∧ (s ||| 0x40).getLsbD k = (s.getLsbD k || k.val == 6) ∧
          (s ||| 0x20).getLsbD k = (s.getLsbD k || k.val == 5) := by decide +kernel
    exact h ⟨k, hk⟩ s
  · simp only [BitVec.getLsbD_of_ge _ _ (Nat.le_of_not_lt hk), Bool.false_or]
    refine ⟨?_, ?_, ?_⟩ <;> simp <;> omega

theorem advancePos_status (s : State) : (advancePos s).ppu.status = s.ppu.status := by
  unfold advancePos
  split <;> rfl

theorem advancePos_frameReady (s : State) : (advancePos s).ppu.frameReady = s.ppu.frameReady := by
  unfold advancePos
  split <;> rfl

/-! ### Rendered rows -/

/-- R36, R344: putting a row makes that line read as the row, and leaves every other line alone. -/
theorem renderedColour_putRow (row : FrameRow) (rows : List FrameRow) (x : Nat) :
    renderedColour x row.line (putRow row rows) = row.pixels[x]? ∧
      ∀ y, y ≠ row.line → renderedColour x y (putRow row rows) = renderedColour x y rows := by
  induction rows with
  | nil =>
    simp only [putRow, renderedColour, if_true, true_and]
    intro y hy
    rw [if_neg (Ne.symm hy)]
  | cons r rest ih =>
    simp only [putRow]
    split_ifs with h1 h2
    · simp only [renderedColour, if_true, true_and]
      intro y hy
      rw [if_neg (Ne.symm hy)]
    · simp only [renderedColour, if_true, true_and]
      intro y hy
      rw [if_neg (Ne.symm hy), if_neg (by omega)]
    · simp only [renderedColour]
      exact ⟨by rw [if_neg (by omega), ih.1], fun y hy => by rw [ih.2 y hy]⟩

/-- R340, R344: the tick at dot 0 of a visible line. -/
theorem tick_render {s : State} (h0 : 0 ≤ s.ppu.scanline) (h1 : s.ppu.scanline ≤ 239) (hd : s.ppu.dot = 0) :
    tick s = { renderScanline s.ppu.scanline.toNat (evaluateSprites s.ppu.scanline.toNat s) with ppu.dot := 1 } := by
  have : tick s = advancePos (renderScanline s.ppu.scanline.toNat (evaluateSprites s.ppu.scanline.toNat s)) := by
    simp [tick, tickEvent, h0, h1, hd, show s.ppu.scanline ≠ -1 by omega]
  rw [this]
  unfold renderScanline evaluateSprites advancePos
  simp [hd]

/-! ### The frame flag -/

/-- The ticks from a position until the tick at (241, 1) has run. -/
def ticksToFrame (p : Ppu) : Nat := ((82523 - ((p.scanline + 1) * 341 + p.dot)) % 89342 + 1).toNat

theorem ticksToFrame_le (p : Ppu) : 1 ≤ ticksToFrame p ∧ ticksToFrame p ≤ 89342 := by
  unfold ticksToFrame
  omega

/-- A tick does not clear the frame flag. -/
theorem tick_frameReady {s : State} (h : s.ppu.frameReady = true) : (tick s).ppu.frameReady = true := by
  unfold tick
  rw [advancePos_frameReady]
  refine tickEvent_cases (P := fun t => t.ppu.frameReady = true) h h h (fun _ _ => ?_) (fun x => ?_) h ?_
  · unfold renderScanline evaluateSprites
    exact h
  · unfold sprite0Test
    split <;> exact h
  · unfold vblankStart
    split <;> rfl

/-- A tick sets the frame flag or comes one nearer to it. -/
theorem tick_ticksToFrame {s : State} (hp : s.ppu.posOk) :
    (tick s).ppu.posOk ∧ ((tick s).ppu.frameReady = true ∨ ticksToFrame s.ppu = ticksToFrame (tick s).ppu + 1) := by
  obtain ⟨h1, h2⟩ := tick_pos s
  obtain ⟨p1, p2, p3⟩ := hp
  refine ⟨⟨?_, ?_, ?_⟩, ?_⟩
  · rw [h2]
    split_ifs <;> omega
  · rw [h2]
    split_ifs <;> omega
  · rw [h1]
    split_ifs <;> omega
  · by_cases h : s.ppu.scanline = 241 ∧ s.ppu.dot = 1
    · left
      unfold tick
      rw [advancePos_frameReady, h.1, h.2]
      unfold tickEvent
      rw [if_neg (by omega), if_neg (by omega), if_pos ⟨by rfl, by rfl⟩]
      unfold vblankStart
      split <;> rfl
    · right
      unfold ticksToFrame
      rw [h1, h2]
      split_ifs <;> omega

end Sys2Proof.Machine
end

