-- ==== Sys2Proof/Laws/RunLaws.lean ====
section
/-! SUPPORT. An instruction whose meaning is one of the shared shapes answers as the shape's statement says; and the stack and
interrupt operations in the statements' terms. -/

namespace Sys2Proof.Machine

theorem RegRun.of {i : Instr} {n : Nat} {f : Regs → Regs} {s : State} (h : exec i s = regInstr n f s) : RegRun i n f s := by
  unfold RegRun
  rw [h]
  exact regInstr_next

theorem ReadRun.of {i : Instr} {m : Operand} {f : Byte → Regs → Regs} {s : State} (h : exec i s = readInstr m f s) :
    ReadRun i m f s := by
  unfold ReadRun
  rw [h]
  exact readInstr_next

theorem StoreRun.of {i : Instr} {m : Operand} {value : Byte → Regs → Byte} {s : State} (h : exec i s = storeInstr m value s)
    (hw : Memory.wf 2048 s.bus.ram = true) : StoreRun i m (value (effAddr m s).high s.regs) s.regs s := by
  unfold StoreRun
  rw [h]
  refine ⟨_, rfl, by simp, ?_, ?_⟩
  · simp [State.charge]
  · exact busWrite_storeFrame hw _ _ id

/-- A read-modify-write instruction on memory. -/
theorem ModifyRun.of {i : Instr} {m : Operand} {f : Bool → Byte → Shifted} {g : Byte → Regs → Regs} {s : State}
    (h : exec i s = modifyInstr m f g s) (hm : inMemory m = true) (hw : Memory.wf 2048 s.bus.ram = true) :
    ModifyRun i m (f (getFlag .c s.regs.p) (operandByte m s)).val
      (g (f (getFlag .c s.regs.p) (operandByte m s)).val
        { s.regs with p := setFlag .c (f (getFlag .c s.regs.p) (operandByte m s)).carry s.regs.p }) s := by
  unfold ModifyRun
  rw [h, modifyInstr_memory hm]
  refine ⟨_, rfl, rfl, ?_, modified_storeFrame hw _ _⟩
  simp [State.charge, State.withRegs, modifiedState, modified, operandByte]

/-! ### The stack -/

theorem pushedCell_zero (s : State) : pushedCell s 0 = pushCell s.cfg.stackOrder s.regs.sp := by
  simp [pushedCell]

theorem pushedCell_one (s : State) : pushedCell s 1 = pushCell s.cfg.stackOrder (s.regs.sp - 1) := rfl

theorem pushedCell_two (s : State) : pushedCell s 2 = pushCell s.cfg.stackOrder (s.regs.sp - 1 - 1) := by
  simp only [pushedCell]
  congr 1
  bv_omega

theorem pulledByte_zero (s : State) :
    pulledByte s 0 = readCell s.bus.ram (pullCell s.cfg.stackOrder s.regs.sp) := by
  simp [pulledByte]

theorem pulledByte_one (s : State) :
    pulledByte s 1 = readCell s.bus.ram (pullCell s.cfg.stackOrder (s.regs.sp + 1)) := rfl

theorem pulledByte_two (s : State) :
    pulledByte s 2 = readCell s.bus.ram (pullCell s.cfg.stackOrder (s.regs.sp + 1 + 1)) := by
  simp only [pulledByte]
  congr 2
  bv_omega

/-- Pushes less than 256 apart go to different cells. -/
theorem pushedCell_ne (s : State) {j k : Nat} (hj : j < 256) (hk : k < 256) (h : j ≠ k) : pushedCell s j ≠ pushedCell s k := by
  intro e
  have := pushCell_inj e
  bv_omega

theorem pushedCell_lt (s : State) (k : Nat) : pushedCell s k < 2048 := pushCell_lt _ _

/-- One push. -/
theorem Pushes.one {n : Nat} {s t : State} {v : Byte} (hw : Memory.wf 2048 s.bus.ram = true)
    (hr : t.bus.ram = writeCell s.bus.ram (pushedCell s 0) v)
    (ht : t = { s with
      regs := t.regs
      cpu := chargedCpu n s
      bus := { s.bus with ram := t.bus.ram, lastBus := t.bus.lastBus } })
    (hs : t.regs.sp = s.regs.sp - 1) : Pushes [v] n s t := by
  refine ⟨ht, hs, ?_, ?_⟩
  · intro k u hk
    match k with
    | 0 =>
      cases hk
      rw [hr, readCell_writeCell hw, if_pos rfl]
    | k + 1 => cases hk
  · intro c hc
    rw [hr, readCell_writeCell hw, if_neg (hc 0 (by simp))]

/-- Two pushes. -/
theorem Pushes.two {n : Nat} {s t : State} {u v : Byte} (hw : Memory.wf 2048 s.bus.ram = true)
    (hr : t.bus.ram = writeCell (writeCell s.bus.ram (pushedCell s 0) u) (pushedCell s 1) v)
    (ht : t = { s with
      regs := t.regs
      cpu := chargedCpu n s
      bus := { s.bus with ram := t.bus.ram, lastBus := t.bus.lastBus } })
    (hs : t.regs.sp = s.regs.sp - 2) : Pushes [u, v] n s t := by
  have hw1 := writeCell_wf (v := u) hw (pushedCell_lt s 0)
  refine ⟨ht, hs, ?_, ?_⟩
  · intro k x hk
    rw [hr, readCell_writeCell hw1, readCell_writeCell hw]
    match k with
    | 0 =>
      cases hk
      rw [if_neg (pushedCell_ne s (by decide) (by decide) (by decide)), if_pos rfl]
    | 1 =>
      cases hk
      rw [if_pos rfl]
    | k + 2 => cases hk
  · intro c hc
    rw [hr, readCell_writeCell hw1, readCell_writeCell hw, if_neg (hc 1 (by simp)), if_neg (hc 0 (by simp))]

/-- Three pushes. -/
theorem Pushes.three {n : Nat} {s t : State} {u v w : Byte} (hw : Memory.wf 2048 s.bus.ram = true)
    (hr : t.bus.ram =
      writeCell (writeCell (writeCell s.bus.ram (pushedCell s 0) u) (pushedCell s 1) v) (pushedCell s 2) w)
    (ht : t = { s with
      regs := t.regs
      cpu := chargedCpu n s
      bus := { s.bus with ram := t.bus.ram, lastBus := t.bus.lastBus } })
    (hs : t.regs.sp = s.regs.sp - 3) : Pushes [u, v, w] n s t := by
  have hw1 := writeCell_wf (v := u) hw (pushedCell_lt s 0)
  have hw2 := writeCell_wf (v := v) hw1 (pushedCell_lt s 1)
  refine ⟨ht, hs, ?_, ?_⟩
  · intro k x hk
    rw [hr, readCell_writeCell hw2, readCell_writeCell hw1, readCell_writeCell hw]
    match k with
    | 0 =>
      cases hk
      rw [if_neg (pushedCell_ne s (by decide) (by decide) (by decide)),
        if_neg (pushedCell_ne s (by decide) (by decide) (by decide)), if_pos rfl]
    | 1 =>
      cases hk
      rw [if_neg (pushedCell_ne s (by decide) (by decide) (by decide)), if_pos rfl]
    | 2 =>
      cases hk
      rw [if_pos rfl]
    | k + 3 => cases hk
  · intro c hc
    rw [hr, readCell_writeCell hw2, readCell_writeCell hw1, readCell_writeCell hw, if_neg (hc 2 (by simp)),
      if_neg (hc 1 (by simp)), if_neg (hc 0 (by simp))]

end Sys2Proof.Machine
end

