-- ==== Sys2Proof/Laws/StepLaws.lean ====
section
/-! SUPPORT. Every arm of `exec` answers a next state, and every fetched byte string decodes (R101, R421). -/

namespace Sys2Proof.Machine

/-- R421: no instruction stops. -/
theorem exec_next (i : Instr) (s : State) : ∃ t, exec i s = .next t := by
  cases i <;> first
    | exact ⟨_, rfl⟩
    | (simp only [exec, execBpl, execBmi, execBvc, execBvs, execBcc, execBcs, execBne, execBeq, branchInstr]
       split <;> exact ⟨_, rfl⟩)

/-- R101: the bytes the fetch asks for decode. -/
theorem decode_fetchInstr (s : State) : ∃ i rest, decode (fetchInstr s).bytes = .ok (i, rest) := by
  simp only [fetchInstr, decode, operandBytes]
  cases h : opcodeEntry (fetch s).val <;> simp [fetchBytes]

end Sys2Proof.Machine
end

