-- ==== Sys2Proof/Tests/Slice0.lean ====
section
/-! SUPPORT. Tests of the model against the spec's encodings and its worked vectors (spec/95_test_vectors.md), the ill-formed
terms the well-formedness check refuses, and a witness for the hypotheses of every statement that has some. -/

namespace Sys2Proof.Tests

set_option Elab.async false

open Sys2Proof Sys2Proof.Machine

/-! ### Helpers -/

/-- A memory with these cells. -/
def cells {w : Nat} (m : List (Nat × BitVec w)) : List (Nat × BitVec w) := m.foldl (fun m c => writeCell m c.1 c.2) []

/-- The machine of the vectors: PRG holds the vectors NMI $A000, reset $8000, IRQ $9000; the given bytes lie at PC. -/
def machine (bytes : List Byte) (r : Regs) (ram : List (Nat × Byte)) : State :=
  placeBytes r.pc bytes
    { State.reset with
      regs := r
      bus.ram := cells ram
      cart.prg := [(0x7FFB, 0xA0), (0x7FFD, 0x80), (0x7FFF, 0x90)] }

/-- The registers of the common start state (PC, A, X, Y, SP, P). -/
def start : Regs := ⟨0x8000, 0, 0, 0, 0xFD, 0x24⟩

/-- One CPU step from `s` goes on, returns `cycles`, and leaves the registers and the RAM bytes given. -/
def stepsTo (s : State) (r : Regs) (cycles : Nat) (ram : List (Nat × Byte)) : Bool :=
  match cpuStep s with
  | .next t => t.regs == r && returnedCycles s t == cycles && ram.all fun c => readCell t.bus.ram c.1 == c.2
  | .fault _ => false
  | .refused _ => false

/-- One row of the vector tables: bytes at PC, start registers, start RAM; end registers, cycles returned, end RAM. -/
def runs (bytes : List Byte) (r : Regs) (ram : List (Nat × Byte)) (r' : Regs) (cycles : Nat) (ram' : List (Nat × Byte)) : Bool :=
  stepsTo (machine bytes r ram) r' cycles ram'

/-- The bytes are one whole instruction, and it is this one. -/
def decodes (bytes : List Byte) (i : Instr) : Bool :=
  match decode bytes with
  | .ok (j, rest) => j == i && rest.isEmpty
  | .error _ => false

/-! ### Ill-formed terms, one for each check of `Instr.wf` -/

theorem smoke_read_form : Instr.wf (.lda .acc) = false ∧ Instr.wf (.cmp (.zpy 0x10)) = false := by decide
theorem smoke_ldx_form : Instr.wf (.ldx (.zpx 0x10)) = false := by decide
theorem smoke_ldy_form : Instr.wf (.ldy (.aby 0x0200)) = false := by decide
theorem smoke_store_form : Instr.wf (.sta (.imm 0x10)) = false ∧ Instr.wf (.slo .acc) = false := by decide
theorem smoke_stx_form : Instr.wf (.stx (.abx 0x0200)) = false := by decide
theorem smoke_sty_form : Instr.wf (.sty (.zpy 0x10)) = false := by decide
theorem smoke_cpx_form : Instr.wf (.cpx (.zpx 0x10)) = false ∧ Instr.wf (.cpy (.abx 0x0200)) = false := by decide
theorem smoke_bit_form : Instr.wf (.bit (.imm 0x10)) = false := by decide
theorem smoke_inc_form : Instr.wf (.inc .acc) = false ∧ Instr.wf (.dec (.aby 0x0200)) = false := by decide
theorem smoke_shift_form : Instr.wf (.asl (.izx 0x10)) = false := by decide
theorem smoke_lax_form : Instr.wf (.lax (.imm 0x10)) = false := by decide
theorem smoke_sax_form : Instr.wf (.sax (.aby 0x0200)) = false := by decide
theorem smoke_ahx_form : Instr.wf (.ahx (.abs 0x0200)) = false := by decide
/-- $EA is NOP, no unknown opcode. -/
theorem smoke_unknown_opcode : Instr.wf (.unk 0xEA) = false := by decide

/-! ### Decoding: one word of every constructor, from the matrix of R118 and the formats of R100 -/

theorem test_decode_loads_stores_transfers :
    decodes [0xA1, 0xC5] (.lda (.izx 0xC5)) ∧
    decodes [0xB6, 0xC5] (.ldx (.zpy 0xC5)) ∧
    decodes [0xBC, 0xC5, 0x07] (.ldy (.abx 0x07C5)) ∧
    decodes [0x91, 0xC5] (.sta (.izy 0xC5)) ∧
    decodes [0x8E, 0xC5, 0x07] (.stx (.abs 0x07C5)) ∧
    decodes [0x94, 0xC5] (.sty (.zpx 0xC5)) ∧
    decodes [0xAA] .tax ∧
    decodes [0xA8] .tay ∧
    decodes [0x8A] .txa ∧
    decodes [0x98] .tya ∧
    decodes [0xBA] .tsx ∧
    decodes [0x9A] .txs := by
  decide +kernel

theorem test_decode_arithmetic_logic :
    decodes [0x79, 0xC5, 0x07] (.adc (.aby 0x07C5)) ∧
    decodes [0xE9, 0xC5] (.sbc (.imm 0xC5)) ∧
    decodes [0x25, 0xC5] (.and (.zp 0xC5)) ∧
    decodes [0x0D, 0xC5, 0x07] (.ora (.abs 0x07C5)) ∧
    decodes [0x51, 0xC5] (.eor (.izy 0xC5)) ∧
    decodes [0xDD, 0xC5, 0x07] (.cmp (.abx 0x07C5)) ∧
    decodes [0xE4, 0xC5] (.cpx (.zp 0xC5)) ∧
    decodes [0xCC, 0xC5, 0x07] (.cpy (.abs 0x07C5)) ∧
    decodes [0x2C, 0xC5, 0x07] (.bit (.abs 0x07C5)) ∧
    decodes [0xF6, 0xC5] (.inc (.zpx 0xC5)) ∧
    decodes [0xDE, 0xC5, 0x07] (.dec (.abx 0x07C5)) ∧
    decodes [0xE8] .inx ∧
    decodes [0xC8] .iny ∧
    decodes [0xCA] .dex ∧
    decodes [0x88] .dey := by
  decide +kernel

theorem test_decode_shifts :
    decodes [0x0A] (.asl .acc) ∧
    decodes [0x46, 0xC5] (.lsr (.zp 0xC5)) ∧
    decodes [0x3E, 0xC5, 0x07] (.rol (.abx 0x07C5)) ∧
    decodes [0x76, 0xC5] (.ror (.zpx 0xC5)) := by
  decide +kernel

theorem test_decode_control_flow :
    decodes [0x4C, 0x34, 0x12] (.jmpAbs 0x1234) ∧
    decodes [0x6C, 0xFF, 0x10] (.jmpInd 0x10FF) ∧
    decodes [0x20, 0xC5, 0x07] (.jsr 0x07C5) ∧
    decodes [0x60] .rts ∧
    decodes [0x40] .rti ∧
    decodes [0x00] .brk ∧
    decodes [0x10, 0x9E] (.bpl 0x9E) ∧
    decodes [0x30, 0x9E] (.bmi 0x9E) ∧
    decodes [0x50, 0x9E] (.bvc 0x9E) ∧
    decodes [0x70, 0x9E] (.bvs 0x9E) ∧
    decodes [0x90, 0x9E] (.bcc 0x9E) ∧
    decodes [0xB0, 0x9E] (.bcs 0x9E) ∧
    decodes [0xD0, 0x9E] (.bne 0x9E) ∧
    decodes [0xF0, 0x9E] (.beq 0x9E) := by
  decide +kernel

theorem test_decode_stack_flags :
    decodes [0x48] .pha ∧
    decodes [0x68] .pla ∧
    decodes [0x08] .php ∧
    decodes [0x28] .plp ∧
    decodes [0x18] .clc ∧
    decodes [0x38] .sec ∧
    decodes [0x58] .cli ∧
    decodes [0x78] .sei ∧
    decodes [0xB8] .clv ∧
    decodes [0xD8] .cld ∧
    decodes [0xF8] .sed ∧
    decodes [0xEA] .nop := by
  decide +kernel

theorem test_decode_unofficial :
    decodes [0xB3, 0xC5] (.lax (.izy 0xC5)) ∧
    decodes [0x97, 0xC5] (.sax (.zpy 0xC5)) ∧
    decodes [0x1B, 0xC5, 0x07] (.slo (.aby 0x07C5)) ∧
    decodes [0x23, 0xC5] (.rla (.izx 0xC5)) ∧
    decodes [0x5F, 0xC5, 0x07] (.sre (.abx 0x07C5)) ∧
    decodes [0x67, 0xC5] (.rra (.zp 0xC5)) ∧
    decodes [0xCF, 0xC5, 0x07] (.dcp (.abs 0x07C5)) ∧
    decodes [0xF7, 0xC5] (.isc (.zpx 0xC5)) ∧
    decodes [0x0B, 0x80] (.anc 0x80) ∧
    decodes [0x2B, 0x80] (.anc2B 0x80) ∧
    decodes [0x4B, 0x9E] (.alr 0x9E) ∧
    decodes [0x6B, 0x9E] (.arr 0x9E) ∧
    decodes [0xCB, 0x9E] (.sbx 0x9E) ∧
    decodes [0xEB, 0x9E] (.usbc 0x9E) ∧
    decodes [0x8B, 0x9E] (.xaa 0x9E) ∧
    decodes [0xAB, 0x9E] (.lxa 0x9E) ∧
    decodes [0xBB, 0xC5, 0x07] (.las 0x07C5) ∧
    decodes [0x9C, 0xC5, 0x07] (.shy 0x07C5) ∧
    decodes [0x9E, 0xC5, 0x07] (.shx 0x07C5) ∧
    decodes [0x9F, 0xC5, 0x07] (.ahx (.aby 0x07C5)) ∧
    decodes [0x9B, 0xC5, 0x07] (.tas 0x07C5) ∧
    decodes [0xFC] (.unk 0xFC) := by
  decide +kernel

/-! ### One instruction: the vectors of spec/95_test_vectors.md for file 40 (R140 to R151) -/

/-- `LDA ($FE,X)` -/
theorem test_lda : runs [0xA1, 0xFE] ⟨0x8000, 0x00, 0x01, 0x00, 0xFD, 0x24⟩ [(0x0000, 0x02), (0x00FF, 0x34), (0x0100, 0x07), (0x0234, 0x99)]
      ⟨0x8002, 0x99, 0x01, 0x00, 0xFD, 0xA4⟩ 6 [] = true := by
  decide +kernel

/-- `LDA ($FF),Y` -/
theorem test_lda_2 : runs [0xB1, 0xFF] ⟨0x8000, 0x00, 0x00, 0x01, 0xFD, 0x24⟩ [(0x0000, 0x02), (0x00FF, 0xFF), (0x0100, 0x07), (0x0300, 0x66)]
      ⟨0x8002, 0x66, 0x00, 0x01, 0xFD, 0x24⟩ 6 [] = true := by
  decide +kernel

/-- `LDX $F0,Y` -/
theorem test_ldx : runs [0xB6, 0xF0] ⟨0x8000, 0x00, 0x00, 0x20, 0xFD, 0x24⟩ [(0x0010, 0x7F)]
      ⟨0x8002, 0x00, 0x7F, 0x20, 0xFD, 0x24⟩ 4 [] = true := by
  decide +kernel

/-- `LDY $10` -/
theorem test_ldy : runs [0xA4, 0x10] ⟨0x8000, 0x00, 0x00, 0x00, 0xFD, 0x24⟩ [(0x0010, 0xFF)]
      ⟨0x8002, 0x00, 0x00, 0xFF, 0xFD, 0xA4⟩ 3 [] = true := by
  decide +kernel

/-- `STA $02FF,X` -/
theorem test_sta : runs [0x9D, 0xFF, 0x02] ⟨0x8000, 0xAA, 0x01, 0x00, 0xFD, 0x24⟩ []
      ⟨0x8003, 0xAA, 0x01, 0x00, 0xFD, 0x24⟩ 5 [(0x0300, 0xAA)] = true := by
  decide +kernel

/-- `STA ($10,X)` -/
theorem test_sta_2 : runs [0x81, 0x10] ⟨0x8000, 0x69, 0x00, 0x00, 0xFD, 0x24⟩ [(0x0010, 0x00), (0x0011, 0x03)]
      ⟨0x8002, 0x69, 0x00, 0x00, 0xFD, 0x24⟩ 6 [(0x0300, 0x69)] = true := by
  decide +kernel

/-- `STX $10` -/
theorem test_stx : runs [0x86, 0x10] ⟨0x8000, 0x00, 0x00, 0x00, 0xFD, 0xA4⟩ []
      ⟨0x8002, 0x00, 0x00, 0x00, 0xFD, 0xA4⟩ 3 [(0x0010, 0x00)] = true := by
  decide +kernel

/-- `STY $0123` -/
theorem test_sty : runs [0x8C, 0x23, 0x01] ⟨0x8000, 0x00, 0x00, 0x9C, 0xFD, 0x24⟩ []
      ⟨0x8003, 0x00, 0x00, 0x9C, 0xFD, 0x24⟩ 4 [(0x0123, 0x9C)] = true := by
  decide +kernel

/-- `TAX` -/
theorem test_tax : runs [0xAA] ⟨0x8000, 0x80, 0x00, 0x00, 0xFD, 0x24⟩ []
      ⟨0x8001, 0x80, 0x80, 0x00, 0xFD, 0xA4⟩ 2 [] = true := by
  decide +kernel

/-- `TAY` -/
theorem test_tay : runs [0xA8] ⟨0x8000, 0x00, 0x00, 0x11, 0xFD, 0x24⟩ []
      ⟨0x8001, 0x00, 0x00, 0x00, 0xFD, 0x26⟩ 2 [] = true := by
  decide +kernel

/-- `TXA` -/
theorem test_txa : runs [0x8A] ⟨0x8000, 0xFF, 0x01, 0x00, 0xFD, 0xA4⟩ []
      ⟨0x8001, 0x01, 0x01, 0x00, 0xFD, 0x24⟩ 2 [] = true := by
  decide +kernel

/-- `TYA` -/
theorem test_tya : runs [0x98] ⟨0x8000, 0x00, 0x00, 0xF0, 0xFD, 0x24⟩ []
      ⟨0x8001, 0xF0, 0x00, 0xF0, 0xFD, 0xA4⟩ 2 [] = true := by
  decide +kernel

/-- `TSX` -/
theorem test_tsx : runs [0xBA] ⟨0x8000, 0x00, 0x00, 0x00, 0xFD, 0x24⟩ []
      ⟨0x8001, 0x00, 0xFD, 0x00, 0xFD, 0xA4⟩ 2 [] = true := by
  decide +kernel

/-- `TXS` -/
theorem test_txs : runs [0x9A] ⟨0x8000, 0x00, 0x00, 0x00, 0xFD, 0xA4⟩ []
      ⟨0x8001, 0x00, 0x00, 0x00, 0x00, 0xA4⟩ 2 [] = true := by
  decide +kernel

/-! ### One instruction: the vectors of spec/95_test_vectors.md for file 41 (R160 to R179) -/

/-- `ADC #$FF` -/
theorem test_adc : runs [0x69, 0xFF] ⟨0x8000, 0x80, 0x00, 0x00, 0xFD, 0x24⟩ []
      ⟨0x8002, 0x7F, 0x00, 0x00, 0xFD, 0x65⟩ 2 [] = true := by
  decide +kernel

/-- `ADC #$40` -/
theorem test_adc_2 : runs [0x69, 0x40] ⟨0x8000, 0x40, 0x00, 0x00, 0xFD, 0x24⟩ []
      ⟨0x8002, 0x80, 0x00, 0x00, 0xFD, 0xE4⟩ 2 [] = true := by
  decide +kernel

/-- `SBC #$00` -/
theorem test_sbc : runs [0xE9, 0x00] ⟨0x8000, 0x00, 0x00, 0x00, 0xFD, 0x24⟩ []
      ⟨0x8002, 0xFF, 0x00, 0x00, 0xFD, 0xA4⟩ 2 [] = true := by
  decide +kernel

/-- `SBC #$FF` -/
theorem test_sbc_2 : runs [0xE9, 0xFF] ⟨0x8000, 0x7F, 0x00, 0x00, 0xFD, 0x25⟩ []
      ⟨0x8002, 0x80, 0x00, 0x00, 0xFD, 0xE4⟩ 2 [] = true := by
  decide +kernel

/-- `AND #$0F` -/
theorem test_and : runs [0x29, 0x0F] ⟨0x8000, 0xF0, 0x00, 0x00, 0xFD, 0x24⟩ []
      ⟨0x8002, 0x00, 0x00, 0x00, 0xFD, 0x26⟩ 2 [] = true := by
  decide +kernel

/-- `ORA $10` -/
theorem test_ora : runs [0x05, 0x10] ⟨0x8000, 0x00, 0x00, 0x00, 0xFD, 0x24⟩ [(0x0010, 0x00)]
      ⟨0x8002, 0x00, 0x00, 0x00, 0xFD, 0x26⟩ 3 [] = true := by
  decide +kernel

/-- `EOR #$80` -/
theorem test_eor : runs [0x49, 0x80] ⟨0x8000, 0x01, 0x00, 0x00, 0xFD, 0x24⟩ []
      ⟨0x8002, 0x81, 0x00, 0x00, 0xFD, 0xA4⟩ 2 [] = true := by
  decide +kernel

/-- `CMP #$FF` -/
theorem test_cmp : runs [0xC9, 0xFF] ⟨0x8000, 0x00, 0x00, 0x00, 0xFD, 0x24⟩ []
      ⟨0x8002, 0x00, 0x00, 0x00, 0xFD, 0x24⟩ 2 [] = true := by
  decide +kernel

/-- `CMP #$00` -/
theorem test_cmp_2 : runs [0xC9, 0x00] ⟨0x8000, 0x00, 0x00, 0x00, 0xFD, 0xE4⟩ []
      ⟨0x8002, 0x00, 0x00, 0x00, 0xFD, 0x67⟩ 2 [] = true := by
  decide +kernel

/-- `CPX #$80` -/
theorem test_cpx : runs [0xE0, 0x80] ⟨0x8000, 0x00, 0x7F, 0x00, 0xFD, 0x24⟩ []
      ⟨0x8002, 0x00, 0x7F, 0x00, 0xFD, 0xA4⟩ 2 [] = true := by
  decide +kernel

/-- `CPY #$01` -/
theorem test_cpy : runs [0xC0, 0x01] ⟨0x8000, 0x00, 0x00, 0x02, 0xFD, 0x24⟩ []
      ⟨0x8002, 0x00, 0x00, 0x02, 0xFD, 0x25⟩ 2 [] = true := by
  decide +kernel

/-- `BIT $10` -/
theorem test_bit : runs [0x24, 0x10] ⟨0x8000, 0x0F, 0x00, 0x00, 0xFD, 0x24⟩ [(0x0010, 0xF0)]
      ⟨0x8002, 0x0F, 0x00, 0x00, 0xFD, 0xE6⟩ 3 [] = true := by
  decide +kernel

/-- `INC $02FF,X` -/
theorem test_inc : runs [0xFE, 0xFF, 0x02] ⟨0x8000, 0x00, 0x01, 0x00, 0xFD, 0x24⟩ [(0x0300, 0xFF)]
      ⟨0x8003, 0x00, 0x01, 0x00, 0xFD, 0x26⟩ 7 [(0x0300, 0x00)] = true := by
  decide +kernel

/-- `INC $10` -/
theorem test_inc_2 : runs [0xE6, 0x10] ⟨0x8000, 0x00, 0x00, 0x00, 0xFD, 0x25⟩ [(0x0010, 0xFF)]
      ⟨0x8002, 0x00, 0x00, 0x00, 0xFD, 0x27⟩ 5 [(0x0010, 0x00)] = true := by
  decide +kernel

/-- `DEC $0200,X` -/
theorem test_dec : runs [0xDE, 0x00, 0x02] ⟨0x8000, 0x00, 0x05, 0x00, 0xFD, 0x24⟩ [(0x0205, 0x01)]
      ⟨0x8003, 0x00, 0x05, 0x00, 0xFD, 0x26⟩ 7 [(0x0205, 0x00)] = true := by
  decide +kernel

/-- `INX` -/
theorem test_inx : runs [0xE8] ⟨0x8000, 0x00, 0xFF, 0x00, 0xFD, 0x24⟩ []
      ⟨0x8001, 0x00, 0x00, 0x00, 0xFD, 0x26⟩ 2 [] = true := by
  decide +kernel

/-- `INY` -/
theorem test_iny : runs [0xC8] ⟨0x8000, 0x00, 0x00, 0x7F, 0xFD, 0x24⟩ []
      ⟨0x8001, 0x00, 0x00, 0x80, 0xFD, 0xA4⟩ 2 [] = true := by
  decide +kernel

/-- `DEX` -/
theorem test_dex : runs [0xCA] ⟨0x8000, 0x00, 0x00, 0x00, 0xFD, 0x24⟩ []
      ⟨0x8001, 0x00, 0xFF, 0x00, 0xFD, 0xA4⟩ 2 [] = true := by
  decide +kernel

/-- `DEY` -/
theorem test_dey : runs [0x88] ⟨0x8000, 0x00, 0x00, 0x01, 0xFD, 0x24⟩ []
      ⟨0x8001, 0x00, 0x00, 0x00, 0xFD, 0x26⟩ 2 [] = true := by
  decide +kernel

/-! ### One instruction: the vectors of spec/95_test_vectors.md for file 42 (R190 to R194) -/

/-- `ASL A` -/
theorem test_asl : runs [0x0A] ⟨0x8000, 0x80, 0x00, 0x00, 0xFD, 0x24⟩ []
      ⟨0x8001, 0x00, 0x00, 0x00, 0xFD, 0x27⟩ 2 [] = true := by
  decide +kernel

/-- `ASL $10` -/
theorem test_asl_2 : runs [0x06, 0x10] ⟨0x8000, 0x00, 0x00, 0x00, 0xFD, 0x24⟩ [(0x0010, 0x40)]
      ⟨0x8002, 0x00, 0x00, 0x00, 0xFD, 0xA4⟩ 5 [(0x0010, 0x80)] = true := by
  decide +kernel

/-- `LSR A` -/
theorem test_lsr : runs [0x4A] ⟨0x8000, 0x01, 0x00, 0x00, 0xFD, 0x24⟩ []
      ⟨0x8001, 0x00, 0x00, 0x00, 0xFD, 0x27⟩ 2 [] = true := by
  decide +kernel

/-- `LSR $0200,X` -/
theorem test_lsr_2 : runs [0x5E, 0x00, 0x02] ⟨0x8000, 0x00, 0x01, 0x00, 0xFD, 0xA5⟩ [(0x0201, 0xFE)]
      ⟨0x8003, 0x00, 0x01, 0x00, 0xFD, 0x24⟩ 7 [(0x0201, 0x7F)] = true := by
  decide +kernel

/-- `ROL A` -/
theorem test_rol : runs [0x2A] ⟨0x8000, 0x80, 0x00, 0x00, 0xFD, 0x24⟩ []
      ⟨0x8001, 0x00, 0x00, 0x00, 0xFD, 0x27⟩ 2 [] = true := by
  decide +kernel

/-- `ROL $10` -/
theorem test_rol_2 : runs [0x26, 0x10] ⟨0x8000, 0x00, 0x00, 0x00, 0xFD, 0x25⟩ [(0x0010, 0x7F)]
      ⟨0x8002, 0x00, 0x00, 0x00, 0xFD, 0xA4⟩ 5 [(0x0010, 0xFF)] = true := by
  decide +kernel

/-- `ROR A` -/
theorem test_ror : runs [0x6A] ⟨0x8000, 0x01, 0x00, 0x00, 0xFD, 0x24⟩ []
      ⟨0x8001, 0x00, 0x00, 0x00, 0xFD, 0x27⟩ 2 [] = true := by
  decide +kernel

/-- `ROR $10,X` -/
theorem test_ror_2 : runs [0x76, 0x10] ⟨0x8000, 0x00, 0x02, 0x00, 0xFD, 0x25⟩ [(0x0012, 0x02)]
      ⟨0x8002, 0x00, 0x02, 0x00, 0xFD, 0xA4⟩ 6 [(0x0012, 0x81)] = true := by
  decide +kernel

/-! ### One instruction: the vectors of spec/95_test_vectors.md for file 43 (R200 to R214) -/

/-- `JMP $1234` -/
theorem test_jmp : runs [0x4C, 0x34, 0x12] ⟨0x8000, 0x00, 0x00, 0x00, 0xFD, 0x24⟩ []
      ⟨0x1234, 0x00, 0x00, 0x00, 0xFD, 0x24⟩ 3 [] = true := by
  decide +kernel

/-- `JMP ($10FF)` -/
theorem test_jmp_2 : runs [0x6C, 0xFF, 0x10] ⟨0x8000, 0x00, 0x00, 0x00, 0xFD, 0x24⟩ [(0x0000, 0x12), (0x00FF, 0x34), (0x0100, 0x56)]
      ⟨0x1234, 0x00, 0x00, 0x00, 0xFD, 0x24⟩ 5 [] = true := by
  decide +kernel

/-- `JSR $9000` -/
theorem test_jsr : runs [0x20, 0x00, 0x90] ⟨0x8000, 0x00, 0x00, 0x00, 0xFD, 0x24⟩ []
      ⟨0x9000, 0x00, 0x00, 0x00, 0xFB, 0x24⟩ 6 [(0x01FB, 0x02), (0x01FC, 0x80)] = true := by
  decide +kernel

/-- `RTS` -/
theorem test_rts : runs [0x60] ⟨0x8000, 0x00, 0x00, 0x00, 0xFB, 0x24⟩ [(0x01FB, 0xFF), (0x01FC, 0x12)]
      ⟨0x1300, 0x00, 0x00, 0x00, 0xFD, 0x24⟩ 6 [] = true := by
  decide +kernel

/-- `RTI` -/
theorem test_rti : runs [0x40] ⟨0x8000, 0x00, 0x00, 0x00, 0xFA, 0x24⟩ [(0x01FA, 0xFF), (0x01FB, 0x34), (0x01FC, 0x12)]
      ⟨0x1234, 0x00, 0x00, 0x00, 0xFD, 0xEF⟩ 6 [] = true := by
  decide +kernel

/-- `BRK` -/
theorem test_brk : runs [0x00] ⟨0x8000, 0x00, 0x00, 0x00, 0xFD, 0xE5⟩ []
      ⟨0x9000, 0x00, 0x00, 0x00, 0xFA, 0xE5⟩ 7 [(0x01FA, 0xF5), (0x01FB, 0x02), (0x01FC, 0x80)] = true := by
  decide +kernel

/-- `BRK` -/
theorem test_brk_2 : runs [0x00] ⟨0x8000, 0x00, 0x00, 0x00, 0x00, 0x20⟩ []
      ⟨0x9000, 0x00, 0x00, 0x00, 0xFD, 0x24⟩ 7 [(0x01FD, 0x30), (0x01FE, 0x02), (0x01FF, 0x80)] = true := by
  decide +kernel

/-- `BPL +16` -/
theorem test_bpl : runs [0x10, 0x10] ⟨0x8000, 0x00, 0x00, 0x00, 0xFD, 0x24⟩ []
      ⟨0x8012, 0x00, 0x00, 0x00, 0xFD, 0x24⟩ 3 [] = true := by
  decide +kernel

/-- `BPL +16` -/
theorem test_bpl_2 : runs [0x10, 0x10] ⟨0x8000, 0x00, 0x00, 0x00, 0xFD, 0xA4⟩ []
      ⟨0x8002, 0x00, 0x00, 0x00, 0xFD, 0xA4⟩ 2 [] = true := by
  decide +kernel

/-- `BMI -2` -/
theorem test_bmi : runs [0x30, 0xFE] ⟨0x8000, 0x00, 0x00, 0x00, 0xFD, 0xA4⟩ []
      ⟨0x8000, 0x00, 0x00, 0x00, 0xFD, 0xA4⟩ 3 [] = true := by
  decide +kernel

/-- `BVC +5` -/
theorem test_bvc : runs [0x50, 0x05] ⟨0x8000, 0x00, 0x00, 0x00, 0xFD, 0x64⟩ []
      ⟨0x8002, 0x00, 0x00, 0x00, 0xFD, 0x64⟩ 2 [] = true := by
  decide +kernel

/-- `BVS +127` -/
theorem test_bvs : runs [0x70, 0x7F] ⟨0x8000, 0x00, 0x00, 0x00, 0xFD, 0x64⟩ []
      ⟨0x8081, 0x00, 0x00, 0x00, 0xFD, 0x64⟩ 3 [] = true := by
  decide +kernel

/-- `BCC -128` -/
theorem test_bcc : runs [0x90, 0x80] ⟨0x8000, 0x00, 0x00, 0x00, 0xFD, 0x24⟩ []
      ⟨0x7F82, 0x00, 0x00, 0x00, 0xFD, 0x24⟩ 4 [] = true := by
  decide +kernel

/-- `BCS +16` -/
theorem test_bcs : runs [0xB0, 0x10] ⟨0x8000, 0x00, 0x00, 0x00, 0xFD, 0x24⟩ []
      ⟨0x8002, 0x00, 0x00, 0x00, 0xFD, 0x24⟩ 2 [] = true := by
  decide +kernel

/-- `BNE -4` -/
theorem test_bne : runs [0xD0, 0xFC] ⟨0x8002, 0x00, 0x00, 0x00, 0xFD, 0x24⟩ []
      ⟨0x8000, 0x00, 0x00, 0x00, 0xFD, 0x24⟩ 3 [] = true := by
  decide +kernel

/-- `BNE +127` -/
theorem test_bne_2 : runs [0xD0, 0x7F] ⟨0x8080, 0x00, 0x00, 0x00, 0xFD, 0x24⟩ []
      ⟨0x8101, 0x00, 0x00, 0x00, 0xFD, 0x24⟩ 4 [] = true := by
  decide +kernel

/-- `BEQ +0` -/
theorem test_beq : runs [0xF0, 0x00] ⟨0x80FE, 0x00, 0x00, 0x00, 0xFD, 0x26⟩ []
      ⟨0x8100, 0x00, 0x00, 0x00, 0xFD, 0x26⟩ 3 [] = true := by
  decide +kernel

/-- `BEQ +1` -/
theorem test_beq_2 : runs [0xF0, 0x01] ⟨0x80FD, 0x00, 0x00, 0x00, 0xFD, 0x26⟩ []
      ⟨0x8100, 0x00, 0x00, 0x00, 0xFD, 0x26⟩ 4 [] = true := by
  decide +kernel

/-! ### One instruction: the vectors of spec/95_test_vectors.md for file 44 (R230 to R242) -/

/-- `PHA` -/
theorem test_pha : runs [0x48] ⟨0x8000, 0x11, 0x00, 0x00, 0x00, 0x24⟩ []
      ⟨0x8001, 0x11, 0x00, 0x00, 0xFF, 0x24⟩ 3 [(0x01FF, 0x11)] = true := by
  decide +kernel

/-- `PLA` -/
theorem test_pla : runs [0x68] ⟨0x8000, 0x00, 0x00, 0x00, 0xFC, 0x24⟩ [(0x01FC, 0x80)]
      ⟨0x8001, 0x80, 0x00, 0x00, 0xFD, 0xA4⟩ 4 [] = true := by
  decide +kernel

/-- `PHP` -/
theorem test_php : runs [0x08] ⟨0x8000, 0x00, 0x00, 0x00, 0xFD, 0x20⟩ []
      ⟨0x8001, 0x00, 0x00, 0x00, 0xFC, 0x20⟩ 3 [(0x01FC, 0x30)] = true := by
  decide +kernel

/-- `PLP` -/
theorem test_plp : runs [0x28] ⟨0x8000, 0x00, 0x00, 0x00, 0xFC, 0x24⟩ [(0x01FC, 0x10)]
      ⟨0x8001, 0x00, 0x00, 0x00, 0xFD, 0x20⟩ 4 [] = true := by
  decide +kernel

/-- `PLP` -/
theorem test_plp_2 : runs [0x28] ⟨0x8000, 0x00, 0x00, 0x00, 0xFC, 0x24⟩ [(0x01FC, 0xCB)]
      ⟨0x8001, 0x00, 0x00, 0x00, 0xFD, 0xEB⟩ 4 [] = true := by
  decide +kernel

/-- `CLC` -/
theorem test_clc : runs [0x18] ⟨0x8000, 0x00, 0x00, 0x00, 0xFD, 0xEF⟩ []
      ⟨0x8001, 0x00, 0x00, 0x00, 0xFD, 0xEE⟩ 2 [] = true := by
  decide +kernel

/-- `SEC` -/
theorem test_sec : runs [0x38] ⟨0x8000, 0x00, 0x00, 0x00, 0xFD, 0x20⟩ []
      ⟨0x8001, 0x00, 0x00, 0x00, 0xFD, 0x21⟩ 2 [] = true := by
  decide +kernel

/-- `CLI` -/
theorem test_cli : runs [0x58] ⟨0x8000, 0x00, 0x00, 0x00, 0xFD, 0x24⟩ []
      ⟨0x8001, 0x00, 0x00, 0x00, 0xFD, 0x20⟩ 2 [] = true := by
  decide +kernel

/-- `SEI` -/
theorem test_sei : runs [0x78] ⟨0x8000, 0x00, 0x00, 0x00, 0xFD, 0x20⟩ []
      ⟨0x8001, 0x00, 0x00, 0x00, 0xFD, 0x24⟩ 2 [] = true := by
  decide +kernel

/-- `CLV` -/
theorem test_clv : runs [0xB8] ⟨0x8000, 0x00, 0x00, 0x00, 0xFD, 0x64⟩ []
      ⟨0x8001, 0x00, 0x00, 0x00, 0xFD, 0x24⟩ 2 [] = true := by
  decide +kernel

/-- `CLD` -/
theorem test_cld : runs [0xD8] ⟨0x8000, 0x00, 0x00, 0x00, 0xFD, 0x2C⟩ []
      ⟨0x8001, 0x00, 0x00, 0x00, 0xFD, 0x24⟩ 2 [] = true := by
  decide +kernel

/-- `SED` -/
theorem test_sed : runs [0xF8] ⟨0x8000, 0x00, 0x00, 0x00, 0xFD, 0x24⟩ []
      ⟨0x8001, 0x00, 0x00, 0x00, 0xFD, 0x2C⟩ 2 [] = true := by
  decide +kernel

/-- `NOP` -/
theorem test_nop : runs [0xEA] ⟨0x8000, 0x00, 0x00, 0x00, 0xFD, 0xE5⟩ []
      ⟨0x8001, 0x00, 0x00, 0x00, 0xFD, 0xE5⟩ 2 [] = true := by
  decide +kernel

/-! ### One instruction: the vectors of spec/95_test_vectors.md for file 45 (R250 to R271) -/

/-- `LAX $02FF,Y` -/
theorem test_lax : runs [0xBF, 0xFF, 0x02] ⟨0x8000, 0x00, 0x00, 0x01, 0xFD, 0x24⟩ [(0x0300, 0x81)]
      ⟨0x8003, 0x81, 0x81, 0x01, 0xFD, 0xA4⟩ 5 [] = true := by
  decide +kernel

/-- `SAX $10,Y` -/
theorem test_sax : runs [0x97, 0x10] ⟨0x8000, 0xCC, 0xAA, 0x01, 0xFD, 0xA6⟩ []
      ⟨0x8002, 0xCC, 0xAA, 0x01, 0xFD, 0xA6⟩ 4 [(0x0011, 0x88)] = true := by
  decide +kernel

/-- `SLO $0200,X` -/
theorem test_slo : runs [0x1F, 0x00, 0x02] ⟨0x8000, 0x01, 0x01, 0x00, 0xFD, 0x24⟩ [(0x0201, 0xC0)]
      ⟨0x8003, 0x81, 0x01, 0x00, 0xFD, 0xA5⟩ 7 [(0x0201, 0x80)] = true := by
  decide +kernel

/-- `RLA $10` -/
theorem test_rla : runs [0x27, 0x10] ⟨0x8000, 0x0F, 0x00, 0x00, 0xFD, 0x24⟩ [(0x0010, 0x88)]
      ⟨0x8002, 0x00, 0x00, 0x00, 0xFD, 0x27⟩ 5 [(0x0010, 0x10)] = true := by
  decide +kernel

/-- `SRE $10` -/
theorem test_sre : runs [0x47, 0x10] ⟨0x8000, 0xFF, 0x00, 0x00, 0xFD, 0x24⟩ [(0x0010, 0xFF)]
      ⟨0x8002, 0x80, 0x00, 0x00, 0xFD, 0xA5⟩ 5 [(0x0010, 0x7F)] = true := by
  decide +kernel

/-- `RRA $10` -/
theorem test_rra : runs [0x67, 0x10] ⟨0x8000, 0x7F, 0x00, 0x00, 0xFD, 0x25⟩ [(0x0010, 0x01)]
      ⟨0x8002, 0x00, 0x00, 0x00, 0xFD, 0x27⟩ 5 [(0x0010, 0x80)] = true := by
  decide +kernel

/-- `RRA $10` -/
theorem test_rra_2 : runs [0x67, 0x10] ⟨0x8000, 0x01, 0x00, 0x00, 0xFD, 0x24⟩ [(0x0010, 0xFE)]
      ⟨0x8002, 0x80, 0x00, 0x00, 0xFD, 0xE4⟩ 5 [(0x0010, 0x7F)] = true := by
  decide +kernel

/-- `DCP $10` -/
theorem test_dcp : runs [0xC7, 0x10] ⟨0x8000, 0xFF, 0x00, 0x00, 0xFD, 0x24⟩ [(0x0010, 0x00)]
      ⟨0x8002, 0xFF, 0x00, 0x00, 0xFD, 0x27⟩ 5 [(0x0010, 0xFF)] = true := by
  decide +kernel

/-- `ISC $10` -/
theorem test_isc : runs [0xE7, 0x10] ⟨0x8000, 0x80, 0x00, 0x00, 0xFD, 0x25⟩ [(0x0010, 0x00)]
      ⟨0x8002, 0x7F, 0x00, 0x00, 0xFD, 0x65⟩ 5 [(0x0010, 0x01)] = true := by
  decide +kernel

/-- `ANC #$7F` -/
theorem test_anc : runs [0x0B, 0x7F] ⟨0x8000, 0xFF, 0x00, 0x00, 0xFD, 0x25⟩ []
      ⟨0x8002, 0x7F, 0x00, 0x00, 0xFD, 0x24⟩ 2 [] = true := by
  decide +kernel

/-- `ANC #$80` -/
theorem test_anc_2 : runs [0x2B, 0x80] ⟨0x8000, 0x80, 0x00, 0x00, 0xFD, 0x24⟩ []
      ⟨0x8002, 0x80, 0x00, 0x00, 0xFD, 0xA5⟩ 2 [] = true := by
  decide +kernel

/-- `ALR #$FF` -/
theorem test_alr : runs [0x4B, 0xFF] ⟨0x8000, 0x01, 0x00, 0x00, 0xFD, 0x24⟩ []
      ⟨0x8002, 0x00, 0x00, 0x00, 0xFD, 0x27⟩ 2 [] = true := by
  decide +kernel

/-- `ARR #$7F` -/
theorem test_arr : runs [0x6B, 0x7F] ⟨0x8000, 0xFF, 0x00, 0x00, 0xFD, 0x24⟩ []
      ⟨0x8002, 0x3F, 0x00, 0x00, 0xFD, 0x64⟩ 2 [] = true := by
  decide +kernel

/-- `ARR #$40` -/
theorem test_arr_2 : runs [0x6B, 0x40] ⟨0x8000, 0x40, 0x00, 0x00, 0xFD, 0x25⟩ []
      ⟨0x8002, 0xA0, 0x00, 0x00, 0xFD, 0xE4⟩ 2 [] = true := by
  decide +kernel

/-- `SBX #$00` -/
theorem test_sbx : runs [0xCB, 0x00] ⟨0x8000, 0x00, 0xFF, 0x00, 0xFD, 0xE5⟩ []
      ⟨0x8002, 0x00, 0x00, 0x00, 0xFD, 0x67⟩ 2 [] = true := by
  decide +kernel

/-- `USBC #$01` -/
theorem test_usbc : runs [0xEB, 0x01] ⟨0x8000, 0x00, 0x00, 0x00, 0xFD, 0x25⟩ []
      ⟨0x8002, 0xFF, 0x00, 0x00, 0xFD, 0xA4⟩ 2 [] = true := by
  decide +kernel

/-- `LAS $02FF,Y` -/
theorem test_las : runs [0xBB, 0xFF, 0x02] ⟨0x8000, 0x00, 0x00, 0x01, 0xFD, 0x24⟩ [(0x0300, 0x00)]
      ⟨0x8003, 0x00, 0x00, 0x01, 0x00, 0x26⟩ 5 [] = true := by
  decide +kernel

/-- `SHY $02FF,X` -/
theorem test_shy : runs [0x9C, 0xFF, 0x02] ⟨0x8000, 0x00, 0x01, 0xFF, 0xFD, 0x24⟩ []
      ⟨0x8003, 0x00, 0x01, 0xFF, 0xFD, 0x24⟩ 5 [(0x0300, 0x03)] = true := by
  decide +kernel

/-- `SHX $0700,Y` -/
theorem test_shx : runs [0x9E, 0x00, 0x07] ⟨0x8000, 0x00, 0xFF, 0x02, 0xFD, 0x24⟩ []
      ⟨0x8003, 0x00, 0xFF, 0x02, 0xFD, 0x24⟩ 5 [(0x0702, 0x08)] = true := by
  decide +kernel

/-- `AHX $0200,Y` -/
theorem test_ahx : runs [0x9F, 0x00, 0x02] ⟨0x8000, 0x07, 0x0F, 0x01, 0xFD, 0x24⟩ []
      ⟨0x8003, 0x07, 0x0F, 0x01, 0xFD, 0x24⟩ 5 [(0x0201, 0x03)] = true := by
  decide +kernel

/-- `AHX ($10),Y` -/
theorem test_ahx_2 : runs [0x93, 0x10] ⟨0x8000, 0xFF, 0xFF, 0x05, 0xFD, 0x24⟩ [(0x0010, 0x00), (0x0011, 0x07)]
      ⟨0x8002, 0xFF, 0xFF, 0x05, 0xFD, 0x24⟩ 6 [(0x0705, 0x08)] = true := by
  decide +kernel

/-- `TAS $01F0,Y` -/
theorem test_tas : runs [0x9B, 0xF0, 0x01] ⟨0x8000, 0xFF, 0x0F, 0x01, 0xFD, 0x24⟩ []
      ⟨0x8003, 0xFF, 0x0F, 0x01, 0x0F, 0x24⟩ 5 [(0x01F1, 0x02)] = true := by
  decide +kernel

/-- `UNK $02` -/
theorem test_unk : runs [0x02] ⟨0x8000, 0x11, 0x00, 0x00, 0xFD, 0xE5⟩ []
      ⟨0x8001, 0x11, 0x00, 0x00, 0xFD, 0xE5⟩ 2 [] = true := by
  decide +kernel

/-! ### XAA and LXA, where no value of their constants shows (R263, R264) -/

theorem test_xaa : ∃ t, exec (.xaa 0x8F) (machine [] { start with a := 0xFF, x := 0x81 } []) = .next t ∧
    t.regs = { start with a := 0x81, x := 0x81, p := 0xA4 } := by
  refine ⟨_, rfl, ?_⟩
  have h : ∀ m : Byte, (0xFF ||| m) &&& 0x81 &&& 0x8F = 0x81 := by decide +kernel
  show xaaRegs 0x8F { start with a := 0xFF, x := 0x81 } = _
  unfold xaaRegs
  dsimp only
  rw [h]
  decide

theorem test_lxa : ∃ t, exec (.lxa 0x7F) (machine [] { start with a := 0xFF } []) = .next t ∧
    t.regs = { start with a := 0x7F, x := 0x7F } := by
  refine ⟨_, rfl, ?_⟩
  have h : ∀ m : Byte, (0xFF ||| m) &&& 0x7F = 0x7F := by decide +kernel
  show lxaRegs 0x7F { start with a := 0xFF } = _
  unfold lxaRegs
  dsimp only
  rw [h]
  decide

/-! ### The interrupt mechanism (spec/95_test_vectors.md 2.8) -/

theorem test_nmi_service : stepsTo { machine [] { start with pc := 0x8001, p := 0xE1 } [] with cpu.nmiPending := true }
    { start with pc := 0xA000, sp := 0xFA, p := 0xE5 } 7 [(0x1FC, 0x80), (0x1FB, 0x01), (0x1FA, 0xE1)] = true := by
  decide +kernel

theorem test_irq_masked : stepsTo { machine [0xEA] start [] with cpu.irqLine := true } { start with pc := 0x8001 } 2 [] =
    true := by
  decide +kernel

theorem test_irq_taken : stepsTo { machine [0xEA] { start with pc := 0x8001, p := 0x20 } [] with cpu.irqLine := true }
    { start with pc := 0x9000, sp := 0xFA } 7 [(0x1FC, 0x80), (0x1FB, 0x01), (0x1FA, 0x20)] = true := by
  decide +kernel

theorem test_stall_outranks_nmi : stepsTo { machine [0xEA] start [] with cpu.stall := 2, cpu.nmiPending := true } start 1 [] =
    true := by
  decide +kernel

/-! ### The CPU bus and the ports (spec/95_test_vectors.md 2.9, 2.10) -/

theorem test_ram_mirror : (busRead 0x1800 (busWrite 0x0000 0x11 State.reset)).val = 0x11 ∧
    readCell (busWrite 0x1FFF 0x22 State.reset).bus.ram 0x7FF = 0x22 := by
  decide +kernel

theorem test_controller :
    let s := busWrite 0x4016 0 (busWrite 0x4016 1 { State.reset with bus.controllerByte := 0x81 })
    let read := fun s : State => (busRead 0x4016 s).st
    (busRead 0x4016 s).val = 0x41 ∧ (busRead 0x4016 (read s)).val = 0x40 ∧ (Nat.repeat read 8 s).bus.shift = 0xFF := by
  decide +kernel

theorem test_dma_parity :
    let s := fun c : BitVec 64 => { machine [0x8D, 0x14, 0x40] { start with a := 0x02 } [(0x2FF, 0xAA)] with cpu.cycles := c }
    let stall := fun c : BitVec 64 => match cpuStep (s c) with
      | .next t => t.cpu.stall + (readCell t.ppu.oam 0xFF).toNat * 1000
      | .fault _ => 0
      | .refused _ => 0
    stall 9 = 514 + 0xAA * 1000 ∧ stall 10 = 513 + 0xAA * 1000 := by
  decide +kernel

theorem test_port_increment_32 :
    let s := busWrite 0x2006 0x00 (busWrite 0x2006 0x20 (busWrite 0x2000 0x04 State.reset))
    let t := busWrite 0x2007 0x33 s
    t.ppu.v = 0x2020 ∧ readCell t.ppu.vram 0 = 0x33 := by
  decide +kernel

theorem test_port_buffered_read :
    let s := { State.reset with ppu.vram := cells [(0x108, 0x11), (0x109, 0x22)], ppu.v := 0x2108 }
    let r := busRead 0x2007 s
    r.val = 0 ∧ (busRead 0x2007 r.st).val = 0x11 ∧ r.st.ppu.v = 0x2109 := by
  decide +kernel

theorem test_palette_alias :
    let s := busWrite 0x2007 0xFF { State.reset with ppu.v := 0x3F10 }
    readCell s.ppu.palette 0 = 0x3F ∧ s.ppu.v = 0x3F11 ∧
      (busRead 0x2007 { s with ppu.v := 0x3F00 }).val = 0x3F := by
  decide +kernel

theorem test_scroll_pair :
    let s := busWrite 0x2005 0x5E (busWrite 0x2005 0x7D (busWrite 0x2000 0x03 State.reset))
    s.ppu.t = 0x6D6F ∧ s.ppu.fineX = 5 ∧ s.ppu.nextX = 0x7D ∧ s.ppu.nextY = 0x5E ∧ s.ppu.w = false := by
  decide +kernel

theorem test_control_nmi_edge :
    let s := busWrite 0x2000 0x80 { State.reset with ppu.status := 0x80 }
    s.cpu.nmiCount = 1 ∧ (busWrite 0x2000 0x80 s).cpu.nmiCount = 1 := by
  decide +kernel

theorem test_nametable_mirroring :
    vramIndex .horizontal 0x2C00 = 0x400 ∧ vramIndex .vertical 0x2400 = 0x400 ∧ vramIndex .vertical 0x2800 = 0 ∧
      vramIndex .fourScreen 0x2C00 = 0x400 ∧ vramIndex .horizontal 0x3EFF = 0x6FF := by
  decide +kernel

/-! ### The PPU machine (spec/95_test_vectors.md 2.11) -/

/-- The vectors' CHR: tile 1 with rows 3 3 1 1 2 2 0 0, tile 2 with one pixel. -/
def chr : Memory :=
  cells ((List.range 8).map (fun i => (0x10 + i, 0xF0)) ++ (List.range 8).map (fun i => (0x18 + i, 0xCC)) ++ [(0x20, 0x01)])

/-- The vectors' palette. -/
def palette : Palette :=
  cells [(0, 0x0F), (5, 0x11), (6, 0x12), (7, 0x13), (0x11, 0x31), (0x15, 0x21), (0x16, 0x22), (0x17, 0x23)]

/-- The first set-up at (line, 0): tile 1 in the corner, and `sprite` as sprite 1; the other sprites are hidden. -/
def scene (line : Int) (mask : Byte) (sprite : List Byte) : State :=
  { State.reset with
    cart.chr := chr
    ppu.palette := palette
    ppu.vram := cells [(0, 0x01), (0x3C0, 0x01)]
    ppu.mask := mask
    ppu.oam := (List.range 64).flatMap (fun i =>
      if i = 1 then cells ((sprite.zipIdx 4).map fun c => (c.2, c.1)) else [(4 * i, 0xFF)])
    ppu.scanline := line }

/-- The colours x = 0..9 of the line rendered by the next tick. -/
def firstColours (s : State) : List Colour := (tick s).ppu.framebuffer.flatMap fun r => r.pixels.take 10

theorem test_background_line :
    firstColours (scene 0 0x0A [0xFF]) = [0x13, 0x13, 0x11, 0x11, 0x12, 0x12, 0x0F, 0x0F, 0x0F, 0x0F] := by
  decide +kernel

theorem test_sprite_in_front :
    firstColours (scene 1 0x1E [0x00, 0x01, 0x01, 0x04]) =
      [0x13, 0x13, 0x11, 0x11, 0x23, 0x23, 0x21, 0x21, 0x22, 0x22] := by
  decide +kernel

theorem test_sprite_behind :
    firstColours (scene 1 0x1E [0x00, 0x01, 0x21, 0x04]) =
      [0x13, 0x13, 0x11, 0x11, 0x12, 0x12, 0x21, 0x21, 0x22, 0x22] := by
  decide +kernel

/-- The machine at (17, 0) with `n` sprites of y $10. -/
def crowd (n : Nat) : State :=
  { State.reset with
    ppu.oam := (List.range 64).map (fun i => (4 * i, if i < n then 0x10 else 0xFF))
    ppu.scanline := 17 }

theorem test_sprite_overflow :
    (tick (crowd 9)).ppu.status = 0x20 ∧ (tick (crowd 9)).ppu.line.map (·.index) = [0, 1, 2, 3, 4, 5, 6, 7] ∧
      (tick (crowd 8)).ppu.status = 0 := by
  decide +kernel

/-- Sprite 0 of tile 1 at y $1F, x $40, with both sources on. -/
def hitScene (dot : Nat) : State :=
  { State.reset with
    cart.chr := chr
    ppu.mask := 0x1E
    ppu.oam := cells [(0, 0x1F), (1, 0x01), (3, 0x40)]
    ppu.scanline := 32
    ppu.dot := dot }

theorem test_sprite_zero_hit : (tick (hitScene 64)).ppu.status = 0 ∧ (tick (hitScene 65)).ppu.status = 0x40 := by
  decide +kernel

theorem test_vblank_nmi :
    let t := tick { State.reset with ppu.scanline := 241, ppu.dot := 1, ppu.ctrl := 0x80 }
    t.ppu.status = 0x80 ∧ t.ppu.frameReady = true ∧ t.cpu.nmiPending = true ∧ t.ppu.dot = 2 := by
  decide +kernel

/-! ### Reset (spec/95_test_vectors.md T3, S1) -/

theorem test_load_reset_vector :
    let s := load { Cart.blank with prg := cells [(0x7FFD, 0x80)] } Params.default PowerOn.zero
    s.regs = start ∧ s.cpu.cycles = 7 ∧ s.bus.lastBus = 0x80 := by
  decide +kernel

/-- A table word stored by `withFetchWord` is what the next step runs: `LDA #$80` from reset. -/
theorem test_withFetchWord :
    decodeTableWord 16 0x80A9 = some (.lda (.imm 0x80)) ∧
      (match step (State.reset.withFetchWord 16 0x80A9) with
        | .next t => t.regs.a == 0x80 && t.cpu.cycles == 9 && t.ppu.dot == 6
        | .fault _ => false
        | .refused _ => false) = true := by
  decide +kernel

/-! ### Witnesses: states and operands that meet the hypotheses of the statements, each clause at the ends of its range -/

/-- The address is one of the PPU ports'. -/
def isPort (a : Addr) : Bool := decide (0x2000 ≤ a.toNat ∧ a.toNat < 0x4000)

/-- What a result gives, if it goes on. -/
def next? (r : Result) : Option State :=
  match r with
  | .next t => some t
  | .fault _ => none
  | .refused _ => none

/-- A result that goes on has a next state. -/
theorem goes_of_next? {r : Result} (h : (next? r).isSome = true) : ∃ t, r = .next t := by
  cases r with
  | next t => exact ⟨t, rfl⟩
  | fault _ => cases h
  | refused _ => cases h

theorem witness_DecodeOfEncodeRoundTrip :
    Instr.wf (.lda (.izy 0xFF)) = true ∧ Instr.wf (.asl .acc) = true ∧ Instr.wf (.unk 0x02) = true ∧
      Instr.wf (.unk 0xFC) = true := by decide

theorem witness_EncodeOfDecodeRoundTrip : decode [0x4C, 0xFF, 0xFF, 0x00] = .ok (.jmpAbs 0xFFFF, [0x00]) := rfl

theorem fetched : decode (fetchInstr (machine [0xA9, 0x80] start [])).bytes = .ok (.lda (.imm 0x80), []) := by
  have h : (fetchInstr (machine [0xA9, 0x80] start [])).bytes = [0xA9, 0x80] := by decide +kernel
  rw [h]
  rfl

theorem witness_StepRunsDecodedInstruction :
    let s := machine [0xA9, 0x80] start []
    s.cpu.stall = 0 ∧ s.cpu.nmiPending = false ∧ irqTaken s = false ∧
      decode (fetchInstr s).bytes = .ok (.lda (.imm 0x80), []) :=
  ⟨rfl, rfl, by decide +kernel, fetched⟩

/-- `LDA $0200` in the last three bytes of RAM, and over the end of PRG into RAM. -/
theorem witness_FetchReadsStoredInstruction :
    Instr.wf (.lda (.abs 0x0200)) = true ∧
      ([0x1FFD, 0xFFFE].all fun pc => (List.range 3).all fun k =>
        (encode (.lda (.abs 0x0200)))[k]? ==
          storedByte (pc + BitVec.ofNat 16 k) (machine [0xAD, 0x00, 0x02] { start with pc := pc } [])) = true := by
  decide +kernel

theorem witness_StepTakesOneEventByPriority :
    0 < { State.reset with cpu.stall := 1 }.cpu.stall ∧
      { State.reset with cpu.nmiPending := true }.cpu.nmiPending = true ∧ State.reset.cpu.stall = 0 ∧
      State.reset.cpu.nmiPending = false ∧ State.reset.cpu.irqLine = false ∧
      { State.reset with cpu.irqLine := true }.cpu.irqLine = true ∧
      getFlag .i State.reset.regs.p = true ∧ getFlag .i { State.reset with regs.p := 0x20 }.regs.p = false := by
  decide +kernel

/-- A state at the far corner of its position's grid, with sprites cached and the first and the last line rendered. -/
def corner : State :=
  { crowd 9 with
    ppu.scanline := 260
    ppu.dot := 340
    ppu.status := 0xE0
    ppu.line := [⟨0, 0x10, 0x01, 0x00, 0xFF⟩, ⟨63, 0x10, 0x01, 0x00, 0x00⟩]
    ppu.framebuffer := [⟨0, List.replicate 256 0x3F⟩, ⟨239, List.replicate 256 0⟩]
    bus.ram := [(0, 0x01), (0x7FF, 0xFF)] }

theorem corner_rows : rowsOkFrom 0 corner.ppu.framebuffer :=
  ⟨Nat.le_refl 0, by decide, List.length_replicate, Nat.le_of_ble_eq_true rfl, by decide, List.length_replicate, trivial⟩

theorem corner_inv : corner.Inv where
  p := by
    unfold Regs.pOk
    decide +kernel
  pos := by
    unfold Ppu.posOk
    decide +kernel
  status := by
    unfold Ppu.statusOk
    decide +kernel
  line := by
    unfold Ppu.lineOk
    decide +kernel
  rows := corner_rows
  memories := by
    unfold State.memoriesOk
    decide +kernel

theorem witness_StepKeepsInvariant : corner.Inv ∧ ∃ t, step corner = .next t :=
  ⟨corner_inv, goes_of_next? (by decide +kernel)⟩

theorem witness_StepKeepsConfiguration :
    (∃ t, step corner = .next t) ∧
      ∃ s t, step s = .next t ∧ s.cart.chrWritable = false ∧ s.cart.chr = chr := by
  refine ⟨goes_of_next? (by decide +kernel), { State.reset with cart.chrWritable := false, cart.chr := chr }, ?_⟩
  obtain ⟨t, h⟩ := goes_of_next? (r := step { State.reset with cart.chrWritable := false, cart.chr := chr }) (by decide +kernel)
  exact ⟨t, h, rfl, rfl⟩

theorem witness_EveryInstructionTakesMatrixCycles :
    Instr.wf (.ldx (.aby 0x02FF)) = true ∧ Instr.opcode (.ldx (.aby 0x02FF)) = some 0xBE ∧
      Instr.wf (.beq 0x80) = true ∧ Instr.opcode (.beq 0x80) = some 0xF0 ∧ Instr.opcode .brk = some 0x00 := by
  decide +kernel

theorem witness_AddressingModes : inMemory (.zp 0x00) = true ∧ inMemory (.izy 0xFF) = true := by decide

/-- RAM with its first and last byte listed. -/
theorem witness_memory_hypotheses :
    Memory.wf 2048 corner.bus.ram = true ∧ Memory.wf 256 corner.ppu.oam = true ∧ corner.regs.pOk ∧ corner.memoriesOk :=
  ⟨by decide +kernel, by decide +kernel, corner_inv.p, corner_inv.memories⟩

/-- StoresWriteRegister, JsrAndRts, BrkEntersHandler, StackInstructions need a well-formed RAM only. -/
theorem witness_StoresWriteRegister : Memory.wf 2048 corner.bus.ram = true ∧ Memory.wf 2048 State.reset.bus.ram = true := by
  decide +kernel

theorem witness_JsrAndRts : Memory.wf 2048 corner.bus.ram = true := by decide +kernel

theorem witness_BrkEntersHandler : Memory.wf 2048 corner.bus.ram = true := by decide +kernel

theorem witness_StackInstructions : Memory.wf 2048 corner.bus.ram = true := by decide +kernel

theorem witness_ReadModifyWrite :
    inMemory (.zp 0xFF) = true ∧ inMemory (.abx 0x07FF) = true ∧ Memory.wf 2048 corner.bus.ram = true := by
  decide +kernel

theorem witness_CombinedReadModifyWrite : inMemory (.izy 0xFF) = true ∧ Memory.wf 2048 corner.bus.ram = true := by
  decide +kernel

theorem witness_DecimalFlagChangesNoComputation :
    (∃ t, exec (.adc (.imm 0x09)) { State.reset with regs.p := 0x2C } = .next t) ∧
      (∃ t, exec (.rra (.zp 0x10)) { State.reset with regs.p := 0x2C } = .next t) ∧
      ∃ t, exec (.arr 0x40) State.reset = .next t :=
  ⟨exec_next _ _, exec_next _ _, exec_next _ _⟩

theorem witness_InterruptSequence :
    ((0xFFFA : Addr) = 0xFFFA ∨ (0xFFFA : Addr) = 0xFFFE) ∧ ((0xFFFE : Addr) = 0xFFFA ∨ (0xFFFE : Addr) = 0xFFFE) ∧
      Memory.wf 2048 corner.bus.ram = true := by
  decide +kernel

theorem witness_InterruptServiceConsumesNmiOnly :
    (let s := { corner with cpu.nmiPending := true };
      s.cpu.stall = 0 ∧ Memory.wf 2048 s.bus.ram = true ∧ s.cpu.nmiPending = true ∧ getFlag .u s.regs.p = true ∧
        getFlag .b s.regs.p = false) ∧
      (let s := { corner with regs.p := 0x20, cpu.irqLine := true };
        s.cpu.stall = 0 ∧ Memory.wf 2048 s.bus.ram = true ∧ s.cpu.nmiPending = false ∧ s.cpu.irqLine = true ∧ getFlag .i s.regs.p = false ∧
          getFlag .u s.regs.p = true ∧ getFlag .b s.regs.p = false) := by
  decide +kernel

theorem witness_RtiUndoesInterrupt :
    Memory.wf 2048 corner.bus.ram = true ∧ corner.regs.pOk ∧ ∃ t, exec .rti (interrupt 0xFFFE true corner) = .next t :=
  ⟨by decide +kernel, corner_inv.p, exec_next _ _⟩

theorem witness_PullsUndoPushes :
    (∃ t u, exec (.jsr 0xFFFF) corner = .next t ∧ exec .rts t = .next u) ∧
      (∃ t u, exec .php corner = .next t ∧ exec .plp t = .next u) ∧
      (∃ t u, exec .pha corner = .next t ∧ exec .pla t = .next u) ∧ Memory.wf 2048 corner.bus.ram = true ∧ corner.regs.pOk :=
  have two (i j : Instr) : ∃ t u, exec i corner = .next t ∧ exec j t = .next u := by
    obtain ⟨t, h⟩ := exec_next i corner
    obtain ⟨u, h'⟩ := exec_next j t
    exact ⟨t, u, h, h'⟩
  ⟨two _ _, two _ _, two _ _, by decide +kernel, corner_inv.p⟩

theorem witness_RamReadAfterWrite :
    (0x0000 : Addr).toNat < 0x2000 ∧ (0x1FFF : Addr).toNat < 0x2000 ∧ Memory.wf 2048 corner.bus.ram = true ∧
      (0x07FF : Addr).toNat % 2048 = (0x1FFF : Addr).toNat % 2048 := by
  decide +kernel

theorem witness_PrgReadsWrapAndWritesIgnored :
    0x8000 ≤ (0x8000 : Addr).toNat ∧ 0x8000 ≤ (0xFFFF : Addr).toNat ∧ (0xBFFF : Addr).toNat < 0xC000 ∧
      { corner with cart.prgSize := .kib16 }.cart.prgSize = .kib16 := by
  decide +kernel

theorem witness_LastBusAndOpenBusReads :
    ([0x4000, 0x4014, 0x4015, 0x4018, 0x7FFF].all fun a : Addr =>
      decide (0x4000 ≤ a.toNat ∧ a.toNat < 0x8000 ∧ a ≠ 0x4016 ∧ a ≠ 0x4017)) = true ∧ (0x4015 : Addr) ≠ 0x4014 ∧
      [0x2000, 0x2001, 0x2002, 0x2003, 0x2005, 0x2006, 0x3FFE].all isPort = true := by
  decide +kernel

theorem witness_ControllerShiftsOutSnapshot :
    (0x01 : Byte).getLsbD 0 = true ∧ (0xFE : Byte).getLsbD 0 = false ∧ State.reset.bus.strobe = false ∧
      { State.reset with bus.strobe := true }.bus.strobe = true := by
  decide +kernel

theorem witness_OamDmaCopiesPageAndStalls :
    Memory.wf 256 corner.ppu.oam = true ∧
      ([0x00, 0x1F, 0x80, 0xFF].all fun a =>
        decide ({ corner with regs.a := a }.regs.a.toNat < 0x20 ∨ 0x80 ≤ { corner with regs.a := a }.regs.a.toNat)) =
        true := by
  decide +kernel

theorem witness_ControlPortWrite :
    [0x2000, 0x3FF8].all (fun a => isPort a && a.toNat % 8 == 0) = true ∧
      State.reset.ppu.ctrl.getLsbD 7 = false ∧ (0x80 : Byte).getLsbD 7 = true ∧ corner.ppu.status.getLsbD 7 = true ∧
      State.reset.ppu.status.getLsbD 7 = false := by
  decide +kernel

theorem witness_MaskOamAddressAndScrollPorts :
    [0x2001, 0x3FF9, 0x2003, 0x3FFB, 0x2005, 0x3FFD].all isPort = true ∧
      (0x3FF9 : Addr).toNat % 8 = 1 ∧ (0x3FFB : Addr).toNat % 8 = 3 ∧ (0x3FFD : Addr).toNat % 8 = 5 ∧
      State.reset.ppu.w = false ∧ { State.reset with ppu.w := true }.ppu.w = true := by
  decide +kernel

theorem witness_AddressAndDataPorts :
    [0x2006, 0x3FFE, 0x2007, 0x3FFF].all isPort = true ∧
      (0x3FFE : Addr).toNat % 8 = 6 ∧ (0x3FFF : Addr).toNat % 8 = 7 ∧ State.reset.ppu.w = false ∧
      (busWrite 0x2005 0xFF State.reset).ppu.w = true ∧
      (BitVec.ofNat 14 { State.reset with ppu.v := 0x3EFF }.ppu.v.toNat : PpuAddr).toNat < 0x3F00 ∧
      0x3F00 ≤ (BitVec.ofNat 14 { State.reset with ppu.v := 0x7F00 }.ppu.v.toNat : PpuAddr).toNat := by
  decide +kernel

theorem witness_StatusAndOamDataPorts :
    [0x2002, 0x3FFA].all (fun a => isPort a && a.toNat % 8 == 2) = true ∧
      [0x2004, 0x3FFC].all (fun a => isPort a && a.toNat % 8 == 4) = true ∧
      Memory.wf 256 corner.ppu.oam = true := by
  decide +kernel

theorem witness_PpuBusReadAfterWrite :
    corner.memoriesOk ∧ (0x1FFF : PpuAddr).toNat < 0x2000 ∧ 0x2000 ≤ (0x2000 : PpuAddr).toNat ∧
      (0x3EFF : PpuAddr).toNat < 0x3F00 ∧ 0x3F00 ≤ (0x3F00 : PpuAddr).toNat ∧ 0x3F00 ≤ (0x3FFF : PpuAddr).toNat ∧
      vramIndex .horizontal 0x2000 = vramIndex .horizontal 0x3400 :=
  ⟨corner_inv.memories, by decide +kernel⟩

theorem witness_LatchPoints :
    (∃ s : State, s.ppu.scanline = -1 ∧ s.ppu.dot = 0) ∧
      (∀ line ∈ [(0 : Int), 239], ∃ s : State, s.ppu.scanline = line ∧ 0 ≤ line ∧ line ≤ 239 ∧ s.ppu.dot = 257) ∧
      ¬ (corner.ppu.scanline = -1 ∧ corner.ppu.dot = 0) ∧
      ¬ (0 ≤ corner.ppu.scanline ∧ corner.ppu.scanline ≤ 239 ∧ corner.ppu.dot = 257) := by
  refine ⟨⟨{ State.reset with ppu.scanline := -1 }, rfl, rfl⟩, ?_, by decide +kernel, by decide +kernel⟩
  intro line h
  refine ⟨{ State.reset with ppu.scanline := line, ppu.dot := 257 }, rfl, ?_, ?_, rfl⟩
  · revert line
    decide
  · revert line
    decide

theorem witness_VblankStartAndPrerenderClear :
    (let s := { State.reset with ppu.scanline := 241, ppu.dot := 1 };
      s.ppu.dot = 1 ∧ s.ppu.scanline = 241) ∧
      let s := { corner with ppu.scanline := -1, ppu.dot := 1 }
      s.ppu.dot = 1 ∧ s.ppu.scanline = -1 ∧ s.ppu.statusOk :=
  ⟨⟨rfl, rfl⟩, rfl, rfl, corner_inv.status⟩

theorem witness_SpriteEvaluationCachesFirstEight :
    ∀ line ∈ [(0 : Int), 17, 239],
      let s := { crowd 9 with ppu.scanline := line }
      0 ≤ s.ppu.scanline ∧ s.ppu.scanline ≤ 239 ∧ s.ppu.dot = 0 := by
  decide +kernel

theorem witness_ScanlineRendersAtDotZero :
    ∀ line ∈ [(0 : Nat), 239],
      let s := { crowd 9 with ppu.scanline := (line : Int) }
      s.ppu.scanline = (line : Int) ∧ line < 240 ∧ s.ppu.dot = 0 := by
  decide +kernel

/-- Every premise of the pixel rules is met: a hidden source, a transparent pixel, a sprite in front, a sprite behind. -/
theorem witness_PixelPriority :
    let lit := fun attr : Byte => tick (scene 1 0x1E [0x00, 0x01, attr, 0x04])
    let front := lit 0x01
    let behind := lit 0x21
    (scene 1 0x00 [0xFF]).ppu.mask.getLsbD 3 = false ∧ (scene 1 0x08 [0xFF]).ppu.mask.getLsbD 1 = false ∧
      (spritePixel 0 1 front = none ∧ (bgPixel 0 1 front).px ≠ 0) ∧
      (spritePixel 255 1 front = none ∧ (bgPixel 255 1 front).px = 0) ∧
      (spritePixel 4 1 front = some ⟨3, 1, false, false⟩ ∧ (bgPixel 4 1 front).px ≠ 0) ∧
      (spritePixel 4 1 behind = some ⟨3, 1, true, false⟩ ∧ (bgPixel 4 1 behind).px ≠ 0) ∧
      (spritePixel 6 1 behind = some ⟨1, 1, true, false⟩ ∧ (bgPixel 6 1 behind).px = 0) ∧
      (front.ppu.mask.getLsbD 3 = true ∧ front.ppu.mask.getLsbD 1 = true ∧ front.ppu.mask.getLsbD 4 = true) ∧
      front.ppu.line = [⟨1, 0x00, 0x01, 0x01, 0x04⟩] := by
  decide +kernel

/-- A sprite covers its corners: the first and last row of either height, the first and last column, none past them. -/
theorem witness_PixelPriority_covers :
    let e : SpriteEntry := ⟨0, 0x10, 0x01, 0xC0, 0xF8⟩
    let tall := { State.reset with ppu.renderCtrl := 0x20 }
    SpriteCovers e 248 17 State.reset ∧ SpriteCovers e 255 24 State.reset ∧ ¬ SpriteCovers e 255 25 State.reset ∧
      SpriteCovers e 255 32 tall ∧ ¬ SpriteCovers e 247 32 tall := by
  unfold SpriteCovers
  decide +kernel

theorem witness_SpriteZeroHit :
    32 < 240 ∧ 239 < 240 ∧ 255 < 256 ∧
      (hitScene 65).ppu.scanline = ((32 : Nat) : Int) ∧ (hitScene 65).ppu.dot = 64 + 1 ∧
      ({ hitScene 1 with ppu.scanline := 0 } : State).ppu.scanline = ((0 : Nat) : Int) ∧
      { hitScene 1 with ppu.scanline := 0 }.ppu.dot = 0 + 1 ∧
      ({ hitScene 256 with ppu.scanline := 239 } : State).ppu.scanline = ((239 : Nat) : Int) ∧
      { hitScene 256 with ppu.scanline := 239 }.ppu.dot = 255 + 1 := by
  decide +kernel

theorem witness_FrameArrivesWithin29781Steps :
    corner.ppu.posOk ∧ { corner with ppu.scanline := -1, ppu.dot := 0 }.ppu.posOk ∧
      { corner with ppu.scanline := 241, ppu.dot := 2 }.ppu.posOk := by
  unfold Ppu.posOk
  decide +kernel

theorem witness_HostOperations :
    { State.reset with bus.strobe := true }.bus.strobe = true ∧ State.reset.bus.strobe = false ∧
      (0xFE : Byte).getLsbD 0 = false ∧ State.reset.cpu.stall = 0 ∧ State.reset.cpu.nmiPending = false ∧
      getFlag .i { State.reset with regs.p := 0x20 }.regs.p = false := by
  decide +kernel

/-- The frame driver's premises: a first step that sets the frame flag, and one that does not. -/
theorem witness_HostOperations_driver :
    let sets := fun s : State => match step s with
      | .next t => t.ppu.frameReady
      | .fault _ => false
      | .refused _ => false
    sets { State.reset with ppu.scanline := 241, ppu.dot := 1 } = true ∧ sets State.reset = false := by
  decide +kernel

end Sys2Proof.Tests
end

/-! The invariant and the configuration of the machine (spec/10_state.md): what a step can do, said once (`exec_shape`,
`cpuStep_cases`, `step_next`), and from it what every step keeps. -/

namespace Sys2Proof.Machine

/-! ### What a step can do -/

/-- The shapes of an instruction's meaning at the state `s` (spec/40 to 45): registers only, read, store, read-modify-write,
branch, or a use of the stack or of PC alone. A function on the registers keeps bits 5 and 4 of P (R12). -/
inductive ExecShape (s : State) : Result → Prop where
  | reg {n : Nat} {f : Regs → Regs} (hf : ∀ r, r.pOk → (f r).pOk) : ExecShape s (regInstr n f s)
  | read {m : Operand} {f : Byte → Regs → Regs} (hf : ∀ v r, r.pOk → (f v r).pOk) : ExecShape s (readInstr m f s)
  /-- TAS (R269) gives SP a value first; every other store leaves it (`sp := s.regs.sp`). -/
  | store {m : Operand} {value : Byte → Regs → Byte} (sp : Byte) : ExecShape s (storeInstr m value (s.setSP sp))
  | modify {m : Operand} {f : Bool → Byte → Shifted} {g : Byte → Regs → Regs} (hg : ∀ v r, r.pOk → (g v r).pOk) :
      ExecShape s (modifyInstr m f g s)
  | branch {c : Bool} {o : Byte} : ExecShape s (branchInstr c o s)
  | stackOrJump {t : State} (inv : s.Inv → t.Inv) (cart : t.cart = s.cart) (cfg : t.cfg = s.cfg) : ExecShape s (.next t)

/-- R12: bits 5 and 4 of P stay in form where they stay as they were. -/
theorem Regs.pOk_congr {r r' : Regs} (h : r.pOk) (hu : getFlag .u r'.p = getFlag .u r.p)
    (hb : getFlag .b r'.p = getFlag .b r.p) : r'.pOk :=
  ⟨hu.trans h.1, hb.trans h.2⟩

@[simp] theorem push_cart (v : Byte) (s : State) : (push v s).cart = s.cart := by simp [push_eq]
@[simp] theorem push_cfg (v : Byte) (s : State) : (push v s).cfg = s.cfg := by simp [push_eq]
@[simp] theorem pull_cart (s : State) : (pull s).st.cart = s.cart := by simp [pull_eq]
@[simp] theorem pull_cfg (s : State) : (pull s).st.cfg = s.cfg := by simp [pull_eq]
@[simp] theorem interrupt_cart (vector : Addr) (brk : Bool) (s : State) : (interrupt vector brk s).cart = s.cart := by
  simp [interrupt, loadPC]
@[simp] theorem interrupt_cfg (vector : Addr) (brk : Bool) (s : State) : (interrupt vector brk s).cfg = s.cfg := by
  simp [interrupt, loadPC]
@[simp] theorem returnFromInterrupt_cart (s : State) : (returnFromInterrupt s).cart = s.cart := by
  simp [returnFromInterrupt]
@[simp] theorem returnFromInterrupt_cfg (s : State) : (returnFromInterrupt s).cfg = s.cfg := by
  simp [returnFromInterrupt]
@[simp] theorem readJumpPointer_cart (p : Addr) (s : State) : (readJumpPointer p s).st.cart = s.cart := by
  simp [readJumpPointer]
@[simp] theorem readJumpPointer_cfg (p : Addr) (s : State) : (readJumpPointer p s).st.cfg = s.cfg := by
  simp [readJumpPointer]

theorem ExecShape.flag {f : Flag} (hu : f ≠ .u) (hb : f ≠ .b) (v : Bool) (s : State) : ExecShape s (flagInstr f v s) :=
  .reg fun _ h => Regs.pOk_setFlag h hu hb rfl

/-- Every instruction has one of the shapes. -/
theorem exec_shape (i : Instr) (s : State) : ExecShape s (exec i s) := by
  cases i with
  | tax | tay | txa | tya | tsx | inx | iny | dex | dey => exact .reg fun _ h => Regs.pOk_nz h rfl
  | xaa | lxa => exact .reg fun _ h => Regs.pOk_nz h rfl
  | txs | nop | unk => exact .reg fun _ h => h
  | clc | sec | cli | sei | clv | cld | sed => exact .flag (by decide) (by decide) _ s
  | anc | anc2B => exact .reg fun _ h => Regs.pOk_congr h (by simp [ancRegs]) (by simp [ancRegs])
  | alr => exact .reg fun _ h => Regs.pOk_congr h (by simp [alrRegs]) (by simp [alrRegs])
  | arr => exact .reg fun _ h => Regs.pOk_congr h (by simp [arrRegs]) (by simp [arrRegs])
  | sbx => exact .reg fun _ h => compareRegs_pOk h
  | usbc => exact .reg fun _ => adcCore_pOk
  | lda | ldx | ldy | and | ora | eor | lax | las =>
    dsimp only [exec, execLda, execLdx, execLdy, execAnd, execOra, execEor, execLax, execLas]
    exact .read fun _ _ h => Regs.pOk_nz h rfl
  | adc | sbc => exact .read fun _ _ => adcCore_pOk
  | cmp | cpx | cpy => exact .read fun _ _ => compareRegs_pOk
  | bit => exact .read fun _ _ h => Regs.pOk_congr h (by simp [bitTest]) (by simp [bitTest])
  | sta | stx | sty | sax | shy | shx | ahx =>
    dsimp only [exec, execSta, execStx, execSty, execSax, execShy, execShx, execAhx]
    exact .store s.regs.sp
  | tas =>
    dsimp only [exec, execTas]
    exact .store (s.regs.a &&& s.regs.x)
  | inc | dec | asl | lsr | rol | ror | slo | rla | sre =>
    dsimp only [exec, execInc, execDec, execAsl, execLsr, execRol, execRor, execSlo, execRla, execSre]
    exact .modify fun _ _ h => Regs.pOk_nz h rfl
  | rra | isc => exact .modify fun _ _ => adcCore_pOk
  | dcp => exact .modify fun _ _ => compareRegs_pOk
  | bpl | bmi | bvc | bvs | bcc | bcs | bne | beq => exact .branch
  | jmpAbs => exact .stackOrJump (fun h => (h.setPC _).charge _) rfl rfl
  | jmpInd => exact .stackOrJump (fun h => (((h.busRead _).busRead _).setPC _).charge _) (by simp) (by simp)
  | jsr => exact .stackOrJump (fun h => (((h.push _).push _).setPC _).charge _) (by simp) (by simp)
  | rts => exact .stackOrJump (fun h => ((h.pull.pull).setPC _).charge _) (by simp) (by simp)
  | rti => exact .stackOrJump (fun h => h.returnFromInterrupt.charge _) (by simp) (by simp)
  | brk => exact .stackOrJump (fun h => ((h.setPC _).interrupt _ _).charge _) (by simp) (by simp)
  | pha | php => exact .stackOrJump (fun h => (h.push _).charge _) (by simp) (by simp)
  | pla => exact .stackOrJump (fun h => (h.pull.mapRegs (Regs.pOk_nz h.pull.p rfl)).charge _) (by simp) (by simp)
  | plp => exact .stackOrJump (fun h => (h.pull.setP (pulledP_pOk rfl)).charge _) (by simp) (by simp)

/-- R402: what a CPU step leaves, for a property of the state after it. -/
theorem cpuStep_cases {P : State → Prop} {s t : State} (ht : cpuStep s = .next t)
    (hstall : P (stallCycle s)) (hnmi : P (serviceNmi s)) (hirq : P (serviceIrq s))
    (hinstr : ∀ i, exec i (fetchInstr s).st = .next t → P t) : P t := by
  unfold cpuStep at ht
  split_ifs at ht
  · cases ht; exact hstall
  · cases ht; exact hnmi
  · cases ht; exact hirq
  · obtain ⟨i, rest, hd⟩ := decode_fetchInstr s
    simp only [runInstr, hd] at ht
    exact hinstr i ht

/-- R415: a step is a CPU step and then three PPU ticks for each of its cycles. -/
theorem step_next {s t : State} (ht : step s = .next t) :
    ∃ u, cpuStep s = .next u ∧ t = ticks (3 * returnedCycles s u) u := by
  unfold step systemStep at ht
  split at ht
  case h_1 u hu => cases ht; exact ⟨u, hu, rfl⟩
  all_goals cases ht

/-! ### The invariant -/

theorem ExecShape.inv {s t : State} {r : Result} (hr : ExecShape s r) (h : s.Inv) (ht : r = .next t) : t.Inv := by
  cases hr with
  | reg hf => exact h.regInstr (hf _ h.p) ht
  | read hf => exact h.readInstr (fun v => hf v _ h.p) ht
  | store sp => exact (h.setSP sp).storeInstr ht
  | modify hg => exact h.modifyInstr hg ht
  | branch => exact h.branchInstr ht
  | stackOrJump inv => cases ht; exact inv h

theorem State.Inv.cpuStep {s t : State} (h : s.Inv) (ht : Machine.cpuStep s = .next t) : t.Inv :=
  cpuStep_cases ht h.stallCycle h.serviceNmi h.serviceIrq fun i => (exec_shape i _).inv h.fetchInstr

/-- Settles O9: a CPU step keeps the invariant in each of its branches, and so does every tick after it. -/
theorem stepKeepsInvariant : Obligations.StepKeepsInvariant := by
  intro s t h ht
  obtain ⟨u, hu, rfl⟩ := step_next ht
  exact (h.cpuStep hu).ticks _

/-- Settles O10: the reset state's registers, counters and empty memories meet each clause. -/
theorem resetMeetsInvariant : Obligations.ResetMeetsInvariant where
  p := ⟨rfl, rfl⟩
  pos := ⟨by decide, by decide, by decide⟩
  status := rfl
  line := ⟨Nat.zero_le 8, by simp [State.reset, Ppu.cleared]⟩
  rows := trivial
  memories := ⟨rfl, rfl, rfl, rfl, rfl, rfl⟩

/-! ### The configuration (R4, R22, R63, R69) -/

/-- `t` has the parameters and the cartridge of `s`, but for CHR where CHR is writable. -/
structure SameConfig (s t : State) : Prop where
  cfg : t.cfg = s.cfg
  cart : t.cart = { s.cart with chr := t.cart.chr }
  readOnly : s.cart.chrWritable = false → t.cart = s.cart

theorem SameConfig.of_eq {s t : State} (cfg : t.cfg = s.cfg) (cart : t.cart = s.cart) : SameConfig s t :=
  ⟨cfg, by rw [cart], fun _ => cart⟩

/-- A state with the parameters and the cartridge of `t` does for `t`. -/
theorem SameConfig.congr {s t u : State} (h : SameConfig s t) (cfg : u.cfg = t.cfg) (cart : u.cart = t.cart) :
    SameConfig s u :=
  ⟨cfg.trans h.cfg, by rw [cart]; exact h.cart, fun hr => cart.trans (h.readOnly hr)⟩

theorem SameConfig.trans {s t u : State} (h : SameConfig s t) (h' : SameConfig t u) : SameConfig s u :=
  ⟨h'.cfg.trans h.cfg, by rw [h'.cart, h.cart], fun hr =>
    (h'.readOnly (by rw [h.readOnly hr]; exact hr)).trans (h.readOnly hr)⟩

/-- R69: a PPU write leaves read-only CHR alone. -/
theorem ppuWrite_readOnly (a : PpuAddr) (v : Byte) {s : State} (hr : s.cart.chrWritable = false) :
    (ppuWrite a v s).cart = s.cart := by
  simp only [ppuWrite, hr, Bool.false_eq_true, if_false]
  split_ifs <;> rfl

theorem portWrite_readOnly (n : PpuPort) (v : Byte) {s : State} (hr : s.cart.chrWritable = false) :
    (portWrite n v s).cart = s.cart := by
  cases n
  case data => exact ppuWrite_readOnly _ v hr
  case control | scroll | address =>
    simp only [portWrite, writeControl, writeScroll, writeAddress]
    split_ifs <;> rfl
  all_goals rfl

theorem oamDma_cart (page : Byte) (s : State) : (oamDma page s).cart = s.cart := (dmaPrefix_effect page s 256).cart

theorem busWrite_readOnly (a : Addr) (v : Byte) {s : State} (hr : s.cart.chrWritable = false) :
    (busWrite a v s).cart = s.cart := by
  simp only [busWrite, writeRegion]
  cases regionOf a
  case ppuPort => exact portWrite_readOnly _ v hr
  case oamDma => exact oamDma_cart v _
  all_goals rfl

theorem busWrite_sameConfig (a : Addr) (v : Byte) (s : State) : SameConfig s (busWrite a v s) where
  cfg := busWrite_cfg a v s
  cart := congrArg State.cart (busWrite_effect a v s)
  readOnly := busWrite_readOnly a v

@[simp] theorem effAddr_cart (m : Operand) (s : State) : (effAddr m s).st.cart = s.cart := (effAddr_read m s).cart
@[simp] theorem effAddr_cfg (m : Operand) (s : State) : (effAddr m s).st.cfg = s.cfg := (effAddr_read m s).cfg

theorem storeInstr_sameConfig {m : Operand} {value : Byte → Regs → Byte} {s t : State}
    (ht : storeInstr m value s = .next t) : SameConfig s t := by
  cases ht
  exact ((SameConfig.of_eq (effAddr_cfg m s) (effAddr_cart m s)).trans (busWrite_sameConfig _ _ _)).congr rfl rfl

theorem modifyOperand_sameConfig (f : Bool → Byte → Shifted) (m : Operand) (s : State) :
    SameConfig s (modifyOperand f m s).st := by
  cases m
  case acc => exact .of_eq rfl rfl
  all_goals
    refine SameConfig.trans (.of_eq ?_ ?_) (busWrite_sameConfig _ _ _)
    · simp
    · simp

theorem ExecShape.sameConfig {s t : State} {r : Result} (hr : ExecShape s r) (ht : r = .next t) : SameConfig s t := by
  cases hr with
  | reg => cases ht; exact .of_eq rfl rfl
  | read => cases ht; exact .of_eq (readOperand_effect _ s).cfg (readOperand_effect _ s).cart
  | store sp => exact (SameConfig.of_eq (s := s) (t := s.setSP sp) rfl rfl).trans (storeInstr_sameConfig ht)
  | modify => cases ht; exact (modifyOperand_sameConfig _ _ s).congr rfl rfl
  | @branch c _ => cases c <;> cases ht <;> exact .of_eq rfl rfl
  | stackOrJump _ cart cfg => cases ht; exact .of_eq cfg cart

theorem fetch_sameConfig (s : State) : SameConfig s (fetch s).st :=
  .of_eq (busRead_cfg s.regs.pc s) (busRead_cart s.regs.pc s)

theorem fetchBytes_sameConfig (n : Nat) (s : State) : SameConfig s (fetchBytes n s).st := by
  induction n generalizing s with
  | zero => exact .of_eq rfl rfl
  | succ n ih => exact (fetch_sameConfig s).trans (ih _)

theorem fetchInstr_sameConfig (s : State) : SameConfig s (fetchInstr s).st :=
  (fetch_sameConfig s).trans (fetchBytes_sameConfig _ _)

theorem cpuStep_sameConfig {s t : State} (ht : cpuStep s = .next t) : SameConfig s t :=
  cpuStep_cases ht (.of_eq rfl rfl) (.of_eq (by simp [serviceNmi]) (by simp [serviceNmi]))
    (.of_eq (by simp [serviceIrq]) (by simp [serviceIrq])) fun i hi =>
    (fetchInstr_sameConfig s).trans ((exec_shape i _).sameConfig hi)

/-- Settles O11: of a step's parts only a bus write reaches the cartridge, and it reaches writable CHR alone. -/
theorem stepKeepsConfiguration : Obligations.StepKeepsConfiguration := by
  intro s t ht
  obtain ⟨u, hu, rfl⟩ := step_next ht
  have hticks := ticks_effect (3 * returnedCycles s u) u
  obtain ⟨cfg, cart, readOnly⟩ := (cpuStep_sameConfig hu).congr hticks.cfg hticks.cart
  exact ⟨cfg, cart, readOnly⟩

end Sys2Proof.Machine

/-! The CPU bus and the PPU bus (spec/20_memory.md): the rows of R54 and R55 that no earlier file says, and from the rows read
after write in RAM, PRG, the open-bus ranges, the controller port and the PPU bus, and OAM DMA by the store that triggers it. -/

namespace Sys2Proof.Machine

/-! ### The rows without storage, and the last-bus byte (R61, R62, R64, R65) -/

theorem State.setLastBus_self (s : State) : s.setLastBus s.bus.lastBus = s := rfl

theorem regionOf_eq_oamDma {a : Addr} : regionOf a = .oamDma ↔ a = 0x4014 := by
  constructor
  · intro h
    simp only [regionOf] at h
    split_ifs at h with _ _ ha
    exact BitVec.eq_of_toNat_eq ha
  · rintro rfl
    rfl

/-- R62, R64: between $4000 and $8000 only $4014, $4016 and $4017 are neither placeholder nor unmapped. -/
theorem regionOf_unmapped {a : Addr} (h : 0x4000 ≤ a.toNat) (h' : a.toNat < 0x8000) (hd : a ≠ 0x4014) (hc : a ≠ 0x4016)
    (hc' : a ≠ 0x4017) : regionOf a = .placeholder ∨ regionOf a = .openBus := by
  have ne {n : Nat} (hn : a ≠ BitVec.ofNat 16 n) : a.toNat ≠ n := fun e => hn (by rw [← e, BitVec.ofNat_toNat]; simp)
  rw [regionOf, if_neg (by omega), if_neg (by omega), if_neg (ne hd), if_neg (ne hc), if_neg (ne hc'), if_pos h']
  split
  · exact .inl rfl
  · exact .inr rfl

/-- R62, R64: $4000 to $7FFF but for the controller ports (decisions D12, D13). -/
theorem busRead_unmapped {a : Addr} (h : 0x4000 ≤ a.toNat) (h' : a.toNat < 0x8000) (hc : a ≠ 0x4016) (hc' : a ≠ 0x4017)
    (s : State) : busRead a s = ⟨s.bus.lastBus, s⟩ := by
  by_cases hd : a = 0x4014
  · subst hd
    rfl
  · rcases regionOf_unmapped h h' hd hc hc' with hr | hr <;> simp only [busRead, readRegion, hr, State.setLastBus_self]

theorem busWrite_unmapped {a : Addr} (h : 0x4000 ≤ a.toNat) (h' : a.toNat < 0x8000) (hd : a ≠ 0x4014) (hc : a ≠ 0x4016)
    (hc' : a ≠ 0x4017) (v : Byte) (s : State) : busWrite a v s = s.setLastBus v := by
  rcases regionOf_unmapped h h' hd hc hc' with hr | hr <;> simp only [busWrite, writeRegion, hr]

theorem ppuWrite_bus (a : PpuAddr) (v : Byte) (s : State) : (ppuWrite a v s).bus = s.bus := by
  unfold ppuWrite
  split_ifs <;> rfl

theorem portWrite_bus (n : PpuPort) (v : Byte) (s : State) : (portWrite n v s).bus = s.bus := by
  cases n
  case data => exact ppuWrite_bus _ v s
  case control | scroll | address =>
    simp only [portWrite, writeControl, writeScroll, writeAddress]
    split_ifs <;> rfl
  all_goals rfl

/-- R65: after a write the last-bus byte is the byte written; OAM DMA alone reads after it. -/
theorem busWrite_lastBus {a : Addr} (h : a ≠ 0x4014) (v : Byte) (s : State) : (busWrite a v s).bus.lastBus = v := by
  simp only [busWrite, writeRegion]
  cases hr : regionOf a
  case ppuPort => simp only [portWrite_bus, State.setLastBus_bus_lastBus]
  case oamDma => exact absurd (regionOf_eq_oamDma.mp hr) h
  all_goals rfl

/-- R312: the ports without a read rule. -/
theorem portRead_writeOnly {a : Addr}
    (h : a.toNat % 8 = 0 ∨ a.toNat % 8 = 1 ∨ a.toNat % 8 = 3 ∨ a.toNat % 8 = 5 ∨ a.toNat % 8 = 6) (s : State) :
    portRead (portOf a) s = ⟨s.bus.lastBus, s⟩ := by
  unfold portOf
  rcases h with h | h | h | h | h <;> rw [h] <;> rfl

theorem portOf_status {a : Addr} (h : a.toNat % 8 = 2) : portOf a = .status := by
  simp only [portOf, h]

/-- Settles O41: each row of R54 and R55 that stores nothing, by the row's own rule. -/
theorem lastBusAndOpenBusReads : Obligations.LastBusAndOpenBusReads := by
  intro a v s
  refine ⟨rfl, (busWrite_lastBus · v s), ⟨rfl, rfl⟩, fun h h' hc hc' => ?_, fun h h' => ⟨fun hp => ?_, fun hp => ?_⟩⟩
  · exact ⟨busRead_unmapped h h' hc hc' s, fun hd => busWrite_unmapped h h' hd hc hc' v s⟩
  · rw [busRead_port h h', portRead_writeOnly hp, State.setLastBus_self]
  · rw [busWrite_port h h', portOf_status hp]
    rfl

/-! ### RAM (R56) and PRG (R63) -/

/-- Settles O39: both addresses name the RAM cell of their low eleven bits. -/
theorem ramReadAfterWrite : Obligations.RamReadAfterWrite := by
  intro a b v s ha hb hw
  rw [busWrite_ram ha, busRead_ram hb, busRead_ram hb]
  refine ⟨?_, rfl⟩
  simp only [readCell_writeCell hw, ramIndex, eq_comm (a := b.toNat % 2048)]

/-- R55, R63: PRG takes no write. -/
theorem busWrite_inPrg {a : Addr} (h : 0x8000 ≤ a.toNat) (v : Byte) (s : State) : busWrite a v s = s.setLastBus v := by
  simp only [busWrite, writeRegion, regionOf_prg h]

theorem prgBytes_eq (size : PrgSize) : prgBytes size = if size = .kib16 then 16384 else 32768 := by
  cases size <;> rfl

/-- R63: 16 KiB of PRG appear a second time $4000 above. -/
theorem prgIndex_mirror {a b : Addr} (h : 0x8000 ≤ a.toNat) (hb : b.toNat = a.toNat + 0x4000) :
    prgIndex .kib16 b = prgIndex .kib16 a := by
  simp only [prgIndex, prgBytes, hb]
  omega

/-- Settles O40: a read of PRG takes the offset modulo the size, and 16384 is a multiple of the small size. -/
theorem prgReadsWrapAndWritesIgnored : Obligations.PrgReadsWrapAndWritesIgnored := by
  intro a v s h
  refine ⟨?_, busWrite_inPrg h v s, fun hk h' => ?_⟩
  · simp only [busRead_prg h, prgIndex, prgBytes_eq]
  · have hb : (a + 0x4000).toNat = a.toNat + 0x4000 := by
      rw [BitVec.toNat_add]
      exact Nat.mod_eq_of_lt (Nat.add_lt_add_right h' _)
    rw [busRead_prg h, busRead_prg (by omega), hk, prgIndex_mirror h hb]

/-! ### The controller port (R59, R60) -/

/-- R60: what a read of the port makes of the register it reads. -/
def serialByte (b : Byte) : Byte := 0x40 ||| (b &&& 1)

theorem serialByte_eq (b : Byte) : serialByte b = if b.getLsbD 0 then 0x41 else 0x40 := by
  have h : b &&& 1 = (BitVec.ofBool (b.getLsbD 0)).setWidth 8 := BitVec.and_one_eq_setWidth_ofBool_getLsbD
  unfold serialByte
  rw [h]
  cases b.getLsbD 0 <;> rfl

/-- R60: the shift register after a read. -/
def shiftIn (b : Byte) : Byte := (b >>> 1) ||| 0x80

theorem shiftIn_getLsbD (b : Byte) {k : Nat} (hk : k < 8) : (shiftIn b).getLsbD k = (b.getLsbD (k + 1) || k == 7) := by
  unfold shiftIn
  interval_cases k <;> simp

/-- R60 with strobe high. -/
theorem busRead_controller_high {s : State} (h : s.bus.strobe = true) :
    busRead 0x4016 s = ⟨serialByte s.bus.controllerByte, s.setLastBus (serialByte s.bus.controllerByte)⟩ := by
  have hr : readRegion 0x4016 s = ⟨serialByte s.bus.controllerByte, s⟩ := if_pos h
  rw [busRead, hr]

/-- R60 with strobe low. -/
theorem busRead_controller_low {s : State} (h : s.bus.strobe = false) :
    busRead 0x4016 s = ⟨serialByte s.bus.shift,
      { s with bus := { s.bus with lastBus := serialByte s.bus.shift, shift := shiftIn s.bus.shift } }⟩ := by
  have hr : readRegion 0x4016 s = ⟨serialByte s.bus.shift, { s with bus.shift := shiftIn s.bus.shift }⟩ :=
    if_neg (by simp [h])
  rw [busRead, hr]
  rfl

/-- R59. -/
theorem busWrite_controller (v : Byte) (s : State) :
    busWrite 0x4016 v s = { s with
      bus := { s.bus with
        lastBus := v
        strobe := v.getLsbD 0
        shift := if s.bus.strobe = true ∧ v.getLsbD 0 = false then s.bus.controllerByte else s.bus.shift } } := by
  have hw : busWrite 0x4016 v s = writeController v (s.setLastBus v) := rfl
  rw [hw, writeController]
  simp [State.setLastBus]

/-- Strobe is low, and of the controller byte `c` the first `k` bits are shifted out, a 1 shifted in for each. -/
structure ShiftedOut (c : Byte) (k : Nat) (s : State) : Prop where
  strobe : s.bus.strobe = false
  shift : ∀ j, j < 8 → s.bus.shift.getLsbD j = (c.getLsbD (j + k) || decide (8 ≤ j + k))

/-- The fall of strobe takes the whole controller byte. -/
theorem ShiftedOut.of_fall {v1 v0 : Byte} (h1 : v1.getLsbD 0 = true) (h0 : v0.getLsbD 0 = false) (s : State) :
    ShiftedOut s.bus.controllerByte 0 (busWrite 0x4016 v0 (busWrite 0x4016 v1 s)) := by
  have hs : (busWrite 0x4016 v0 (busWrite 0x4016 v1 s)).bus.shift = s.bus.controllerByte := by
    rw [busWrite_controller v0, busWrite_controller v1]
    exact if_pos ⟨h1, h0⟩
  refine ⟨by rw [busWrite_controller v0]; exact h0, fun j hj => ?_⟩
  rw [hs, Nat.add_zero, decide_eq_false (Nat.not_le.mpr hj), Bool.or_false]

theorem ShiftedOut.read {c : Byte} {k : Nat} {s : State} (h : ShiftedOut c k s) :
    ShiftedOut c (k + 1) (busRead 0x4016 s).st := by
  rw [busRead_controller_low h.strobe]
  refine ⟨h.strobe, fun j hj => ?_⟩
  rw [shiftIn_getLsbD _ hj]
  by_cases h7 : j = 7
  · subst h7
    simp [show 8 ≤ 7 + (k + 1) by omega]
  · rw [h.shift (j + 1) (by omega), show j + 1 + k = j + (k + 1) by omega]
    simp [h7]

theorem ShiftedOut.reads {c : Byte} {s : State} (h : ShiftedOut c 0 s) (k : Nat) :
    ShiftedOut c k (Nat.repeat (fun u => (busRead 0x4016 u).st) k s) := by
  induction k with
  | zero => exact h
  | succ k ih => exact ih.read

/-- The next read gives bit `k` of the controller byte, and 1 when all eight are out. -/
theorem ShiftedOut.val {c : Byte} {k : Nat} {s : State} (h : ShiftedOut c k s) :
    (busRead 0x4016 s).val = if k < 8 then 0x40 ||| (if c.getLsbD k then 1 else 0) else 0x41 := by
  rw [busRead_controller_low h.strobe]
  dsimp only
  rw [serialByte_eq, h.shift 0 (by decide), Nat.zero_add]
  by_cases hk : k < 8
  · rw [if_pos hk, decide_eq_false (by omega), Bool.or_false]
    cases c.getLsbD k <;> rfl
  · rw [if_neg hk, decide_eq_true (by omega), Bool.or_true, if_pos rfl]

/-- When all eight bits are out the shift register holds the 1s alone. -/
theorem ShiftedOut.shift_eq {c : Byte} {k : Nat} {s : State} (h : ShiftedOut c k s) (hk : 8 ≤ k) : s.bus.shift = 0xFF := by
  apply BitVec.eq_of_getLsbD_eq
  intro j hj
  rw [h.shift j hj, decide_eq_true (by omega), Bool.or_true]
  interval_cases j <;> rfl

/-- Settles O42: R59 and R60 as they stand, and the serial read by induction on the reads. -/
theorem controllerShiftsOutSnapshot : Obligations.ControllerShiftsOutSnapshot := by
  intro s v v1 v0 h1 h0
  have hlow := (ShiftedOut.of_fall h1 h0 s).reads
  refine ⟨busWrite_controller v s, fun h => ?_, fun h => ?_, fun k => (hlow k).val, fun k => (hlow k).shift_eq⟩
  · exact ⟨_, busRead_controller_high h, serialByte_eq _⟩
  · exact ⟨_, _, busRead_controller_low h, serialByte_eq _, fun k => shiftIn_getLsbD _⟩

/-! ### The PPU bus (R68 to R71) -/

theorem ppuRead_chr {a : PpuAddr} (h : a.toNat < 0x2000) (s : State) : ppuRead a s = readCell s.cart.chr a.toNat := by
  rw [ppuRead, if_pos h, Nat.mod_eq_of_lt h]

theorem ppuRead_nametable {a : PpuAddr} (h : 0x2000 ≤ a.toNat) (h' : a.toNat < 0x3F00) (s : State) :
    ppuRead a s = readCell s.ppu.vram (vramIndex s.cart.mirroring a) := by
  rw [ppuRead, if_neg (Nat.not_lt.mpr h), if_pos h']

theorem ppuRead_palette {a : PpuAddr} (h : 0x3F00 ≤ a.toNat) (s : State) :
    ppuRead a s = (readCell s.ppu.palette (paletteIndex a)).setWidth 8 := by
  rw [ppuRead, if_neg (by omega), if_neg (by omega)]

/-- A PPU address lies in CHR, in a nametable or in the palette. -/
theorem ppuAddr_cases (a : PpuAddr) : a.toNat < 0x2000 ∨ (0x2000 ≤ a.toNat ∧ a.toNat < 0x3F00) ∨ 0x3F00 ≤ a.toNat := by
  omega

theorem ppuWrite_chr {a : PpuAddr} (h : a.toNat < 0x2000) (v : Byte) (s : State) :
    ppuWrite a v s = { s with
      cart.chr := if s.cart.chrWritable = true then writeCell s.cart.chr a.toNat v else s.cart.chr } := by
  rw [ppuWrite, if_pos h, Nat.mod_eq_of_lt h]
  split_ifs <;> rfl

theorem ppuWrite_nametable {a : PpuAddr} (h : 0x2000 ≤ a.toNat) (h' : a.toNat < 0x3F00) (v : Byte) (s : State) :
    ppuWrite a v s = { s with ppu.vram := writeCell s.ppu.vram (vramIndex s.cart.mirroring a) v } := by
  rw [ppuWrite, if_neg (Nat.not_lt.mpr h), if_pos h']

theorem ppuWrite_palette {a : PpuAddr} (h : 0x3F00 ≤ a.toNat) (v : Byte) (s : State) :
    ppuWrite a v s = { s with ppu.palette := writeCell s.ppu.palette (paletteIndex a) (v.setWidth 6) } := by
  rw [ppuWrite, if_neg (by omega), if_neg (by omega)]

/-- R69: CHR keeps a byte at the one address it was written to, where it is writable. -/
theorem ppuRead_ppuWrite_chr {s : State} (hw : Memory.wf 8192 s.cart.chr = true) {a : PpuAddr} (ha : a.toNat < 0x2000)
    (b : PpuAddr) (v : Byte) :
    ppuRead b (ppuWrite a v s) = if b = a ∧ s.cart.chrWritable = true then v else ppuRead b s := by
  rw [ppuWrite_chr ha]
  by_cases hc : s.cart.chrWritable = true
  · simp only [hc, if_true, and_true]
    rcases ppuAddr_cases b with hb | ⟨hb, hb'⟩ | hb
    · simp only [ppuRead_chr hb, readCell_writeCell hw, BitVec.toNat_inj]
    · rw [if_neg (by rintro rfl; omega)]
      simp only [ppuRead_nametable hb hb']
    · rw [if_neg (by rintro rfl; omega)]
      simp only [ppuRead_palette hb]
  · rw [if_neg hc, if_neg fun h => hc h.2]

/-- R70: a nametable byte reads back at the addresses of the same VRAM cell. -/
theorem ppuRead_ppuWrite_nametable {s : State} (hw : Memory.wf 2048 s.ppu.vram = true) {a : PpuAddr} (ha : 0x2000 ≤ a.toNat)
    (ha' : a.toNat < 0x3F00) (b : PpuAddr) (v : Byte) :
    ppuRead b (ppuWrite a v s) =
      if 0x2000 ≤ b.toNat ∧ b.toNat < 0x3F00 ∧ vramIndex s.cart.mirroring b = vramIndex s.cart.mirroring a then v
      else ppuRead b s := by
  rw [ppuWrite_nametable ha ha']
  rcases ppuAddr_cases b with hb | ⟨hb, hb'⟩ | hb
  · rw [if_neg (by omega)]
    simp only [ppuRead_chr hb]
  · simp only [ppuRead_nametable hb hb', readCell_writeCell hw, hb, hb', true_and]
  · rw [if_neg (by omega)]
    simp only [ppuRead_palette hb]

/-- R71 in numbers: which addresses name the same palette entry. -/
theorem paletteIndex_eq_iff (a b : PpuAddr) :
    paletteIndex b = paletteIndex a ↔
      a.toNat % 32 = b.toNat % 32 ∨ (a.toNat % 16 = b.toNat % 16 ∧ a.toNat % 4 = 0) := by
  rw [paletteIndex_eq, paletteIndex_eq]
  split_ifs <;> omega

/-- R29: a byte that went through a palette entry keeps its low six bits (decision D36). -/
theorem setWidth_six_eight (v : Byte) : (v.setWidth 6).setWidth 8 = v &&& 0x3F := by
  apply BitVec.eq_of_toNat_eq
  rw [BitVec.toNat_and, show (0x3F : Byte).toNat = 2 ^ 6 - 1 from rfl, Nat.and_two_pow_sub_one_eq_mod]
  simp only [BitVec.toNat_setWidth]
  omega

/-- R71: six bits of a palette byte read back at the addresses of the same entry. -/
theorem ppuRead_ppuWrite_palette {s : State} (hw : cellsWf 32 s.ppu.palette = true) {a : PpuAddr} (ha : 0x3F00 ≤ a.toNat)
    (b : PpuAddr) (v : Byte) :
    ppuRead b (ppuWrite a v s) =
      if 0x3F00 ≤ b.toNat ∧ paletteIndex b = paletteIndex a then v &&& 0x3F else ppuRead b s := by
  rw [ppuWrite_palette ha]
  rcases ppuAddr_cases b with hb | ⟨hb, hb'⟩ | hb
  · rw [if_neg (by omega)]
    simp only [ppuRead_chr hb]
  · rw [if_neg (by omega)]
    simp only [ppuRead_nametable hb hb']
  · simp only [ppuRead_palette hb, readCell_writeCell hw, hb, true_and, apply_ite (BitVec.setWidth 8), setWidth_six_eight]

theorem vramIndex_horizontal (a : PpuAddr) :
    vramIndex .horizontal a =
      (if (a.toNat - 0x2000) % 0x1000 < 0x800 then 0 else 0x400) + (a.toNat - 0x2000) % 0x1000 % 0x400 := by
  simp only [vramIndex]
  split_ifs <;> omega

theorem vramIndex_vertical (a : PpuAddr) :
    vramIndex .vertical a =
      (if (a.toNat - 0x2000) % 0x1000 / 0x400 = 1 ∨ (a.toNat - 0x2000) % 0x1000 / 0x400 = 3 then 0x400 else 0) +
        (a.toNat - 0x2000) % 0x1000 % 0x400 := by
  simp only [vramIndex]
  split_ifs <;> omega

/-- R70: with 2 KiB of VRAM, four-screen folds the tables as vertical mirroring does (decision D25). -/
theorem vramIndex_fourScreen (a : PpuAddr) : vramIndex .fourScreen a = vramIndex .vertical a := by
  simp only [vramIndex]
  omega

/-- Settles O48: read after write in each of the three areas, and R70 and R71 in numbers. -/
theorem ppuBusReadAfterWrite : Obligations.PpuBusReadAfterWrite := by
  intro a b v s ⟨_, _, hchr, _, hvram, hpalette⟩
  refine ⟨fun ha => ppuRead_ppuWrite_chr hchr ha b v, fun ha ha' => ?_, fun ha => ?_⟩
  · exact ⟨vramIndex_horizontal a, vramIndex_vertical a, vramIndex_fourScreen a, ppuRead_ppuWrite_nametable hvram ha ha' b v⟩
  · simp only [ppuRead_ppuWrite_palette hpalette ha, paletteIndex_eq_iff]

/-! ### OAM DMA (R58) -/

/-- R58, decision D9: the copy of a page, by the `STA` that triggers it. -/
theorem exec_sta_oamDma (s : State) :
    exec (.sta (.abs 0x4014)) s = .next ((oamDma s.regs.a (s.setLastBus s.regs.a)).charge 4) := by
  have h : exec (.sta (.abs 0x4014)) s = .next ((busWrite 0x4014 s.regs.a s).charge 4) := rfl
  rw [h, busWrite, writeRegion, regionOf_eq_oamDma.mpr rfl]

/-- R58: after the copy the stall grows by 513 and the parity of the cycle counter. -/
theorem oamDma_eq (page : Byte) (s : State) :
    oamDma page s = { dmaPrefix page s 256 with
      cpu := { s.cpu with stall := s.cpu.stall + 513 + s.cpu.cycles.toNat % 2 } } := by
  have hc : (dmaPrefix page s 256).cpu = s.cpu := (dmaPrefix_effect page s 256).cpu
  rw [oamDma, ← dmaPrefix_all]
  dsimp only
  rw [hc]

/-- Each byte of a copy is read in the state before it, and stored in OAM. -/
theorem dmaPrefix_succ_eq (page : Byte) (s : State) (k : Nat) :
    dmaPrefix page s (k + 1) = { (busRead (dmaSource page k) (dmaPrefix page s k)).st with
      ppu.oam := (dmaPrefix page s (k + 1)).ppu.oam } := by
  rw [dmaPrefix_succ]
  rfl

/-- No two of the 256 bytes land in one OAM cell, so each stays where it landed. -/
theorem dmaPrefix_copied (page : Byte) {s : State} (hw : Memory.wf 256 s.ppu.oam = true) {i k : Nat} (hi : i < k)
    (hk : k ≤ 256) :
    readCell (dmaPrefix page s k).ppu.oam ((s.ppu.oamAddr.toNat + i) % 256) =
      (busRead (dmaSource page i) (dmaPrefix page s i)).val := by
  induction k with
  | zero => omega
  | succ k ih =>
    rw [dmaPrefix_oam page hw]
    by_cases e : i = k
    · subst e
      rw [if_pos rfl]
    · rw [if_neg (by omega), ih (by omega) (by omega)]

/-- R54: the pages below $20 lie in RAM, those from $80 on in PRG, and so their bytes are stored ones. -/
theorem storedByte_dmaSource {page : Byte} (hp : page.toNat < 0x20 ∨ 0x80 ≤ page.toNat) {i : Nat} (hi : i < 256) (s : State) :
    storedByte (dmaSource page i) s = some (busRead (dmaSource page i) s).val := by
  have hn : (dmaSource page i).toNat = page.toNat * 256 + i := by
    simp only [dmaSource, BitVec.toNat_ofNat]
    omega
  rcases hp with hp | hp
  · have ha : (dmaSource page i).toNat < 0x2000 := by omega
    rw [busRead_ram ha, storedByte, regionOf_ram ha]
  · have ha : 0x8000 ≤ (dmaSource page i).toNat := by omega
    rw [busRead_prg ha, storedByte, regionOf_prg ha]

/-- A copy changes no stored byte. -/
theorem storedByte_dmaPrefix (page : Byte) (s : State) (k : Nat) (a : Addr) :
    storedByte a (dmaPrefix page s k) = storedByte a s :=
  (dmaPrefix_effect page s k).stored a

/-- From a page that stores bytes, each read gives the byte stored before the copy and changes the last-bus byte only. -/
theorem busRead_dmaPrefix {page : Byte} (hp : page.toNat < 0x20 ∨ 0x80 ≤ page.toNat) {i : Nat} (hi : i < 256) (s : State) :
    ∃ v, storedByte (dmaSource page i) s = some v ∧
      busRead (dmaSource page i) (dmaPrefix page s i) = ⟨v, (dmaPrefix page s i).setLastBus v⟩ :=
  have hs := storedByte_dmaSource hp hi s
  ⟨_, hs, busRead_stored ((storedByte_dmaPrefix page s i _).trans hs)⟩

/-- Beside OAM, a copy from a page that stores bytes changes the last-bus byte only. -/
theorem dmaPrefix_stored {page : Byte} (hp : page.toNat < 0x20 ∨ 0x80 ≤ page.toNat) {k : Nat} (hk : k ≤ 256) (s : State) :
    dmaPrefix page s k = { s with
      bus.lastBus := (dmaPrefix page s k).bus.lastBus
      ppu.oam := (dmaPrefix page s k).ppu.oam } := by
  induction k with
  | zero => rfl
  | succ k ih =>
    obtain ⟨v, -, hr⟩ := busRead_dmaPrefix hp hk s
    have h := dmaPrefix_succ_eq page s k
    rw [hr, ih (by omega)] at h
    rw [h]
    rfl

/-- From a page that stores bytes, the last-bus byte is the last one read. -/
theorem dmaPrefix_lastBus {page : Byte} (hp : page.toNat < 0x20 ∨ 0x80 ≤ page.toNat) {k : Nat} (hk : k < 256) (s : State) :
    storedByte (dmaSource page k) s = some (dmaPrefix page s (k + 1)).bus.lastBus := by
  obtain ⟨v, hv, hr⟩ := busRead_dmaPrefix hp hk s
  rw [dmaPrefix_succ_eq, hr, hv]
  rfl

/-- From a page that stores bytes, the bytes copied are those stored before the copy. -/
theorem dmaPrefix_copied_stored {page : Byte} (hp : page.toNat < 0x20 ∨ 0x80 ≤ page.toNat) {s : State}
    (hw : Memory.wf 256 s.ppu.oam = true) {i k : Nat} (hi : i < k) (hk : k ≤ 256) :
    storedByte (dmaSource page i) s = some (readCell (dmaPrefix page s k).ppu.oam ((s.ppu.oamAddr.toNat + i) % 256)) := by
  obtain ⟨v, hv, hr⟩ := busRead_dmaPrefix hp (show i < 256 by omega) s
  rw [dmaPrefix_copied page hw hi hk, hr, hv]

theorem ReadEffect.setCpu {s t : State} (h : ReadEffect s t) (c : Cpu) :
    ReadEffect { s with cpu := c } { t with cpu := c } := by
  unfold ReadEffect at *
  rw [h]

/-- Settles O43: the `i`-th state is the one after `i` bytes of the copy. -/
theorem oamDmaCopiesPageAndStalls : Obligations.OamDmaCopiesPageAndStalls := by
  intro s hw source cpu
  have hw' : Memory.wf 256 (s.setLastBus s.regs.a).ppu.oam = true := hw
  have hs (a : Addr) : storedByte a (s.setLastBus s.regs.a) = storedByte a s := storedByte_congr rfl rfl rfl a
  refine ⟨{ dmaPrefix s.regs.a (s.setLastBus s.regs.a) 256 with cpu := cpu },
    dmaPrefix s.regs.a (s.setLastBus s.regs.a), ?_, rfl, fun i _ => ⟨?_, ?_⟩, rfl, ?_, fun hp => ⟨fun i hi => ?_, ?_, ?_⟩⟩
  · rw [exec_sta_oamDma, oamDma_eq]
    rfl
  · exact dmaPrefix_succ_eq s.regs.a _ i
  · exact dmaPrefix_oam s.regs.a hw' i
  · exact (ReadEffect.setLastBus s.regs.a _).trans ((dmaPrefix_effect s.regs.a _ 256).setCpu cpu)
  · rw [← hs]
    exact dmaPrefix_copied_stored hp hw' hi le_rfl
  · have h := dmaPrefix_stored hp le_rfl (s.setLastBus s.regs.a)
    generalize dmaPrefix s.regs.a (s.setLastBus s.regs.a) 256 = d at h ⊢
    rw [h]
    rfl
  · rw [← hs]
    exact dmaPrefix_lastBus hp (k := 255) (by decide) _

end Sys2Proof.Machine

/-! Encoding, fetch and addressing (spec/30_encoding.md): the decoder inverts the encoder and the encoder the decoder
(`decode_encode`, `decode_iff`, `opcodeEntry_encodes`), the fetch of stored bytes, the addressing modes in numbers, the jumps,
and the cycles of every instruction against the opcode matrix (`exec_inMatrixCycles`). -/

namespace Sys2Proof.Laws.EncodeDecode

/-- R100 to R119, every instruction: its own law. -/
theorem decode_encode (i : Instr) : Statement i :=
  match i with
  | .lda m => lda m | .ldx m => ldx m | .ldy m => ldy m | .sta m => sta m | .stx m => stx m | .sty m => sty m
  | .tax => tax | .tay => tay | .txa => txa | .tya => tya | .tsx => tsx | .txs => txs | .adc m => adc m
  | .sbc m => sbc m | .and m => and m | .ora m => ora m | .eor m => eor m | .cmp m => cmp m | .cpx m => cpx m
  | .cpy m => cpy m | .bit m => bit m | .inc m => inc m | .dec m => dec m | .inx => inx | .iny => iny | .dex => dex
  | .dey => dey | .asl m => asl m | .lsr m => lsr m | .rol m => rol m | .ror m => ror m | .jmpAbs a => jmpAbs a
  | .jmpInd p => jmpInd p | .jsr a => jsr a | .rts => rts | .rti => rti | .brk => brk | .bpl o => bpl o
  | .bmi o => bmi o | .bvc o => bvc o | .bvs o => bvs o | .bcc o => bcc o | .bcs o => bcs o | .bne o => bne o
  | .beq o => beq o | .pha => pha | .pla => pla | .php => php | .plp => plp | .clc => clc | .sec => sec | .cli => cli
  | .sei => sei | .clv => clv | .cld => cld | .sed => sed | .nop => nop | .lax m => lax m | .sax m => sax m
  | .slo m => slo m | .rla m => rla m | .sre m => sre m | .rra m => rra m | .dcp m => dcp m | .isc m => isc m
  | .anc v => anc v | .anc2B v => anc2B v | .alr v => alr v | .arr v => arr v | .sbx v => sbx v | .usbc v => usbc v
  | .xaa v => xaa v | .lxa v => lxa v | .las a => las a | .shy a => shy a | .shx a => shx a | .ahx m => ahx m
  | .tas a => tas a | .unk op => unk op

end Sys2Proof.Laws.EncodeDecode

namespace Sys2Proof.Machine

open Laws.EncodeDecode (decode_encode opcodeEntry_unknown)

/-! ### The decoder and the encoder (R100 to R102, R118, R119) -/

/-- Settles O1: each instruction's own law, for every operand form it has. -/
theorem decodeOfEncodeRoundTrip : Obligations.DecodeOfEncodeRoundTrip :=
  fun i rest h => decode_encode i h rest

/-- What the decoder does with a list of bytes: the cell of the first byte says how many operand bytes it takes (R100, R102), a
word low byte first (R109). -/
inductive Decodes : List Byte → Instr → List Byte → Prop where
  | none {op : Byte} {i : Instr} {rest : List Byte} (he : opcodeEntry op = .none i) : Decodes (op :: rest) i rest
  | byte {op v : Byte} {f : Byte → Instr} {rest : List Byte} (he : opcodeEntry op = .byte f) :
      Decodes (op :: v :: rest) (f v) rest
  | word {op l h : Byte} {f : Addr → Instr} {rest : List Byte} (he : opcodeEntry op = .word f) :
      Decodes (op :: l :: h :: rest) (f (w16 l h)) rest

theorem Decodes.decode_eq {bytes : List Byte} {i : Instr} {rest : List Byte} (h : Decodes bytes i rest) :
    decode bytes = .ok (i, rest) := by
  cases h with
  | none he | byte he | word he => simp only [decode, he]

theorem decodes_of_decode {bytes : List Byte} {i : Instr} {rest : List Byte} (h : decode bytes = .ok (i, rest)) :
    Decodes bytes i rest := by
  match bytes with
  | [] => cases h
  | op :: tail =>
    cases he : opcodeEntry op with
    | none j =>
      simp only [decode, he] at h
      cases h
      exact .none he
    | byte f =>
      match tail with
      | [] => simp [decode, he] at h
      | v :: tail =>
        simp only [decode, he] at h
        cases h
        exact .byte he
    | word f =>
      match tail with
      | [] | [_] => simp [decode, he] at h
      | l :: hb :: tail =>
        simp only [decode, he] at h
        cases h
        exact .word he

theorem decode_iff {bytes : List Byte} {i : Instr} {rest : List Byte} :
    decode bytes = .ok (i, rest) ↔ Decodes bytes i rest :=
  ⟨decodes_of_decode, Decodes.decode_eq⟩

/-- What a cell of the matrix makes is well-formed and encodes to the cell's opcode byte and the operand bytes given. -/
def CellEncodes (op : Byte) : OpcodeEntry → Prop
  | .none i => i.wf = true ∧ encode i = [op]
  | .byte f => ∀ v, (f v).wf = true ∧ encode (f v) = [op, v]
  | .word f => ∀ a, (f a).wf = true ∧ encode (f a) = [op, lo a, hi a]

/-- R118: the matrix agrees with the "Encoding" lines in all 256 cells, each checked by evaluation at its opcode byte. -/
theorem opcodeEntry_encodes (op : Byte) : CellEncodes op (opcodeEntry op) := by
  have cell : ∀ n < 256, CellEncodes (BitVec.ofNat 8 n) (opcodeEntry (BitVec.ofNat 8 n)) := by
    intro n hn
    interval_cases n
    -- a cell without operand bytes, or one with some
    all_goals
      first
        | exact ⟨rfl, rfl⟩
        | exact fun _ => ⟨rfl, rfl⟩
  simpa using cell op.toNat op.isLt

/-- Settles O2: by the format of the cell that decoded. -/
theorem encodeOfDecodeRoundTrip : Obligations.EncodeOfDecodeRoundTrip := by
  intro bytes i rest h
  cases decode_iff.mp h with
  | @none op _ _ he =>
    obtain ⟨hwf, henc⟩ : CellEncodes op (.none i) := he ▸ opcodeEntry_encodes op
    exact ⟨hwf, by rw [henc]; rfl⟩
  | @byte op v f _ he =>
    have hc : CellEncodes op (.byte f) := he ▸ opcodeEntry_encodes op
    obtain ⟨hwf, henc⟩ := hc v
    exact ⟨hwf, by rw [henc]; rfl⟩
  | @word op lb hb f _ he =>
    have hc : CellEncodes op (.word f) := he ▸ opcodeEntry_encodes op
    obtain ⟨hwf, henc⟩ := hc (w16 lb hb)
    exact ⟨hwf, by rw [henc, lo_w16, hi_w16]; rfl⟩

/-- R101: with two bytes after it, every opcode byte decodes. -/
theorem decode_total (op v w : Byte) (rest : List Byte) : ∃ i rest', decode (op :: v :: w :: rest) = .ok (i, rest') := by
  cases he : opcodeEntry op with
  | none i => exact ⟨_, _, decode_iff.mpr (.none he)⟩
  | byte f => exact ⟨_, _, decode_iff.mpr (.byte he)⟩
  | word f => exact ⟨_, _, decode_iff.mpr (.word he)⟩

/-- Settles O3: the decoder makes well-formed instructions only, and of the UNK those are the opcodes of R119. -/
theorem everyOpcodeByteDecodes : Obligations.EveryOpcodeByteDecodes := by
  intro op v w rest
  refine ⟨decode_total op v w rest, fun h => ?_, fun h => ?_⟩
  · exact List.contains_iff_mem.mp (encodeOfDecodeRoundTrip _ _ _ h).1
  · exact decode_iff.mpr (.none (opcodeEntry_unknown (List.contains_iff_mem.mpr h)))

/-- A table word that begins with the bytes of an instruction decodes to it. -/
theorem decodeTableWord_of_prefix {nbits w : Nat} {i : Instr} (hwf : i.wf = true) (h : encode i <+: tableBytes nbits w) :
    decodeTableWord nbits w = some i := by
  obtain ⟨rest, h⟩ := h
  rw [decodeTableWord, ← h, decode_encode i hwf rest]

/-- Settles O4: each word begins with the bytes of its instruction. -/
theorem tableWordsDecode : Obligations.TableWordsDecode := by
  refine ⟨?_, ?_, ?_, ?_, ?_, ?_, ?_, ?_, ?_, ?_, ?_, ?_⟩
  all_goals exact decodeTableWord_of_prefix rfl (by decide)

/-! ### Fetching stored bytes (R120, R123) -/

theorem fetch_stored {s : State} {v : Byte} (h : storedByte s.regs.pc s = some v) :
    fetch s = ⟨v, (s.setLastBus v).setPC (s.regs.pc + 1)⟩ := by
  simp only [fetch, busRead_stored h]

/-- Fetching the bytes stored from PC on gives them; the last of them stays on the bus. -/
theorem fetchBytes_stored (bytes : List Byte) (s : State)
    (h : ∀ k b, bytes[k]? = some b → storedByte (s.regs.pc + BitVec.ofNat 16 k) s = some b) :
    fetchBytes bytes.length s = ⟨bytes, { s with
      regs.pc := s.regs.pc + BitVec.ofNat 16 bytes.length
      bus.lastBus := bytes.getLastD s.bus.lastBus }⟩ := by
  induction bytes generalizing s with
  | nil => simp [fetchBytes]
  | cons v rest ih =>
    have hv : fetch s = ⟨v, (s.setLastBus v).setPC (s.regs.pc + 1)⟩ := fetch_stored (by simpa using h 0 v rfl)
    have next (k : Nat) : s.regs.pc + 1 + BitVec.ofNat 16 k = s.regs.pc + BitVec.ofNat 16 (k + 1) := by
      rw [BitVec.add_assoc, Nat.add_comm k 1, BitVec.ofNat_add]
      rfl
    have hrest := ih ((s.setLastBus v).setPC (s.regs.pc + 1)) fun k b hk => by
      rw [State.setPC_regs_pc, next, ← h (k + 1) b hk]
      exact storedByte_congr rfl rfl rfl _
    rw [List.length_cons, fetchBytes, hv]
    dsimp only
    rw [hrest, State.setPC_regs_pc, next, List.getLastD_cons]
    rfl

/-- R102: what is taken of the bytes is the opcode byte and as many operand bytes as it asks for. -/
theorem Decodes.length {op : Byte} {bytes : List Byte} {i : Instr} {rest : List Byte} (h : Decodes (op :: bytes) i rest) :
    bytes.length = operandBytes op + rest.length := by
  cases h with
  | none he | byte he | word he =>
    simp only [operandBytes, he, List.length_cons]
    omega

/-- A well-formed instruction is its opcode byte and as many bytes as that asks for. -/
theorem encode_eq_cons {i : Instr} (hwf : i.wf = true) :
    ∃ op bytes, encode i = op :: bytes ∧ bytes.length = operandBytes op := by
  have h : Decodes (encode i) i [] := decode_iff.mp (by simpa using decode_encode i hwf [])
  match hb : encode i with
  | [] => rw [hb] at h; cases h
  | op :: bytes => rw [hb] at h; exact ⟨op, bytes, rfl, h.length⟩

/-- R123: an instruction is fetched by as many fetches as its opcode byte asks for. -/
theorem fetchInstr_eq_fetchBytes (s : State) : fetchInstr s = fetchBytes (operandBytes (fetch s).val + 1) s := rfl

/-- Settles O6: the opcode byte stored at PC asks for as many bytes as the instruction has. -/
theorem fetchReadsStoredInstruction : Obligations.FetchReadsStoredInstruction := by
  intro s i hwf h
  obtain ⟨op, bytes, henc, hlen⟩ := encode_eq_cons hwf
  rw [henc] at h ⊢
  have hop : (fetch s).val = op := by rw [fetch_stored (v := op) (by simpa using h 0 op rfl)]
  rw [fetchInstr_eq_fetchBytes, hop, ← hlen, ← List.length_cons (a := op), fetchBytes_stored _ s h]
  refine ⟨rfl, (op :: bytes).getLastD s.bus.lastBus, ?_, rfl⟩
  rw [List.getLastD_cons, List.getLast?_cons, List.getLastD_eq_getLast?]

/-! ### Addressing modes (R104 to R115) -/

/-- R107, R108: the index is added inside the zero page (decision D10). -/
theorem zext16_add_toNat (z x : Byte) : (zext16 (z + x)).toNat = (z.toNat + x.toNat) % 256 := by
  rw [zext16_toNat, BitVec.toNat_add]

/-- R110: the index is added to the whole base, modulo 65536. -/
theorem add_zext16_toNat (a : Addr) (x : Byte) : (a + zext16 x).toNat = (a.toNat + x.toNat) % 65536 := by
  rw [BitVec.toNat_add, zext16_toNat]

theorem crosses_eq (a : Addr) (x : Byte) : crosses a x = decide (255 < a.toNat % 256 + x.toNat) := by
  rw [crosses, lo_toNat]

/-- R112, R113: the second pointer byte lies in the zero page too. -/
theorem readPointer_toNat (z : Byte) (s : State) :
    readPointer z s = ⟨w16 (readCell s.bus.ram z.toNat) (readCell s.bus.ram ((z.toNat + 1) % 256)),
      s.setLastBus (readCell s.bus.ram ((z.toNat + 1) % 256))⟩ :=
  readPointer_eq z s

/-- R105 to R113: an operand in memory is read at its effective address, after the pointer reads. -/
theorem readOperand_memory {m : Operand} (hm : inMemory m = true) (s : State) :
    readOperand m s =
      ⟨(busRead (effAddr m s).addr (effAddr m s).st).val, (effAddr m s).crossed,
        (busRead (effAddr m s).addr (effAddr m s).st).st⟩ := by
  cases m with
  | acc | imm => cases hm
  | zp | zpx | zpy | abs | abx | aby | izx | izy => rfl

/-- Settles O13: mode by mode. -/
theorem addressingModes : Obligations.AddressingModes := by
  intro s
  refine ⟨fun _ => rfl, fun z => ⟨zext16_toNat z, rfl⟩, fun z => ⟨zext16_add_toNat z _, rfl⟩,
    fun z => ⟨zext16_add_toNat z _, rfl⟩, fun a => ⟨rfl, rfl, hi_toNat a⟩,
    fun a => ⟨add_zext16_toNat a _, crosses_eq a _, hi_toNat a⟩,
    fun a => ⟨add_zext16_toNat a _, crosses_eq a _, hi_toNat a⟩, fun z => ?_, fun z => ?_,
    fun m hm => readOperand_memory hm s⟩
  · simp only [effAddr, readPointer_toNat, BitVec.toNat_add, Nat.reducePow, w16_toNat, hi_w16, and_self]
  · simp only [effAddr, indexed, readPointer_toNat, add_zext16_toNat, crosses, lo_w16, hi_w16, w16_toNat, and_self]

/-! ### Jumps (R115, R200, R201) -/

/-- R115: the high byte of an indirect target comes from the page of the low byte. -/
theorem jumpPointer_toNat (p : Addr) : (w16 (lo (p + 1)) (hi p)).toNat = p.toNat / 256 * 256 + (p.toNat + 1) % 256 := by
  rw [w16_toNat, hi_toNat, lo_toNat, BitVec.toNat_add]
  exact congrArg _ (Nat.mod_mod_of_dvd _ (by decide))

/-- R201. -/
theorem exec_jmpInd (p : Addr) (s : State) :
    exec (.jmpInd p) s = .next (((readJumpPointer p s).st.setPC (readJumpPointer p s).ptr).charge 5) := rfl

/-- Settles O27: R200 changes PC alone, R201 after two reads. -/
theorem jumpsLoadPC : Obligations.JumpsLoadPC := by
  intro a p s rest
  refine ⟨?_, RegRun.of rfl, ?_, w16 (lo (p + 1)) (hi p), jumpPointer_toNat p, ?_,
    (busRead_effect _ s).trans (busRead_effect _ _)⟩
  · exact decode_encode (.jmpAbs a) rfl rest
  · exact decode_encode (.jmpInd p) rfl rest
  · simp [exec_jmpInd, readJumpPointer, State.charge, State.setPC, chargedCpu]

/-! ### Cycles (R116 to R118, R206) -/

/-- An answer `n` cycles after the state `s`. -/
def TakesCycles (n : Nat) (s : State) (r : Result) : Prop :=
  ∃ t, r = .next t ∧ t.cpu.cycles = s.cpu.cycles + BitVec.ofNat 64 n

theorem regInstr_takes {n : Nat} {f : Regs → Regs} {s : State} : TakesCycles n s (regInstr n f s) := ⟨_, rfl, rfl⟩

theorem readOperand_crossed (m : Operand) (s : State) : (readOperand m s).crossed = (effAddr m s).crossed := by
  cases m <;> rfl

theorem readInstr_takes {m : Operand} {f : Byte → Regs → Regs} {s : State} :
    TakesCycles (readCycles m (effAddr m s).crossed) s (readInstr m f s) :=
  ⟨_, rfl, by simp [readOperand_crossed]⟩

theorem storeInstr_takes {m : Operand} {value : Byte → Regs → Byte} {s : State} :
    TakesCycles (writeCycles m) s (storeInstr m value s) :=
  ⟨_, rfl, by simp⟩

theorem modifyOperand_cycles (f : Bool → Byte → Shifted) (m : Operand) (s : State) :
    (modifyOperand f m s).st.cpu.cycles = s.cpu.cycles := by
  cases m with
  | acc => rfl
  | imm | zp | zpx | zpy | abs | abx | aby | izx | izy => simp [modifyOperand]

theorem modifyInstr_takes {m : Operand} {f : Bool → Byte → Shifted} {g : Byte → Regs → Regs} {s : State} :
    TakesCycles (rmwCycles m) s (modifyInstr m f g s) :=
  ⟨_, rfl, by simp [modifyOperand_cycles]⟩

/-- R206. -/
theorem branchInstr_takes {c : Bool} {o : Byte} {s : State} :
    TakesCycles (if c then if hi (s.regs.pc + sext16 o) = hi s.regs.pc then 3 else 4 else 2) s (branchInstr c o s) := by
  cases c with
  | false => exact ⟨_, rfl, rfl⟩
  | true =>
    refine ⟨_, rfl, ?_⟩
    rw [State.charge_cpu_cycles, ite_not]
    rfl

/-- The answer `r` of the instruction `i` of opcode byte `op` comes after the cycles of its cell and the penalty. -/
def InMatrixCycles (i : Instr) (op : Byte) (s : State) (r : Result) : Prop := TakesCycles (baseCycles op + penalty i op s) s r

/-- An instruction that is no taken branch and whose cell has no `+` takes the base cycles. -/
theorem InMatrixCycles.base {i : Instr} {op : Byte} {s : State} {n : Nat} {r : Result} (h : TakesCycles n s r)
    (hb : baseCycles op = n) (hp : matrixPlus.contains op = false) (ht : takenBranch i s.regs.p = none) :
    InMatrixCycles i op s r := by
  simpa only [InMatrixCycles, penalty, ht, hp, hb, Bool.false_and, Bool.false_eq_true, if_false, Nat.add_zero] using h

/-- R116: a reading instruction, in a mode whose penalty is that of its cell. -/
theorem InMatrixCycles.read {i : Instr} {op : Byte} {s : State} {m : Operand} {f : Byte → Regs → Regs}
    (hm : memOperand i = m) (hb : baseCycles op = readBase m) (hp : matrixPlus.contains op = hasPenalty m)
    (ht : takenBranch i s.regs.p = none) : InMatrixCycles i op s (readInstr m f s) := by
  simp only [InMatrixCycles, penalty, ht, hm, hb, hp]
  exact readInstr_takes

theorem InMatrixCycles.store {i : Instr} {op : Byte} {s : State} {m : Operand} {value : Byte → Regs → Byte}
    (hb : baseCycles op = writeCycles m) (hp : matrixPlus.contains op = false) (ht : takenBranch i s.regs.p = none) :
    InMatrixCycles i op s (storeInstr m value s) :=
  .base storeInstr_takes hb hp ht

theorem InMatrixCycles.modify {i : Instr} {op : Byte} {s : State} {m : Operand} {f : Bool → Byte → Shifted}
    {g : Byte → Regs → Regs} (hb : baseCycles op = rmwCycles m) (hp : matrixPlus.contains op = false)
    (ht : takenBranch i s.regs.p = none) : InMatrixCycles i op s (modifyInstr m f g s) :=
  .base modifyInstr_takes hb hp ht

theorem InMatrixCycles.reg {i : Instr} {op : Byte} {s : State} {n : Nat} {f : Regs → Regs} (hb : baseCycles op = n)
    (hp : matrixPlus.contains op = false) (ht : takenBranch i s.regs.p = none) : InMatrixCycles i op s (regInstr n f s) :=
  .base regInstr_takes hb hp ht

/-- R206: a branch has two base cycles and no `+`. -/
theorem InMatrixCycles.branch {i : Instr} {op : Byte} {s : State} {c : Bool} {o : Byte} (hb : baseCycles op = 2)
    (hp : matrixPlus.contains op = false) (ht : takenBranch i s.regs.p = if c then some o else none) :
    InMatrixCycles i op s (branchInstr c o s) := by
  have h : baseCycles op + penalty i op s =
      if c then if hi (s.regs.pc + sext16 o) = hi s.regs.pc then 3 else 4 else 2 := by
    simp only [penalty, ht, hb, hp]
    cases c with
    | false => rfl
    | true => exact apply_ite (2 + ·) _ 1 2
  rw [InMatrixCycles, h]
  exact branchInstr_takes

/-- A branch on a clear flag. -/
theorem ite_none_some (c : Bool) (o : Byte) : (if c then none else some o) = if !c then some o else none := by
  cases c <;> rfl

/-- R119, R270: no unknown opcode has a `+` or more than two cycles. -/
theorem unknown_cycles {op : Byte} (h : op ∈ unknownOpcodes) : baseCycles op = 2 ∧ matrixPlus.contains op = false := by
  revert op
  decide

theorem push_cpu (v : Byte) (s : State) : (push v s).cpu = s.cpu := by rw [push_eq]

theorem pull_cpu (s : State) : (pull s).st.cpu = s.cpu := by rw [pull_eq]

theorem interrupt_cpu (vector : Addr) (brk : Bool) (s : State) : (interrupt vector brk s).cpu = s.cpu := by
  simp [interrupt, loadPC, push_cpu]

theorem returnFromInterrupt_cpu (s : State) : (returnFromInterrupt s).cpu = s.cpu := by
  simp [returnFromInterrupt, pull_cpu]

/-- R118: every instruction takes the cycles of its cell; in each mode of a read, store or read-modify-write instruction the
cell agrees with R117. -/
theorem exec_inMatrixCycles {i : Instr} {op : Byte} (s : State) (ho : i.opcode = some op) :
    InMatrixCycles i op s (exec i s) := by
  cases i with
  | lda m | ldx m | ldy m | adc m | sbc m | and m | ora m | eor m | cmp m | cpx m | cpy m | bit m | lax m =>
    dsimp only [exec, execLda, execLdx, execLdy, execAdc, execSbc, execAnd, execOra, execEor, execCmp, execCpx, execCpy,
      execBit, execLax]
    cases m <;> cases ho <;> exact .read rfl rfl rfl rfl
  | las =>
    cases ho
    dsimp only [exec, execLas]
    exact .read rfl rfl rfl rfl
  | sta m | stx m | sty m | sax m | ahx m =>
    dsimp only [exec, execSta, execStx, execSty, execSax, execAhx]
    cases m <;> cases ho <;> exact .store rfl rfl rfl
  | shy | shx =>
    cases ho
    dsimp only [exec, execShy, execShx]
    exact .store rfl rfl rfl
  | tas =>
    cases ho
    exact .base (n := 5) ⟨_, rfl, by simp [writeCycles]⟩ rfl rfl rfl
  | inc m | dec m | asl m | lsr m | rol m | ror m | slo m | rla m | sre m | rra m | dcp m | isc m =>
    dsimp only [exec, execInc, execDec, execAsl, execLsr, execRol, execRor, execSlo, execRla, execSre, execRra, execDcp,
      execIsc]
    cases m <;> cases ho <;> exact .modify rfl rfl rfl
  | tax | tay | txa | tya | tsx | txs | inx | iny | dex | dey | clc | sec | cli | sei | clv | cld | sed | nop | anc | anc2B
  | alr | arr | sbx | usbc | xaa | lxa =>
    cases ho
    exact .reg rfl rfl rfl
  | unk b =>
    obtain ⟨hb, rfl⟩ : unknownOpcodes.contains b = true ∧ b = op := by simpa [Instr.opcode] using ho
    obtain ⟨hc, hp⟩ := unknown_cycles (List.contains_iff_mem.mp hb)
    exact .reg hc hp rfl
  | bpl | bvc | bcc | bne =>
    cases ho
    exact .branch rfl rfl (ite_none_some _ _)
  | bmi | bvs | bcs | beq =>
    cases ho
    exact .branch rfl rfl rfl
  | jmpAbs =>
    cases ho
    exact .base (n := 3) ⟨_, rfl, rfl⟩ rfl rfl rfl
  | jmpInd =>
    cases ho
    exact .base (n := 5) ⟨_, rfl, by simp [readJumpPointer]⟩ rfl rfl rfl
  | jsr =>
    cases ho
    exact .base (n := 6) ⟨_, rfl, by simp [push_cpu]⟩ rfl rfl rfl
  | pha | php =>
    cases ho
    exact .base (n := 3) ⟨_, rfl, by simp [push_cpu]⟩ rfl rfl rfl
  | rts =>
    cases ho
    exact .base (n := 6) ⟨_, rfl, by simp [pull_cpu]⟩ rfl rfl rfl
  | pla | plp =>
    cases ho
    exact .base (n := 4) ⟨_, rfl, by simp [pull_cpu]⟩ rfl rfl rfl
  | rti =>
    cases ho
    exact .base (n := 6) ⟨_, rfl, by simp [returnFromInterrupt_cpu]⟩ rfl rfl rfl
  | brk =>
    cases ho
    exact .base (n := 7) ⟨_, rfl, by simp [interrupt_cpu]⟩ rfl rfl rfl

theorem baseCycles_le (op : Byte) : baseCycles op ≤ 8 := by
  revert op
  decide +kernel

theorem penalty_le (i : Instr) (op : Byte) (s : State) : penalty i op s ≤ 2 := by
  unfold penalty
  split <;> split_ifs <;> decide

/-- A count below 2^64 is what the cycle counter has gained. -/
theorem returnedCycles_eq {s t : State} {n : Nat} (h : t.cpu.cycles = s.cpu.cycles + BitVec.ofNat 64 n) (hn : n < 2 ^ 64) :
    returnedCycles s t = n := by
  rw [returnedCycles, h, BitVec.add_comm, BitVec.add_sub_cancel, BitVec.toNat_ofNat, Nat.mod_eq_of_lt hn]

/-- Settles O12: no count reaches 2^64, so the counter has gained the whole of it. -/
theorem everyInstructionTakesMatrixCycles : Obligations.EveryInstructionTakesMatrixCycles := by
  intro i op s _ ho
  obtain ⟨t, ht, hcycles⟩ := exec_inMatrixCycles s ho
  have hbase := baseCycles_le op
  have hpenalty := penalty_le i op s
  exact ⟨t, ht, returnedCycles_eq hcycles (by omega), hcycles⟩

end Sys2Proof.Machine

/-! Loads, stores, transfers and index steps (spec/40_load_store_transfer.md, spec/45_unofficial.md): each instruction is one of
the shared shapes, and answers as the shape does (`ReadRun.of`, `StoreRun.of`, `RegRun.of`). TAS (R269) gives SP a value
before it stores: neither an effective address nor a bus write looks at SP (`effAddr_setSP`, `busWrite_setSP`). -/

namespace Sys2Proof.Machine

open Laws.EncodeDecode (decode_encode)

/-! ### Stores that give SP a value first (R269) -/

/-- R105 to R113: no addressing mode looks at SP. -/
theorem effAddr_setSP (m : Operand) (sp : Byte) (s : State) :
    effAddr m (s.setSP sp) = { effAddr m s with st := (effAddr m s).st.setSP sp } := by
  cases m with
  | acc | imm | zp | zpx | zpy | abs | abx | aby => rfl
  | izx | izy =>
    simp only [effAddr, readPointer_eq]
    rfl

/-- R55: no bus write looks at SP. -/
theorem busWrite_setSP (a : Addr) (v sp : Byte) (s : State) : busWrite a v (s.setSP sp) = (busWrite a v s).setSP sp := by
  have h : busWrite a v (s.setSP sp) = (busWrite a v s).withRegs { s.regs with sp := sp } := busWrite_withRegs a v _ s
  rw [h, State.withRegs, State.setSP, busWrite_regs]

/-- A store whose value is made after SP has taken `sp`. -/
theorem StoreRun.of_setSP {i : Instr} {m : Operand} {value : Byte → Regs → Byte} {sp : Byte} {s : State}
    (h : exec i s = storeInstr m value (s.setSP sp)) (hw : Memory.wf 2048 s.bus.ram = true) :
    StoreRun i m (value (effAddr m s).high (s.setSP sp).regs) (s.setSP sp).regs s := by
  unfold StoreRun
  rw [h, storeInstr, effAddr_setSP]
  dsimp only
  rw [busWrite_setSP]
  refine ⟨_, rfl, ?_, ?_, busWrite_storeFrame hw _ _ fun r => { r with sp := sp }⟩
  · simp [State.setSP]
  · simp [State.charge, State.setSP]

/-! ### The obligations -/

/-- Settles O14: each is a reading instruction (R140 to R142, R250). -/
theorem loadsSetRegisterAndNZ : Obligations.LoadsSetRegisterAndNZ :=
  fun _ _ => ⟨.of rfl, .of rfl, .of rfl, .of rfl⟩

/-- Settles O15: seven storing instructions (R143 to R145, R251, R266 to R268), and TAS, which stores after SP has taken
`A & X` (R269). The high byte of an absolute base is that of the address in the instruction. -/
theorem storesWriteRegister : Obligations.StoresWriteRegister := by
  intro m a s hw
  exact ⟨.of (value := fun _ r => r.a) rfl hw,
    .of (value := fun _ r => r.x) rfl hw,
    .of (value := fun _ r => r.y) rfl hw,
    .of (value := fun _ r => r.a &&& r.x) rfl hw,
    .of (value := fun h r => r.y &&& (h + 1)) rfl hw,
    .of (value := fun h r => r.x &&& (h + 1)) rfl hw,
    .of (value := fun h r => r.a &&& r.x &&& (h + 1)) rfl hw,
    .of_setSP (value := fun h r => r.sp &&& (h + 1)) rfl hw⟩

/-- Settles O16: each opcode byte is its instruction's encoding, and each instruction works on the registers alone (R146 to
R151, R171 to R174). -/
theorem transfersAndIndexSteps : Obligations.TransfersAndIndexSteps := by
  intro s rest
  exact ⟨decode_encode .tax rfl rest, .of rfl,
    decode_encode .tay rfl rest, .of rfl,
    decode_encode .txa rfl rest, .of rfl,
    decode_encode .tya rfl rest, .of rfl,
    decode_encode .tsx rfl rest, .of rfl,
    decode_encode .txs rfl rest, .of rfl,
    decode_encode .inx rfl rest, .of rfl,
    decode_encode .iny rfl rest, .of rfl,
    decode_encode .dex rfl rest, .of rfl,
    decode_encode .dey rfl rest, .of rfl⟩

end Sys2Proof.Machine

/-! Arithmetic and logic (spec/41_arith_logic.md): the flag functions in numbers (R176, R178, R179), subtraction as addition of
the one's complement (R161), the reading instructions of the family (R160 to R168), and the law that D changes no computation
(R177): an operation that commutes with setting D neither looks at D nor changes it (`CommutesWithD`). -/

namespace Sys2Proof.Machine

/-! ### setNZ and compare (R176, R179) -/

/-- Settles O17: `getFlag_nzFlags` at each flag. -/
theorem setNZFollowsValue : Obligations.SetNZFollowsValue := by
  intro v r
  refine ⟨⟨by simp, by simp, fun f hn hz => ?_⟩, rfl⟩
  simp [hn, hz]

@[simp] theorem getFlag_compareRegs (g : Flag) (v m : Byte) (r : Regs) :
    getFlag g (compareRegs v m r).p =
      if g = .z then v - m == 0 else if g = .n then (v - m).getLsbD 7
      else if g = .c then decide (m.toNat ≤ v.toNat) else getFlag g r.p := by
  simp [compareRegs]

/-- Settles O23: `getFlag_compareRegs` at each flag; the difference is 0 exactly for equal bytes. -/
theorem compareSetsCarryOnGreaterOrEqual : Obligations.CompareSetsCarryOnGreaterOrEqual := by
  intro v m r
  refine ⟨⟨by simp, by simp, by simp, fun f hc hn hz => ?_⟩, ?_, rfl⟩
  · simp [hc, hn, hz]
  · simp [BitVec.sub_eq_iff_eq_add]

/-! ### adc_core as addition and as subtraction (R178, R161) -/

theorem adcCore_a (m : Byte) (r : Regs) : (adcCore m r).a = (addWithCarry r.a m (getFlag .c r.p)).res := rfl

@[simp] theorem getFlag_adcCore (g : Flag) (m : Byte) (r : Regs) :
    getFlag g (adcCore m r).p =
      if g = .z then (adcCore m r).a == 0 else if g = .n then (adcCore m r).a.getLsbD 7
      else if g = .v then (addWithCarry r.a m (getFlag .c r.p)).overflow
      else if g = .c then (addWithCarry r.a m (getFlag .c r.p)).carry else getFlag g r.p := by
  simp [adcCore]

/-- R178: C is the carry of the sum. -/
theorem adcCore_carry (m : Byte) (r : Regs) :
    getFlag .c (adcCore m r).p = (addWithCarry r.a m (getFlag .c r.p)).carry := by simp

/-- R178: V is the overflow of the sum. -/
theorem adcCore_overflow (m : Byte) (r : Regs) :
    getFlag .v (adcCore m r).p = (addWithCarry r.a m (getFlag .c r.p)).overflow := by simp

theorem addWithCarry_res_toNat (a m : Byte) (c : Bool) :
    (addWithCarry a m c).res.toNat = (a.toNat + m.toNat + bit c) % 256 :=
  BitVec.toNat_ofNat _ _

theorem addWithCarry_carry (a m : Byte) (c : Bool) :
    (addWithCarry a m c).carry = decide (256 ≤ a.toNat + m.toNat + bit c) := rfl

/-- R178: the overflow says that the addends agree in sign and the result does not. -/
theorem addWithCarry_overflow_iff (a m : Byte) (c : Bool) :
    (addWithCarry a m c).overflow = true ↔
      a.getLsbD 7 = m.getLsbD 7 ∧ (addWithCarry a m c).res.getLsbD 7 ≠ m.getLsbD 7 := by
  rw [addWithCarry_overflow]
  generalize a.getLsbD 7 = sa, m.getLsbD 7 = sm, (addWithCarry a m c).res.getLsbD 7 = sr
  revert sa sm sr
  decide

/-- Settles O18: the fields of `addWithCarry` in integers, and `getFlag_adcCore` at each flag. -/
theorem addCoreIsIntegerSum : Obligations.AddCoreIsIntegerSum := by
  intro m r
  refine ⟨addWithCarry_res_toNat _ _ _, adcCore_carry m r, adcCore_overflow m r, ?_, by simp, by simp,
    fun f hc hz hv hn => ?_, rfl⟩
  · rw [adcCore_overflow]
    exact addWithCarry_overflow_iff _ _ _
  · simp [hc, hz, hv, hn]

/-- A byte as a signed number, by its sign bit. -/
theorem byte_toInt (v : Byte) : v.toInt = if v.getLsbD 7 then (v.toNat : Int) - 256 else v.toNat := by
  rw [BitVec.toInt_eq_msb_cond, BitVec.msb_eq_getLsbD_last]
  rfl

/-- R178: the sign rule is signed overflow: the integer sum of the signed addends leaves the range of a signed byte. -/
theorem addWithCarry_overflow_signed (a m : Byte) (c : Bool) :
    (addWithCarry a m c).overflow =
      decide (a.toInt + m.toInt + bit c < -128 ∨ 127 < a.toInt + m.toInt + bit c) := by
  have hr := addWithCarry_res_toNat a m c
  have hc : bit c ≤ 1 := by cases c <;> decide
  rw [Bool.eq_iff_iff, addWithCarry_overflow_iff, decide_eq_true_iff]
  simp only [byte_toInt, sign_eq, decide_eq_true_eq, decide_eq_decide, ne_eq]
  split_ifs <;> omega

/-- R161: the one's complement as an unsigned number. -/
theorem xor_ff_toNat (m : Byte) : ((m ^^^ 0xFF).toNat : Int) = 255 - m.toNat := by
  have h : m ^^^ 0xFF = ~~~m := BitVec.xor_allOnes
  rw [h, BitVec.toNat_not]
  omega

/-- R161: the one's complement as a signed number. -/
theorem xor_ff_toInt (m : Byte) : (m ^^^ 0xFF).toInt = -1 - m.toInt := by
  have hm := xor_ff_toNat m
  simp only [byte_toInt, sign_eq, decide_eq_true_eq]
  split_ifs <;> omega

/-- Settles O19: `A + (255 - M) + C` is 256 more than `A - M - (1 - C)`, and the signed sum of the same addends is that
difference itself. -/
theorem subtractIsIntegerDifference : Obligations.SubtractIsIntegerDifference := by
  intro m r
  have hm := xor_ff_toNat m
  have hborrow : (bit (getFlag .c r.p) : Int) = 1 - (if getFlag .c r.p then 0 else 1) := by
    cases getFlag .c r.p <;> rfl
  refine ⟨?_, ?_, ?_⟩
  · rw [adcCore_a, addWithCarry_res_toNat]
    omega
  · rw [adcCore_carry, addWithCarry_carry, decide_eq_decide]
    omega
  · rw [adcCore_overflow, addWithCarry_overflow_signed, decide_eq_decide, xor_ff_toInt]
    omega

/-! ### The reading instructions (R160 to R168) -/

/-- Settles O21: each is a reading instruction (R160 to R167). -/
theorem accumulatorOperations : Obligations.AccumulatorOperations :=
  fun _ _ => ⟨.of rfl, .of rfl, .of rfl, .of rfl, .of rfl, .of rfl, .of rfl, .of rfl⟩

@[simp] theorem getFlag_bitTest (g : Flag) (v : Byte) (r : Regs) :
    getFlag g (bitTest v r).p =
      if g = .z then r.a &&& v == 0 else if g = .n then v.getLsbD 7 else if g = .v then v.getLsbD 6 else getFlag g r.p := by
  simp [bitTest]

/-- Settles O22: BIT is a reading instruction whose function is `bitTest` (R168). -/
theorem bitTestsOperand : Obligations.BitTestsOperand := by
  intro m s
  obtain ⟨t, ht, hregs, hframe⟩ : ReadRun (.bit m) m bitTest s := .of rfl
  refine ⟨t, ht, hframe, ?_⟩
  rw [hregs]
  simp only [getFlag_bitTest]
  exact ⟨rfl, rfl, rfl, rfl, fun f hv hn hz => by simp [hv, hn, hz]⟩

/-! ### D changes no computation (R177) -/

/-- The registers with D set to `d`. -/
def Regs.setD (d : Bool) (r : Regs) : Regs := { r with p := setFlag .d d r.p }

/-- The state with D set to `d`. -/
def State.setD (d : Bool) (s : State) : State := s.setP (setFlag .d d s.regs.p)

/-- A function on the registers does the same whatever D holds, and leaves D as it was. -/
def CommutesWithD (f : Regs → Regs) : Prop := ∀ d r, f (r.setD d) = (f r).setD d

/-- An instruction's meaning answers the same whatever D holds, and leaves D as it was. -/
def AnswerCommutesWithD (g : State → Result) : Prop := ∀ d s t, g s = .next t → g (s.setD d) = .next (t.setD d)

theorem setFlag_comm {f g : Flag} (h : f ≠ g) (u v : Bool) (p : Byte) :
    setFlag f u (setFlag g v p) = setFlag g v (setFlag f u p) := by
  apply flags_ext
  intro k
  simp only [getFlag_setFlag]
  split_ifs with hf hg
  · exact absurd (hf.symm.trans hg) h
  all_goals rfl

theorem nzFlags_setD (v : Byte) (d : Bool) (p : Byte) : nzFlags v (setFlag .d d p) = setFlag .d d (nzFlags v p) := by
  rw [nzFlags, setFlag_comm (by decide : Flag.n ≠ .d), setFlag_comm (by decide : Flag.z ≠ .d), nzFlags]

theorem getFlag_c_setD (d : Bool) (r : Regs) : getFlag .c (r.setD d).p = getFlag .c r.p := by simp [Regs.setD]

theorem adcCore_commutesWithD (m : Byte) : CommutesWithD (adcCore m) := by
  intro d r
  simp only [adcCore, getFlag_c_setD]
  simp only [Regs.setD, setFlag_comm (by decide : Flag.c ≠ .d), setFlag_comm (by decide : Flag.v ≠ .d), nzFlags_setD]

theorem arrRegs_commutesWithD (v : Byte) : CommutesWithD (arrRegs v) := by
  intro d r
  simp only [arrRegs, getFlag_c_setD]
  simp only [Regs.setD, nzFlags_setD, setFlag_comm (by decide : Flag.c ≠ .d), setFlag_comm (by decide : Flag.v ≠ .d)]

/-- R194 in the accumulator mode: A and C change. -/
theorem setACarry_commutesWithD (v : Byte) (c : Bool) : CommutesWithD fun r => { r with a := v, p := setFlag .c c r.p } := by
  intro d r
  simp only [Regs.setD, setFlag_comm (by decide : Flag.c ≠ .d)]

theorem State.mapRegs_setD {f : Regs → Regs} (hf : CommutesWithD f) (d : Bool) (s : State) :
    (s.setD d).mapRegs f = (s.mapRegs f).setD d :=
  congrArg s.withRegs (hf d s.regs)

/-- R194 in memory: C changes between the read and the write. -/
theorem State.setP_carry_setD (c d : Bool) (r : Regs) (s : State) :
    (s.setD d).setP (setFlag .c c (r.setD d).p) = (s.setP (setFlag .c c r.p)).setD d := by
  rw [Regs.setD, setFlag_comm (by decide : Flag.c ≠ .d)]
  rfl

theorem State.setD_eq_withRegs {d : Bool} {s t : State} (h : t.regs = s.regs) : t.withRegs (s.regs.setD d) = t.setD d := by
  rw [← h]
  rfl

theorem effAddr_setD (m : Operand) (d : Bool) (s : State) :
    effAddr m (s.setD d) = { effAddr m s with st := (effAddr m s).st.setD d } := by
  cases m with
  | acc | imm | zp | zpx | zpy | abs | abx | aby => rfl
  | izx | izy =>
    simp only [effAddr, readPointer_eq]
    rfl

theorem busRead_setD (a : Addr) (d : Bool) (s : State) :
    busRead a (s.setD d) = ⟨(busRead a s).val, (busRead a s).st.setD d⟩ := by
  rw [← State.setD_eq_withRegs rfl, busRead_withRegs, State.setD_eq_withRegs (busRead_regs a s)]

theorem busWrite_setD (a : Addr) (v : Byte) (d : Bool) (s : State) :
    busWrite a v (s.setD d) = (busWrite a v s).setD d := by
  rw [← State.setD_eq_withRegs rfl, busWrite_withRegs, State.setD_eq_withRegs (busWrite_regs a v s)]

theorem readOperand_setD (m : Operand) (d : Bool) (s : State) :
    readOperand m (s.setD d) = { readOperand m s with st := (readOperand m s).st.setD d } := by
  cases m with
  | acc | imm => rfl
  | zp | zpx | zpy | abs | abx | aby | izx | izy => simp only [readOperand, effAddr_setD, busRead_setD]

theorem modifyOperand_setD (f : Bool → Byte → Shifted) (m : Operand) (d : Bool) (s : State) :
    modifyOperand f m (s.setD d) = ⟨(modifyOperand f m s).val, (modifyOperand f m s).st.setD d⟩ := by
  have hregs : (s.setD d).regs = s.regs.setD d := rfl
  have ha : (s.regs.setD d).a = s.regs.a := rfl
  cases m with
  | acc =>
    simp only [modifyOperand, hregs, ha, getFlag_c_setD, State.mapRegs_setD (setACarry_commutesWithD _ _)]
  | imm | zp | zpx | zpy | abs | abx | aby | izx | izy =>
    simp only [modifyOperand, effAddr_setD, busRead_setD, hregs, getFlag_c_setD, State.setP_carry_setD, busWrite_setD]

theorem regInstr_commutesWithD {n : Nat} {f : Regs → Regs} (hf : CommutesWithD f) : AnswerCommutesWithD (regInstr n f) := by
  intro d s t h
  cases h
  rw [regInstr, State.mapRegs_setD hf]
  rfl

theorem readInstr_commutesWithD {m : Operand} {f : Byte → Regs → Regs} (hf : ∀ v, CommutesWithD (f v)) :
    AnswerCommutesWithD (readInstr m f) := by
  intro d s t h
  cases h
  simp only [readInstr, readOperand_setD, State.mapRegs_setD (hf _)]
  rfl

theorem modifyInstr_commutesWithD {m : Operand} {f : Bool → Byte → Shifted} {g : Byte → Regs → Regs}
    (hg : ∀ v, CommutesWithD (g v)) : AnswerCommutesWithD (modifyInstr m f g) := by
  intro d s t h
  cases h
  simp only [modifyInstr, modifyOperand_setD, State.mapRegs_setD (hg _)]
  rfl

/-- Setting D to the value it has changes nothing, so an answer that commutes with setting D leaves D as it was. -/
theorem AnswerCommutesWithD.getFlag_d {g : State → Result} (hg : AnswerCommutesWithD g) {s t : State} (h : g s = .next t) :
    getFlag .d t.regs.p = getFlag .d s.regs.p := by
  have hs : s.setD (getFlag .d s.regs.p) = s := by rw [State.setD, setFlag_same]; rfl
  have ht := hg (getFlag .d s.regs.p) s t h
  rw [hs, h, Host.Outcome.next.injEq] at ht
  rw [ht]
  simp [State.setD]

/-- Settles O20: each of the six has a shape whose function on the registers, `adcCore` or `arrRegs`, commutes with setting D. -/
theorem decimalFlagChangesNoComputation : Obligations.DecimalFlagChangesNoComputation := by
  intro i m v d s t hi ht
  have h : AnswerCommutesWithD (exec i) := by
    obtain rfl | rfl | rfl | rfl | rfl | rfl := hi
    · exact readInstr_commutesWithD adcCore_commutesWithD
    · exact readInstr_commutesWithD fun _ => adcCore_commutesWithD _
    · exact modifyInstr_commutesWithD adcCore_commutesWithD
    · exact modifyInstr_commutesWithD fun _ => adcCore_commutesWithD _
    · exact regInstr_commutesWithD (arrRegs_commutesWithD v)
    · exact regInstr_commutesWithD (adcCore_commutesWithD _)
  exact ⟨h.getFlag_d ht, h d s t ht⟩

end Sys2Proof.Machine

/-! Shifts, rotates, INC and DEC (spec/42_shift_rotate.md, spec/41_arith_logic.md R169, R170): one shape, R194, on the
accumulator (`modifyInstr_acc`) and in memory (`ModifyRun.of`). -/

namespace Sys2Proof.Machine

/-- R194 on the accumulator: the new byte goes to A and the carry to C, and there is no memory access. -/
theorem modifyInstr_acc (f : Bool → Byte → Shifted) (g : Byte → Regs → Regs) (s : State) :
    modifyInstr .acc f g s = regInstr 2 (fun r =>
      g (f (getFlag .c r.p) r.a).val
        { r with a := (f (getFlag .c r.p) r.a).val, p := setFlag .c (f (getFlag .c r.p) r.a).carry r.p }) s := rfl

/-- A read-modify-write instruction on memory whose function hands C on as it was (R169, R170). -/
theorem ModifyRun.of_keepsCarry {i : Instr} {m : Operand} {f : Bool → Byte → Shifted} {g : Byte → Regs → Regs} {s : State}
    (hf : ∀ c b, (f c b).carry = c) (h : exec i s = modifyInstr m f g s) (hm : inMemory m = true)
    (hw : Memory.wf 2048 s.bus.ram = true) :
    ModifyRun i m (f (getFlag .c s.regs.p) (operandByte m s)).val
      (g (f (getFlag .c s.regs.p) (operandByte m s)).val s.regs) s := by
  have run := ModifyRun.of h hm hw
  rwa [hf, setFlag_same] at run

/-- Settles O24: each of the six is a read-modify-write instruction (R190 to R193, R169, R170); INC and DEC hand C on. -/
theorem readModifyWrite : Obligations.ReadModifyWrite := by
  intro m s
  refine ⟨.of (modifyInstr_acc aslByte setNZ s), .of (modifyInstr_acc lsrByte setNZ s),
    .of (modifyInstr_acc rolByte setNZ s), .of (modifyInstr_acc rorByte setNZ s), fun hm hw => ?_⟩
  exact ⟨.of (f := aslByte) rfl hm hw,
    .of (f := lsrByte) rfl hm hw,
    .of (f := rolByte) rfl hm hw,
    .of (f := rorByte) rfl hm hw,
    .of_keepsCarry (f := incByte) (fun _ _ => rfl) rfl hm hw,
    .of_keepsCarry (f := decByte) (fun _ _ => rfl) rfl hm hw⟩

end Sys2Proof.Machine

/-! Control flow (spec/43_control_flow.md): the branches (R206) as one shape, and the transfers through the stack, each by an
equation for everything it does (`exec_jsr_eq`, `exec_rts_eq`, `exec_rti_eq`); BRK (R205) through the interrupt sequence
(`interrupt_pushes`). -/

namespace Sys2Proof.Machine

open Laws.EncodeDecode (decode_encode)

/-! ### Branches (R114, R206) -/

/-- R206: the two ways a branch goes, its target (R114) and its page in numbers. -/
theorem BranchRun.of {i : Instr} {c : Bool} {o : Byte} {s : State} (h : exec i s = branchInstr c o s) :
    BranchRun i c o s := by
  cases c with
  | false => exact ⟨_, h, rfl, rfl⟩
  | true =>
    simp only [BranchRun, if_true, ← add_sext16, ← hi_eq_iff]
    refine ⟨_, h, rfl, ?_⟩
    simp only [RegFrame, ne_eq, ite_not]
    rfl

/-- Settles O26: the eight differ in the flag they test alone (R207 to R214). -/
theorem branchesTestTheirFlag : Obligations.BranchesTestTheirFlag :=
  fun _ _ => ⟨.of rfl, .of rfl, .of rfl, .of rfl, .of rfl, .of rfl, .of rfl, .of rfl⟩

/-! ### Subroutines (R202, R203) -/

/-- R202: everything JSR does. -/
theorem exec_jsr_eq (a : Addr) (s : State) :
    exec (.jsr a) s = .next { s with
      regs := { s.regs with pc := a, sp := s.regs.sp - 2 }
      cpu := chargedCpu 6 s
      bus := { s.bus with
        ram := writeCell (writeCell s.bus.ram (pushedCell s 0) (hi (s.regs.pc - 1))) (pushedCell s 1) (lo (s.regs.pc - 1))
        lastBus := lo (s.regs.pc - 1) } } := by
  have hsp : s.regs.sp - 1 - 1 = s.regs.sp - 2 := by bv_omega
  simp only [exec, execJsr, push_eq, hsp, pushedCell_zero, pushedCell_one]
  rfl

/-- R203: everything RTS does. -/
theorem exec_rts_eq (s : State) :
    exec .rts s = .next { s with
      regs := { s.regs with pc := w16 (pulledByte s 0) (pulledByte s 1) + 1, sp := s.regs.sp + 2 }
      cpu := chargedCpu 6 s
      bus.lastBus := pulledByte s 1 } := by
  have hsp : s.regs.sp + 1 + 1 = s.regs.sp + 2 := by bv_omega
  simp only [exec, execRts, pull_eq, hsp, pulledByte_zero, pulledByte_one]
  rfl

/-- Settles O28: `exec_jsr_eq` and `exec_rts_eq`; the two pushed bytes lie in different cells (`Pushes.two`). -/
theorem jsrAndRts : Obligations.JsrAndRts := by
  intro a s
  constructor
  · intro hw
    exact ⟨_, exec_jsr_eq a s, .two hw rfl rfl rfl, rfl, rfl⟩
  · exact ⟨_, exec_rts_eq s, ⟨rfl, rfl⟩, rfl, rfl⟩

/-! ### The interrupt sequence and BRK (R205, R403, R410) -/

/-- R403: the interrupt sequence through a vector in PRG. -/
theorem interrupt_pushes {vector : Addr} (h : 0x8000 ≤ vector.toNat) (h' : 0x8000 ≤ (vector + 1).toNat) (brk : Bool)
    {s : State} (hw : Memory.wf 2048 s.bus.ram = true) :
    Pushes [hi s.regs.pc, lo s.regs.pc, if brk then s.regs.p ||| 0x30 else (s.regs.p ||| 0x20) &&& 0xEF] 0 s
        (interrupt vector brk s) ∧
      (interrupt vector brk s).regs =
        { s.regs with pc := vectorWord vector s, sp := s.regs.sp - 3, p := setFlag .i true s.regs.p } ∧
      (interrupt vector brk s).bus.lastBus = prgByte (vector + 1) s := by
  have hsp : s.regs.sp - 1 - 1 - 1 = s.regs.sp - 3 := by bv_omega
  have hcpu : chargedCpu 0 s = s.cpu := by simp [chargedCpu]
  rw [interrupt_eq h h', hsp]
  refine ⟨.three hw ?_ ?_ rfl, rfl, rfl⟩
  · rw [pushedCell_zero, pushedCell_one, pushedCell_two]
    rfl
  · rw [hcpu]

/-- Cycles counted after the pushes. -/
theorem Pushes.charge {vs : List Byte} {s t : State} (h : Pushes vs 0 s t) (n : Nat) : Pushes vs n s (t.charge n) := by
  obtain ⟨hframe, hsp, hcells, hother⟩ := h
  refine ⟨?_, hsp, hcells, hother⟩
  have hcpu : t.cpu = s.cpu := by
    rw [hframe]
    simp [chargedCpu]
  rw [State.charge, hcpu]
  conv_lhs => rw [hframe]
  rfl

/-- Pushes do not look at PC. -/
theorem Pushes.of_setPC {vs : List Byte} {n : Nat} {pc : Addr} {s t : State} (h : Pushes vs n (s.setPC pc) t) :
    Pushes vs n s t := h

/-- Settles O29: BRK is the interrupt sequence from the byte after the padding byte. -/
theorem brkEntersHandler : Obligations.BrkEntersHandler := by
  intro s hw
  obtain ⟨hpushes, hregs, hlast⟩ :=
    interrupt_pushes (vector := irqVector) (s := s.setPC (s.regs.pc + 1)) (by decide) (by decide) true hw
  exact ⟨_, rfl, hpushes.of_setPC.charge 7, hregs, hlast⟩

/-! ### RTI (R204, R408) -/

/-- R204: everything RTI does. -/
theorem exec_rti_eq (s : State) :
    exec .rti s = .next { s with
      regs := { s.regs with
        pc := w16 (pulledByte s 1) (pulledByte s 2), sp := s.regs.sp + 3, p := pulledP (pulledByte s 0) }
      cpu := chargedCpu 6 s
      bus.lastBus := pulledByte s 2 } := by
  have hsp : s.regs.sp + 1 + 1 + 1 = s.regs.sp + 3 := by bv_omega
  simp only [exec, execRti, returnFromInterrupt_eq, hsp, pulledByte_zero, pulledByte_one, pulledByte_two]
  rfl

/-- R204, R234: bit 5 is forced set, bit 4 forced clear, and every other flag is as pulled. -/
@[simp] theorem getFlag_pulledP (f : Flag) (v : Byte) :
    getFlag f (pulledP v) = if f = .u then true else if f = .b then false else getFlag f v := by
  cases f <;> simp [getFlag, pulledP, flagBit]

/-- Settles O30: `exec_rti_eq`, and `getFlag_pulledP` at each flag. -/
theorem rtiRestoresStatusAndPC : Obligations.RtiRestoresStatusAndPC := by
  intro s rest
  refine ⟨decode_encode .rti rfl rest, _, exec_rti_eq s, ⟨rfl, rfl⟩, rfl, rfl, by simp, by simp, fun f hu hb => ?_⟩
  simp [hu, hb]

end Sys2Proof.Machine

/-! Stack, flags, no operation (spec/44_stack_flags_nop.md): each stack instruction by an equation for everything it does
(`exec_pha_eq`, `exec_pla_eq`, `exec_php_eq`, `exec_plp_eq`), and the law that pulls give back what was pushed, the last byte
first (`Pushes.pulledByte_eq`). -/

namespace Sys2Proof.Machine

open Laws.EncodeDecode (decode_encode)

/-! ### Pushes and pulls (R231 to R234) -/

/-- R230: everything a push followed by `n` cycles does. -/
theorem push_charge_eq (v : Byte) (n : Nat) (s : State) :
    (push v s).charge n = { s with
      regs.sp := s.regs.sp - 1
      cpu := chargedCpu n s
      bus := { s.bus with ram := writeCell s.bus.ram (pushedCell s 0) v, lastBus := v } } := by
  rw [push_eq, pushedCell_zero]
  rfl

/-- R231: everything PHA does. -/
theorem exec_pha_eq (s : State) :
    exec .pha s = .next { s with
      regs.sp := s.regs.sp - 1
      cpu := chargedCpu 3 s
      bus := { s.bus with ram := writeCell s.bus.ram (pushedCell s 0) s.regs.a, lastBus := s.regs.a } } :=
  congrArg Host.Outcome.next (push_charge_eq s.regs.a 3 s)

/-- R233: everything PHP does. -/
theorem exec_php_eq (s : State) :
    exec .php s = .next { s with
      regs.sp := s.regs.sp - 1
      cpu := chargedCpu 3 s
      bus := { s.bus with
        ram := writeCell s.bus.ram (pushedCell s 0) (s.regs.p ||| 0x30)
        lastBus := s.regs.p ||| 0x30 } } :=
  congrArg Host.Outcome.next (push_charge_eq (s.regs.p ||| 0x30) 3 s)

/-- R232: everything PLA does. -/
theorem exec_pla_eq (s : State) :
    exec .pla s = .next { s with
      regs := setNZ (pulledByte s 0) { s.regs with a := pulledByte s 0, sp := s.regs.sp + 1 }
      cpu := chargedCpu 4 s
      bus.lastBus := pulledByte s 0 } := by
  simp only [exec, execPla, pull_eq, pulledByte_zero]
  rfl

/-- R234: everything PLP does. -/
theorem exec_plp_eq (s : State) :
    exec .plp s = .next { s with
      regs := { s.regs with sp := s.regs.sp + 1, p := pulledP (pulledByte s 0) }
      cpu := chargedCpu 4 s
      bus.lastBus := pulledByte s 0 } := by
  simp only [exec, execPlp, pull_eq, pulledByte_zero]
  rfl

/-- Settles O34: the four equations, one push (`Pushes.one`), and `getFlag_pulledP` at each flag. -/
theorem stackInstructions : Obligations.StackInstructions := by
  intro s rest hw
  refine ⟨decode_encode .pha rfl rest, ⟨_, exec_pha_eq s, .one hw rfl rfl rfl, rfl, rfl⟩,
    decode_encode .php rfl rest, ⟨_, exec_php_eq s, .one hw rfl rfl rfl, rfl, rfl⟩,
    decode_encode .pla rfl rest, ⟨_, exec_pla_eq s, ⟨rfl, rfl⟩, rfl, rfl⟩,
    decode_encode .plp rfl rest, _, exec_plp_eq s, ⟨rfl, rfl⟩, rfl, rfl, by simp, by simp, fun f hu hb => ?_⟩
  simp [hu, hb]

/-! ### Pulls undo pushes -/

/-- R230: pulls after pushes give the pushed bytes back, the last one first. -/
theorem Pushes.pulledByte_eq {vs : List Byte} {n : Nat} {s t : State} (h : Pushes vs n s t) {j : Nat} {v : Byte}
    (hv : vs.reverse[j]? = some v) : pulledByte t j = v := by
  obtain ⟨hframe, hsp, hcells, -⟩ := h
  have hcfg : t.cfg = s.cfg := by rw [hframe]
  have hj : j < vs.length := by simpa using (List.getElem?_eq_some_iff.mp hv).1
  rw [List.getElem?_reverse hj] at hv
  have hsp' : t.regs.sp + BitVec.ofNat 8 j = s.regs.sp - BitVec.ofNat 8 (vs.length - 1 - j) - 1 := by
    rw [hsp]
    bv_omega
  rw [pulledByte, hcfg, hsp', pullCell_sub_one]
  exact hcells _ v hv

/-- R233: in the image PHP pushes bits 5 and 4 are set, and every other flag is that of P. -/
@[simp] theorem getFlag_pushedByInstruction (f : Flag) (p : Byte) :
    getFlag f (pushedByInstruction p) = if f = .u ∨ f = .b then true else getFlag f p := by
  cases f <;> simp [getFlag, pushedByInstruction, flagBit]

/-- R233, R234: the image PHP pushes is pulled as P itself. -/
theorem pulledP_pushedByInstruction {r : Regs} (h : r.pOk) : pulledP (pushedByInstruction r.p) = r.p := by
  obtain ⟨hu, hb⟩ := h
  apply flags_ext
  intro f
  cases f <;> simp [hu, hb]

/-- Settles O35: each pair by the equation of the pull, after the pushes of `JsrAndRts` and `StackInstructions`. -/
theorem pullsUndoPushes : Obligations.PullsUndoPushes := by
  intro a s t u hw
  refine ⟨fun hs ht => ?_, fun hp hs ht => ?_, fun hs ht => ?_⟩
  · obtain ⟨_, hs', hpush, hregs, -⟩ := (jsrAndRts a s).1 hw
    cases hs.symm.trans hs'
    cases ht.symm.trans (exec_rts_eq t)
    have h0 : pulledByte t 0 = lo (s.regs.pc - 1) := hpush.pulledByte_eq rfl
    have h1 : pulledByte t 1 = hi (s.regs.pc - 1) := hpush.pulledByte_eq rfl
    simp [h0, h1, hregs]
  · obtain ⟨-, -, -, ⟨_, hs', hpush, hregs, -⟩, -⟩ := stackInstructions s [] hw
    cases hs.symm.trans hs'
    cases ht.symm.trans (exec_plp_eq t)
    have h0 : pulledByte t 0 = pushedByInstruction s.regs.p := hpush.pulledByte_eq rfl
    simp [h0, hregs, pulledP_pushedByInstruction hp]
  · obtain ⟨-, ⟨_, hs', hpush, hregs, -⟩, -⟩ := stackInstructions s [] hw
    cases hs.symm.trans hs'
    cases ht.symm.trans (exec_pla_eq t)
    have h0 : pulledByte t 0 = s.regs.a := hpush.pulledByte_eq rfl
    simp [h0, hregs]

/-! ### The flag instructions and NOP (R235 to R242) -/

/-- Settles O36: each opcode byte is its instruction's encoding, and each instruction works on the registers alone (R235 to
R242). -/
theorem flagInstructionsSetOneFlag : Obligations.FlagInstructionsSetOneFlag := by
  intro s rest
  exact ⟨decode_encode .clc rfl rest, .of rfl,
    decode_encode .sec rfl rest, .of rfl,
    decode_encode .cli rfl rest, .of rfl,
    decode_encode .sei rfl rest, .of rfl,
    decode_encode .clv rfl rest, .of rfl,
    decode_encode .cld rfl rest, .of rfl,
    decode_encode .sed rfl rest, .of rfl,
    decode_encode .nop rfl rest, .of rfl⟩

end Sys2Proof.Machine

/-! Unofficial and unknown opcodes (spec/45_unofficial.md): each is one of the shared shapes, and answers as the shape does
(`RegRun.of`, `ReadRun.of`, `ModifyRun.of`). The rules of ANC and ARR (R258, R260) set N and Z first and then the flags that
N and Z have no part in, where the statement sets them last: `nzFlags_setFlag` says that the order is of no account. -/

namespace Sys2Proof.Machine

/-! ### Memory, then A (R252 to R257) -/

/-- Settles O25: each of the six is a read-modify-write instruction; DCP and ISC hand C on as DEC and INC do (R256, R257). -/
theorem combinedReadModifyWrite : Obligations.CombinedReadModifyWrite := by
  intro m s hm hw
  exact ⟨.of (f := aslByte) (g := fun v r => setNZ (r.a ||| v) { r with a := r.a ||| v }) rfl hm hw,
    .of (f := rolByte) (g := fun v r => setNZ (r.a &&& v) { r with a := r.a &&& v }) rfl hm hw,
    .of (f := lsrByte) (g := fun v r => setNZ (r.a ^^^ v) { r with a := r.a ^^^ v }) rfl hm hw,
    .of (f := rorByte) (g := adcCore) rfl hm hw,
    .of_keepsCarry (f := decByte) (g := fun v r => compareRegs r.a v r) (fun _ _ => rfl) rfl hm hw,
    .of_keepsCarry (f := incByte) (g := sbcCore) (fun _ _ => rfl) rfl hm hw⟩

/-! ### The immediate forms and LAS (R258 to R265) -/

/-- R176: N and Z may be set before another flag or after it. -/
theorem nzFlags_setFlag {f : Flag} (hn : f ≠ .n) (hz : f ≠ .z) (v : Byte) (u : Bool) (p : Byte) :
    nzFlags v (setFlag f u p) = setFlag f u (nzFlags v p) := by
  rw [nzFlags, setFlag_comm hn.symm, setFlag_comm hz.symm, nzFlags]

/-- R258: ANC with C set before N and Z. -/
theorem ancRegs_eq_setNZ (v : Byte) (r : Regs) :
    ancRegs v r = setNZ (r.a &&& v) { r with a := r.a &&& v, p := setFlag .c ((r.a &&& v).getLsbD 7) r.p } := by
  simp only [ancRegs, setNZ, nzFlags_setFlag (by decide : Flag.c ≠ .n) (by decide)]

/-- R260: ARR with C and V set before N and Z. -/
theorem arrRegs_eq_setNZ (v : Byte) (r : Regs) :
    arrRegs v r =
      let t := ((r.a &&& v) >>> 1) ||| (if getFlag .c r.p then 0x80 else 0)
      setNZ t { r with a := t, p := setFlag .v (t.getLsbD 6 ^^ t.getLsbD 5) (setFlag .c (t.getLsbD 6) r.p) } := by
  simp only [arrRegs, setNZ, nzFlags_setFlag (by decide : Flag.c ≠ .n) (by decide),
    nzFlags_setFlag (by decide : Flag.v ≠ .n) (by decide)]

/-- Settles O37: eight instructions on the registers alone (R258 to R264), ANC and ARR by their equations, and LAS, a reading
instruction (R265). -/
theorem unofficialImmediatesAndLas : Obligations.UnofficialImmediatesAndLas := by
  intro v a s anc
  have hanc : ancRegs v = anc := funext (ancRegs_eq_setNZ v)
  have harr := funext (arrRegs_eq_setNZ v)
  exact ⟨hanc ▸ .of rfl, hanc ▸ .of rfl,
    .of rfl,
    harr ▸ .of rfl,
    .of rfl,
    .of rfl,
    .of rfl,
    .of rfl,
    .of rfl⟩

/-! ### Unknown opcodes (R119, R270) -/

/-- Settles O38: an unknown opcode works on PC alone (R270), and no opcode is listed by default (R119). -/
theorem unknownOpcodesDoNothing : Obligations.UnknownOpcodesDoNothing :=
  fun _ _ => ⟨.of rfl, rfl⟩

end Sys2Proof.Machine

/-! The PPU ports (spec/47_ppu_port.md): what each read and write does to the state, one equation per case of its rule, and
the fields of `t`, `v` and the status byte in numbers. -/

namespace Sys2Proof.Machine

/-! ### The port of an address (R57, R300) -/

theorem portOf_control {a : Addr} (h : a.toNat % 8 = 0) : portOf a = .control := by
  simp only [portOf, h]

theorem portOf_mask {a : Addr} (h : a.toNat % 8 = 1) : portOf a = .mask := by
  simp only [portOf, h]

theorem portOf_oamAddr {a : Addr} (h : a.toNat % 8 = 3) : portOf a = .oamAddr := by
  simp only [portOf, h]

theorem portOf_oamData {a : Addr} (h : a.toNat % 8 = 4) : portOf a = .oamData := by
  simp only [portOf, h]

theorem portOf_scroll {a : Addr} (h : a.toNat % 8 = 5) : portOf a = .scroll := by
  simp only [portOf, h]

theorem portOf_address {a : Addr} (h : a.toNat % 8 = 6) : portOf a = .address := by
  simp only [portOf, h]

theorem portOf_data {a : Addr} (h : a.toNat % 8 = 7) : portOf a = .data := by
  simp only [portOf, h]

/-! ### Control (R301, R314) -/

/-- R301: the nametable bits of `t` are replaced. -/
theorem t_control_getLsbD (t : BitVec 15) (v : Byte) (k : Nat) :
    ((t &&& 0x73FF#15) ||| ((v &&& 3).setWidth 15 <<< 10)).getLsbD k =
      if k = 10 then v.getLsbD 0 else if k = 11 then v.getLsbD 1 else t.getLsbD k := by
  by_cases hk : k < 15
  · interval_cases k <;> simp
  · have hk' : 15 ≤ k := Nat.not_lt.mp hk
    rw [if_neg (by omega), if_neg (by omega), BitVec.getLsbD_of_ge _ _ hk', BitVec.getLsbD_of_ge _ _ hk']

/-- R301: whether a write of control raises the NMI: bit 7 rises while the vblank bit is set. -/
def controlRaises (v : Byte) (p : Ppu) : Prop :=
  p.ctrl.getLsbD 7 = false ∧ v.getLsbD 7 = true ∧ p.status.getLsbD 7 = true

/-- R301: what a write of control does to the PPU. -/
def controlPpu (v : Byte) (p : Ppu) : Ppu :=
  { p with ctrl := v, renderCtrlNext := v, t := (p.t &&& 0x73FF) ||| ((v &&& 3).setWidth 15 <<< 10) }

theorem writeControl_raises {v : Byte} {s : State} (h : controlRaises v s.ppu) :
    writeControl v s = raiseNmi { s with ppu := controlPpu v s.ppu } := by
  obtain ⟨hold, hnew, hvblank⟩ := h
  exact if_pos (by rw [hold, hnew, hvblank]; rfl)

theorem writeControl_quiet {v : Byte} {s : State} (h : ¬ controlRaises v s.ppu) :
    writeControl v s = { s with ppu := controlPpu v s.ppu } :=
  if_neg (by simpa [controlRaises, and_assoc] using h)

/-- Settles O44: R301 with the NMI of R314 and without it. -/
theorem controlPortWrite : Obligations.ControlPortWrite := by
  intro a v s h h' hp t raises
  have ht : t = writeControl v (s.setLastBus v) := by
    simp only [t, busWrite_port h h', portOf_control hp, portWrite]
  by_cases hr : raises
  · rw [ht, writeControl_raises (s := s.setLastBus v) hr]
    exact ⟨rfl, t_control_getLsbD s.ppu.t v, fun _ => rfl, fun hn => absurd hr hn⟩
  · rw [ht, writeControl_quiet (s := s.setLastBus v) hr]
    exact ⟨rfl, t_control_getLsbD s.ppu.t v, fun h => absurd h hr, fun _ => rfl⟩

/-! ### Mask, OAM address, scroll (R302, R304, R306) -/

theorem writeScroll_first {s : State} (hw : s.ppu.w = false) (v : Byte) :
    writeScroll v s = { s with
      ppu.fineX := v.setWidth 3
      ppu.t := (s.ppu.t &&& 0x7FE0) ||| (v >>> 3).setWidth 15
      ppu.nextX := v
      ppu.w := true } :=
  if_neg (by simp [hw])

theorem writeScroll_second {s : State} (hw : s.ppu.w = true) (v : Byte) :
    writeScroll v s = { s with
      ppu.t := (s.ppu.t &&& 0x0C1F) ||| ((v &&& 7).setWidth 15 <<< 12) ||| ((v >>> 3).setWidth 15 <<< 5)
      ppu.nextY := v
      ppu.w := false } :=
  if_pos hw

/-- Settles O45: the two stores, and each scroll write with the fields of `t` in numbers (`t_coarseX`, `t_scrollY`). -/
theorem maskOamAddressAndScrollPorts : Obligations.MaskOamAddressAndScrollPorts := by
  intro a v s h h' t
  have ht : t = portWrite (portOf a) v (s.setLastBus v) := busWrite_port h h' v s
  refine ⟨fun hp => ?mask, fun hp => ?oamAddr, fun hp hw => ?first, fun hp hw => ?second⟩
  case mask =>
    rw [ht, portOf_mask hp]
    rfl
  case oamAddr =>
    rw [ht, portOf_oamAddr hp]
    rfl
  case first =>
    rw [ht, portOf_scroll hp, portWrite, writeScroll_first (s := s.setLastBus v) hw]
    exact ⟨rfl, BitVec.toNat_setWidth 3 v, t_coarseX s.ppu.t v⟩
  case second =>
    rw [ht, portOf_scroll hp, portWrite, writeScroll_second (s := s.setLastBus v) hw]
    exact ⟨rfl, t_scrollY s.ppu.t v⟩

/-! ### Address (R307) -/

theorem writeAddress_first {s : State} (hw : s.ppu.w = false) (v : Byte) :
    writeAddress v s = { s with
      ppu.t := (s.ppu.t &&& 0x00FF) ||| ((v &&& 0x3F).setWidth 15 <<< 8)
      ppu.w := true } :=
  if_neg (by simp [hw])

theorem writeAddress_second {s : State} (hw : s.ppu.w = true) (v : Byte) :
    writeAddress v s = { s with
      ppu.t := (s.ppu.t &&& 0x7F00) ||| v.setWidth 15
      ppu.v := (s.ppu.t &&& 0x7F00) ||| v.setWidth 15
      ppu.w := false } :=
  if_pos hw

theorem busWrite_address {a : Addr} (h : 0x2000 ≤ a.toNat) (h' : a.toNat < 0x4000) (hp : a.toNat % 8 = 6) (v : Byte)
    (s : State) : busWrite a v s = writeAddress v (s.setLastBus v) := by
  rw [busWrite_port h h', portOf_address hp, portWrite]

/-! ### Data (R308, R311) -/

theorem vAddr_eq_ofNat (p : Ppu) : vAddr p = BitVec.ofNat 14 p.v.toNat :=
  (BitVec.ofNat_toNat 14 p.v).symm

/-- R308, R311: the increment of `v` in numbers (decision D14). -/
theorem advanceV_toNat (p : Ppu) :
    (advanceV p).toNat = (p.v.toNat + if p.ctrl.getLsbD 2 then 32 else 1) % 0x8000 := by
  unfold advanceV
  rw [BitVec.toNat_add, apply_ite BitVec.toNat]
  rfl

theorem ppuWrite_setLastBus (a : PpuAddr) (v b : Byte) (s : State) :
    ppuWrite a v (s.setLastBus b) = (ppuWrite a v s).setLastBus b := by
  rcases ppuAddr_cases a with h | ⟨h, h'⟩ | h
  · simp only [ppuWrite_chr h]
    rfl
  · simp only [ppuWrite_nametable h h']
    rfl
  · simp only [ppuWrite_palette h]
    rfl

theorem ppuWrite_readBuffer (a : PpuAddr) (v : Byte) (s : State) :
    (ppuWrite a v s).ppu.readBuffer = s.ppu.readBuffer := by
  rcases ppuAddr_cases a with h | ⟨h, h'⟩ | h
  · rw [ppuWrite_chr h]
  · rw [ppuWrite_nametable h h']
  · rw [ppuWrite_palette h]

/-- R308 as a write of the CPU bus. -/
theorem busWrite_data {a : Addr} (h : 0x2000 ≤ a.toNat) (h' : a.toNat < 0x4000) (hp : a.toNat % 8 = 7) (v : Byte)
    (s : State) :
    busWrite a v s = { ppuWrite (vAddr s.ppu) v (s.setLastBus v) with
      ppu := { (ppuWrite (vAddr s.ppu) v s).ppu with v := advanceV s.ppu } } := by
  rw [busWrite_port h h', portOf_data hp, portWrite, writeData, State.setLastBus_ppu, ppuWrite_setLastBus]
  rfl

theorem readData_buffered {s : State} (h : (vAddr s.ppu).toNat < 0x3F00) :
    readData s = ⟨s.ppu.readBuffer,
      { s with ppu.readBuffer := ppuRead (vAddr s.ppu) s, ppu.v := advanceV s.ppu }⟩ :=
  if_pos h

theorem readData_palette {s : State} (h : 0x3F00 ≤ (vAddr s.ppu).toNat) :
    readData s = ⟨ppuRead (vAddr s.ppu) s,
      { s with ppu.readBuffer := ppuRead (vAddr s.ppu - 0x1000) s, ppu.v := advanceV s.ppu }⟩ :=
  if_neg (Nat.not_lt.mpr h)

theorem busRead_data {a : Addr} (h : 0x2000 ≤ a.toNat) (h' : a.toNat < 0x4000) (hp : a.toNat % 8 = 7) (s : State) :
    busRead a s = ⟨(readData s).val, (readData s).st.setLastBus (readData s).val⟩ := by
  rw [busRead_port h h', portOf_data hp, portRead]

/-- Settles O46: the address pair write by write, and port 7 by the area that `v` names. -/
theorem addressAndDataPorts : Obligations.AddressAndDataPorts := by
  intro a b v l s ha ha' hb hb'
  refine ⟨fun hpa hpb hw => ?pair, fun hp hw => ?first, fun hp hw => ?second, fun hp => ?data⟩
  case pair =>
    rw [busWrite_address hb hb' hpb, busWrite_address ha ha' hpa, writeAddress_first (s := s.setLastBus v) hw,
      writeAddress_second rfl]
    refine ⟨?_, t_address s.ppu.t v l, rfl, rfl⟩
    rw [← hw]
    rfl
  case first =>
    rw [busWrite_address ha ha' hp, writeAddress_first (s := s.setLastBus v) hw]
    exact ⟨rfl, t_addressHigh s.ppu.t v⟩
  case second =>
    rw [busWrite_address ha ha' hp, writeAddress_second (s := s.setLastBus v) hw]
    exact ⟨rfl, t_addressLow s.ppu.t v⟩
  case data =>
    intro p r t next
    have hv : vAddr s.ppu = p := vAddr_eq_ofNat s.ppu
    have hnext : (advanceV s.ppu).toNat = next := advanceV_toNat s.ppu
    have hr : r = ⟨(readData s).val, (readData s).st.setLastBus (readData s).val⟩ := busRead_data ha ha' hp s
    have ht : t = { ppuWrite p v (s.setLastBus v) with ppu := { (ppuWrite p v s).ppu with v := advanceV s.ppu } } :=
      hv ▸ busWrite_data ha ha' hp v s
    have hwrite : t = { ppuWrite p v (s.setLastBus v) with ppu := { (ppuWrite p v s).ppu with v := t.ppu.v } } ∧
        t.ppu.v.toNat = next ∧ t.ppu.readBuffer = s.ppu.readBuffer := by
      rw [ht]
      exact ⟨rfl, hnext, ppuWrite_readBuffer p v s⟩
    by_cases hlow : p.toNat < 0x3F00
    · rw [readData_buffered (hv ▸ hlow), hv] at hr
      rw [hr]
      exact ⟨rfl, hnext, fun _ => ⟨rfl, rfl⟩, fun h => absurd hlow (Nat.not_lt.mpr h), hwrite⟩
    · have hhigh := Nat.not_lt.mp hlow
      rw [readData_palette (hv ▸ hhigh), hv] at hr
      rw [hr]
      exact ⟨rfl, hnext, fun h => absurd h hlow, fun _ => ⟨rfl, rfl⟩, hwrite⟩

/-! ### Status and OAM data (R305, R309, R310) -/

/-- R309: the vblank bit is cleared and the others are kept. -/
theorem clearVblank_getLsbD (b : Byte) (k : Nat) : (b &&& 0x7F).getLsbD k = (b.getLsbD k && k != 7) := by
  by_cases hk : k < 8
  · interval_cases k <;> simp
  · have hk' : 8 ≤ k := Nat.not_lt.mp hk
    rw [BitVec.getLsbD_of_ge _ _ hk', BitVec.getLsbD_of_ge _ _ hk', Bool.false_and]

/-- Settles O47: R309 with the status bit by bit, R305 and R310 at the OAM address. -/
theorem statusAndOamDataPorts : Obligations.StatusAndOamDataPorts := by
  intro a v s h h' hoam
  refine ⟨fun hp => ?status, fun hp => ?oamData⟩
  case status =>
    rw [busRead_port h h', portOf_status hp]
    exact ⟨rfl, clearVblank_getLsbD s.ppu.status⟩
  case oamData =>
    rw [busRead_port h h', busWrite_port h h', portOf_oamData hp]
    exact ⟨⟨_, rfl, rfl⟩, rfl, readCell_writeCell hoam⟩

end Sys2Proof.Machine

/-! The PPU machine (spec/48_ppu_machine.md): where each event of a tick stands (`tickEvent_at`), what it changes, and sprite
evaluation, the rendered line, a pixel and the sprite-0 test in numbers. -/

namespace Sys2Proof.Machine

/-! ### The event of a position (R340) -/

/-- Each event with the positions it stands at, for a property of the state it leaves. -/
theorem tickEvent_at {P : State → Prop} {line : Int} {dot : Nat} {s : State}
    (hnone : ¬ (line = -1 ∧ dot = 0) → ¬ (0 ≤ line ∧ line ≤ 239 ∧ dot = 257) → ¬ (line = 241 ∧ dot = 1) → P s)
    (hframe : line = -1 → dot = 0 → P (frameLatch s))
    (hclear : line = -1 → dot = 1 → P (prerenderClear s))
    (hrender : 0 ≤ line → line ≤ 239 → dot = 0 → P (renderScanline line.toNat (evaluateSprites line.toNat s)))
    (hhit : 0 ≤ line → line ≤ 239 → 1 ≤ dot → dot ≤ 256 → P (sprite0Test (dot - 1) line.toNat s))
    (hline : 0 ≤ line → line ≤ 239 → dot = 257 → P (lineLatch s))
    (hvblank : line = 241 → dot = 1 → P (vblankStart s)) : P (tickEvent line dot s) := by
  unfold tickEvent
  split_ifs with prerender first second visible first hit latch vblank
  · exact hframe prerender first
  · exact hclear prerender second
  · exact hnone (by omega) (by omega) (by omega)
  · exact hrender visible.1 visible.2 first
  · exact hhit visible.1 visible.2 (by omega) hit
  · exact hline visible.1 visible.2 latch
  · exact hnone (by omega) (by omega) (by omega)
  · exact hvblank vblank.1 vblank.2
  · exact hnone (by omega) (by omega) vblank

/-! ### Everything an event or the advance changes -/

theorem sprite0Test_frame (x line : Nat) (s : State) :
    sprite0Test x line s = { s with ppu.status := (sprite0Test x line s).ppu.status } := by
  unfold sprite0Test
  split
  · rfl
  · rfl

/-- R351 whole: of the CPU the NMI latch and counter, of the PPU the status and the frame flag. -/
theorem vblankStart_eq (s : State) :
    vblankStart s = { s with
      cpu := if s.ppu.ctrl.getLsbD 7 then { s.cpu with nmiPending := true, nmiCount := s.cpu.nmiCount + 1 } else s.cpu
      ppu := { s.ppu with status := s.ppu.status ||| 0x80, frameReady := true } } := by
  unfold vblankStart
  split
  · rfl
  · rfl

theorem advancePos_frame (s : State) :
    advancePos s = { s with ppu.scanline := (advancePos s).ppu.scanline, ppu.dot := (advancePos s).ppu.dot } := by
  unfold advancePos
  split
  · rfl
  · rfl

/-! ### The tick at the position of an event -/

/-- R353 before the last dot of a line. -/
theorem tick_within_line {s : State} (h : s.ppu.dot < 340) :
    tick s = { tickEvent s.ppu.scanline s.ppu.dot s with ppu.dot := s.ppu.dot + 1 } := by
  obtain ⟨-, hdot⟩ := tickEvent_pos s.ppu.scanline s.ppu.dot s
  unfold tick advancePos
  rw [hdot, if_neg (by omega)]

theorem tick_frameLatch {s : State} (hl : s.ppu.scanline = -1) (hd : s.ppu.dot = 0) :
    tick s = { frameLatch s with ppu.dot := 1 } := by
  rw [tick_within_line (by omega), hl, hd]
  rfl

theorem tick_prerenderClear {s : State} (hl : s.ppu.scanline = -1) (hd : s.ppu.dot = 1) :
    tick s = { prerenderClear s with ppu.dot := 2 } := by
  rw [tick_within_line (by omega), hl, hd]
  rfl

theorem tick_vblankStart {s : State} (hl : s.ppu.scanline = 241) (hd : s.ppu.dot = 1) :
    tick s = { vblankStart s with ppu.dot := 2 } := by
  rw [tick_within_line (by omega), hl, hd]
  rfl

theorem tick_lineLatch {s : State} (h : 0 ≤ s.ppu.scanline) (h' : s.ppu.scanline ≤ 239) (hd : s.ppu.dot = 257) :
    tick s = { lineLatch s with ppu.dot := 258 } := by
  rw [tick_within_line (by omega), hd, tickEvent, if_neg (by omega), if_pos ⟨h, h'⟩]
  rfl

theorem tick_sprite0Test {s : State} {line x : Nat} (hl : s.ppu.scanline = line) (h : line < 240) (hd : s.ppu.dot = x + 1)
    (hx : x < 256) : tick s = { sprite0Test x line s with ppu.dot := x + 2 } := by
  rw [tick_within_line (by omega), hl, hd, tickEvent, if_neg (by omega), if_pos (by omega), if_neg (by omega),
    if_pos (by omega)]
  rfl

/-! ### The position (R353) -/

/-- Settles O49: `tick_pos`, with the sums named by the values they come from. -/
theorem tickAdvancesPosition : Obligations.TickAdvancesPosition := by
  intro s
  obtain ⟨hdot, hline⟩ := tick_pos s
  have hlast : s.ppu.dot + 1 = 341 ↔ s.ppu.dot = 340 := by omega
  have hbottom : s.ppu.scanline + 1 = 261 ↔ s.ppu.scanline = 260 := by omega
  simp only [hlast, hbottom] at hdot hline
  exact ⟨hdot, hline⟩

/-! ### What a tick leaves alone (R357) -/

theorem TickEffect.frame {s t : State} (h : TickEffect s t) : t = { s with cpu := t.cpu, ppu := t.ppu } := by rw [h]

theorem tickEvent_cpu_of_ne {line : Int} {dot : Nat} (h : ¬ (line = 241 ∧ dot = 1)) (s : State) :
    (tickEvent line dot s).cpu = s.cpu :=
  tickEvent_at (P := fun t => t.cpu = s.cpu) (fun _ _ _ => rfl) (fun _ _ => rfl) (fun _ _ => rfl) (fun _ _ _ => rfl)
    (fun _ _ _ _ => by rw [sprite0Test_frame]) (fun _ _ _ => rfl) (fun hl hd => absurd ⟨hl, hd⟩ h)

/-- R351: a tick raises the NMI at (241, 1) with ctrl bit 7 set, and touches the CPU nowhere else. -/
theorem tick_cpu (s : State) :
    (tick s).cpu = if s.ppu.scanline = 241 ∧ s.ppu.dot = 1 ∧ s.ppu.ctrl.getLsbD 7 = true then
      { s.cpu with nmiPending := true, nmiCount := s.cpu.nmiCount + 1 } else s.cpu := by
  by_cases h : s.ppu.scanline = 241 ∧ s.ppu.dot = 1
  · rw [tick_vblankStart h.1 h.2, vblankStart_eq]
    simp only [h, true_and]
  · rw [if_neg fun c => h ⟨c.1, c.2.1⟩, tick, advancePos_frame, tickEvent_cpu_of_ne h]

/-- `q` differs from `p` at most in the status, the latched scroll and control, the position, the frame flag, the cached
sprites and the framebuffer. -/
def PpuTickEffect (p q : Ppu) : Prop :=
  q = { p with
    status := q.status
    activeX := q.activeX
    activeY := q.activeY
    renderCtrl := q.renderCtrl
    scanline := q.scanline
    dot := q.dot
    frameReady := q.frameReady
    line := q.line
    framebuffer := q.framebuffer }

theorem PpuTickEffect.trans {p q r : Ppu} (h : PpuTickEffect p q) (h' : PpuTickEffect q r) : PpuTickEffect p r := by
  unfold PpuTickEffect at *
  rw [h'] at *
  rw [h]

theorem advancePos_ppuEffect (s : State) : PpuTickEffect s.ppu (advancePos s).ppu := by
  rw [advancePos_frame]
  rfl

theorem tickEvent_ppuEffect (line : Int) (dot : Nat) (s : State) : PpuTickEffect s.ppu (tickEvent line dot s).ppu := by
  refine tickEvent_cases (P := fun t => PpuTickEffect s.ppu t.ppu) rfl rfl rfl (fun _ _ => rfl) (fun x => ?hit) rfl ?vblank
  case hit =>
    rw [sprite0Test_frame]
    rfl
  case vblank =>
    rw [vblankStart_eq]
    rfl

theorem tick_ppuEffect (s : State) : PpuTickEffect s.ppu (tick s).ppu :=
  (tickEvent_ppuEffect _ _ s).trans (advancePos_ppuEffect _)

/-- Settles O50: outside the CPU and the PPU (`tick_effect`), the CPU (`tick_cpu`), the PPU (`tick_ppuEffect`). -/
theorem tickLeavesCpuAlone : Obligations.TickLeavesCpuAlone :=
  fun s => ⟨(tick_effect s).frame, tick_cpu s, tick_ppuEffect s⟩

/-! ### The latches (R341, R342) -/

theorem tick_activeY {s : State} (h : ¬ (s.ppu.scanline = -1 ∧ s.ppu.dot = 0)) : (tick s).ppu.activeY = s.ppu.activeY := by
  rw [tick, advancePos_frame]
  exact tickEvent_at (P := fun t => t.ppu.activeY = s.ppu.activeY) (fun _ _ _ => rfl) (fun hl hd => absurd ⟨hl, hd⟩ h)
    (fun _ _ => rfl) (fun _ _ _ => rfl) (fun _ _ _ _ => by rw [sprite0Test_frame]) (fun _ _ _ => rfl)
    (fun _ _ => by rw [vblankStart_eq])

theorem tick_activeX_renderCtrl {s : State} (h : ¬ (s.ppu.scanline = -1 ∧ s.ppu.dot = 0))
    (h' : ¬ (0 ≤ s.ppu.scanline ∧ s.ppu.scanline ≤ 239 ∧ s.ppu.dot = 257)) :
    (tick s).ppu.activeX = s.ppu.activeX ∧ (tick s).ppu.renderCtrl = s.ppu.renderCtrl := by
  rw [tick, advancePos_frame]
  refine tickEvent_at (P := fun t => t.ppu.activeX = s.ppu.activeX ∧ t.ppu.renderCtrl = s.ppu.renderCtrl)
    (fun _ _ _ => ⟨rfl, rfl⟩) (fun hl hd => absurd ⟨hl, hd⟩ h) (fun _ _ => ⟨rfl, rfl⟩) (fun _ _ _ => ⟨rfl, rfl⟩)
    (fun _ _ _ _ => ?hit) (fun hl hl' hd => absurd ⟨hl, hl', hd⟩ h') (fun _ _ => ?vblank)
  case hit =>
    rw [sprite0Test_frame]
    exact ⟨rfl, rfl⟩
  case vblank =>
    rw [vblankStart_eq]
    exact ⟨rfl, rfl⟩

/-- Settles O51: the tick at each of the two latch points, and the latches at every other position. -/
theorem latchPoints : Obligations.LatchPoints := by
  refine fun s => ⟨fun hl hd => ?frame, fun h h' hd => ?line, fun h => ⟨tick_activeY h, tick_activeX_renderCtrl h⟩⟩
  case frame =>
    rw [tick_frameLatch hl hd]
    rfl
  case line =>
    rw [tick_lineLatch h h' hd]
    rfl

/-! ### Vblank and the pre-render line (R351, R352) -/

/-- R352: what the mask leaves of a status byte whose bits 4:0 are 0. -/
theorem prerenderStatus {st : Byte} (h : st &&& 0x1F = 0) (c : Bool) :
    let st' := st &&& (if c then 0x1F else 0x3F)
    st'.getLsbD 7 = false ∧ st'.getLsbD 6 = false ∧ st'.getLsbD 5 = (st.getLsbD 5 && !c) ∧ st' &&& 0x1F = 0 := by
  refine ⟨?_, ?_, ?_, statusOk_and h⟩
  · cases c <;> simp
  · cases c <;> simp
  · cases c <;> simp

/-- Settles O52: the tick at each of the two positions whole, and its status bit by bit. -/
theorem vblankStartAndPrerenderClear : Obligations.VblankStartAndPrerenderClear := by
  refine fun s hd => ⟨fun hl => ?vblank, fun hl hs => ?prerender⟩
  case vblank =>
    rw [tick_vblankStart hl hd, vblankStart_eq]
    exact ⟨rfl, fun k => (getLsbD_or_status s.ppu.status k).1⟩
  case prerender =>
    rw [tick_prerenderClear hl hd]
    exact ⟨rfl, prerenderStatus hs s.cfg.clearOverflowAtPrerender⟩

/-! ### Sprite evaluation (R343) -/

/-- R343 on integers: a row is covered where the line, not below 0, is in the half-open range. -/
theorem spriteCovers_iff {line : Int} (h : 0 ≤ line) (y : Byte) (height : Nat) :
    spriteCovers y height line.toNat = true ↔ (y.toNat : Int) + 1 ≤ line ∧ line < (y.toNat : Int) + 1 + height := by
  simp only [spriteCovers, Bool.and_eq_true, decide_eq_true_eq]
  omega

theorem spriteHeight_cast (p : Ppu) : (spriteHeight p : Int) = if p.renderCtrl.getLsbD 5 then 16 else 8 := by
  unfold spriteHeight
  split
  · rfl
  · rfl

theorem evaluateSprites_status (line : Nat) (s : State) (k : Nat) :
    (evaluateSprites line s).ppu.status.getLsbD k =
      (s.ppu.status.getLsbD k || (k == 5 && decide (8 < (spritesOnLine line s.ppu).length))) := by
  unfold evaluateSprites
  dsimp only
  split_ifs with h
  · rw [(getLsbD_or_status _ _).2.2, decide_eq_true h, Bool.and_true]
  · rw [decide_eq_false h, Bool.and_false, Bool.or_false]

/-- R343: the cached sprites are the first eight found, each with its four bytes of OAM. -/
theorem evaluateSprites_getElem? {line k : Nat} {s : State} {e : SpriteEntry}
    (h : (evaluateSprites line s).ppu.line[k]? = some e) :
    (spritesOnLine line s.ppu)[k]? = some e.index ∧ e = oamSprite s.ppu.oam e.index := by
  simp only [evaluateSprites, List.getElem?_map, Option.map_eq_some_iff, List.getElem?_take,
    Option.ite_none_right_eq_some] at h
  obtain ⟨i, ⟨-, hi⟩, rfl⟩ := h
  exact ⟨hi, rfl⟩

/-- Settles O53: the tick evaluates the sprites (`tick_render`), and the covering ones are those of the statement. -/
theorem spriteEvaluationCachesFirstEight : Obligations.SpriteEvaluationCachesFirstEight := by
  intro s h0 h1 hd h covers found
  have hfound : found = spritesOnLine s.ppu.scanline.toNat s.ppu := by
    refine List.filter_congr fun i _ => ?_
    rw [Bool.eq_iff_iff, spriteCovers_iff h0, spriteHeight_cast, decide_eq_true_eq]
  rw [tick_render h0 h1 hd, hfound]
  refine ⟨?count, fun k e he => ?cached, evaluateSprites_status _ s⟩
  case count => exact (List.length_map _).trans List.length_take
  case cached =>
    obtain ⟨hk, heq⟩ := evaluateSprites_getElem? he
    exact ⟨hk, congrArg SpriteEntry.y heq, congrArg SpriteEntry.tile heq, congrArg SpriteEntry.attr heq,
      congrArg SpriteEntry.x heq⟩

/-! ### The rendered line (R344, R349) -/

/-- R344: a rendered line reads as the table's words of its pixels' colours, every other line as before. -/
theorem framebufferWord_renderScanline (line : Nat) (s : State) :
    (∀ x, x < 256 → framebufferWord x line (renderScanline line s) = Config.rgbTable (pixelColour x line s)) ∧
      ∀ x y, y ≠ line → framebufferWord x y (renderScanline line s) = framebufferWord x y s := by
  have hrow := renderedColour_putRow ⟨line, (List.range 256).map fun x => pixelColour x line s⟩ s.ppu.framebuffer
  refine ⟨fun x hx => ?same, fun x y hy => ?other⟩
  case same =>
    rw [framebufferWord, renderScanline, (hrow x).1]
    simp [hx]
  case other => rw [framebufferWord, renderScanline, (hrow x).2 y hy, framebufferWord]

/-- Settles O54: the line rendered with its sprites cached; caching them leaves the framebuffer alone. -/
theorem scanlineRendersAtDotZero : Obligations.ScanlineRendersAtDotZero := by
  intro s line hl h hd
  have ht := tick_render (s := s) (by omega) (by omega) hd
  rw [hl, Int.toNat_natCast] at ht
  rw [ht]
  exact framebufferWord_renderScanline line (evaluateSprites line s)

/-! ### The background's pixel (R345, R348) -/

/-- R348: a source is off by its own mask bit, and in the left eight pixels by another. -/
def SourceOff (source left x : Nat) (s : State) : Prop :=
  s.ppu.mask.getLsbD source = false ∨ (x < 8 ∧ s.ppu.mask.getLsbD left = false)

theorem bgPixel_off {x line : Nat} {s : State} (h : SourceOff 3 1 x s) : bgPixel x line s = ⟨0, 0⟩ :=
  if_pos (by simpa [SourceOff] using h)

theorem bgPixel_on {x line : Nat} {s : State} (h : ¬ SourceOff 3 1 x s) : bgPixel x line s = bgFetch x line s :=
  if_neg (by simpa [SourceOff] using h)

/-- R345: where the two palette bits of a tile's quadrant stand, by the pixel's column and row. -/
theorem quadrant_eq (cx cy : Nat) :
    cy / 8 / 2 % 2 * 4 + cx / 8 / 2 % 2 * 2 = (if cy % 32 < 16 then 0 else 4) + (if cx % 32 < 16 then 0 else 2) := by
  split_ifs <;> omega

theorem bgFetch_fetched (x line : Nat) (s : State) : BackgroundFetched x line s (bgFetch x line s) := by
  have hbase := nametableBase s.ppu.renderCtrl (decide (256 ≤ (x + s.ppu.activeX.toNat) % 512))
    (decide (240 ≤ (line + s.ppu.activeY.toNat) % 480))
  simp only [decide_eq_true_eq] at hbase
  simp only [BackgroundFetched, bgFetch, ppuByte, hbase, twoBits, quadrant_eq,
    Nat.div_div_eq_div_mul _ 8 4, Nat.reduceMul]
  exact ⟨rfl, patternPixel_bits _ _ s⟩

theorem bgPixel_fetched {x line : Nat} {s : State} (h : ¬ SourceOff 3 1 x s) :
    BackgroundFetched x line s (bgPixel x line s) := by
  rw [bgPixel_on h]
  exact bgFetch_fetched x line s

theorem bgPixel_pal_lt (x line : Nat) (s : State) : (bgPixel x line s).pal < 4 := by
  unfold bgPixel
  split
  · exact Nat.zero_lt_succ _
  · exact Nat.mod_lt _ (Nat.zero_lt_succ _)

/-! ### The sprites' pixel (R346, R348, R356) -/

/-- R356: the row of an 8×16 sprite in its pair of tiles, and the table by bit 0 of the tile byte. -/
theorem tallPatternAddr (tile : Byte) {row : Nat} (h : row < 16) :
    tile.toNat % 2 * 0x1000 + tile.toNat / 2 * 2 * 16 + (if 8 ≤ row then 16 else 0) + row % 8 =
      (if tile.getLsbD 0 then 0x1000 else 0) + tile.toNat / 2 * 32 + (if row < 8 then row else row + 8) := by
  rw [show tile.getLsbD 0 = decide (tile.toNat % 2 = 1) from Nat.testBit_zero _]
  simp only [decide_eq_true_eq]
  split_ifs <;> omega

theorem spritePatternPixel_sampled {e : SpriteEntry} {x line : Nat} {s : State} (h : SpriteCovers e x line s) :
    SpriteSampled e x line s (spritePatternPixel e x line s) := by
  obtain ⟨htop, hbottom, hleft, hright⟩ := h
  have hbit : (if e.attr.getLsbD 6 then x - e.x.toNat else 7 - (x - e.x.toNat)) =
      if e.attr.getLsbD 6 then x - e.x.toNat else e.x.toNat + 7 - x := by
    split_ifs <;> omega
  have hrow (height : Nat) :
      (if e.attr.getLsbD 7 then height - 1 - (line - (e.y.toNat + 1)) else line - (e.y.toNat + 1)) =
        if e.attr.getLsbD 7 then e.y.toNat + height - line else line - (e.y.toNat + 1) := by
    split_ifs <;> omega
  unfold SpriteSampled spritePatternPixel spriteHeight
  dsimp only
  rw [hbit, hrow]
  cases htall : s.ppu.renderCtrl.getLsbD 5 with
  | false => exact patternPixel_bits _ _ s
  | true =>
    have hrows : line < e.y.toNat + 1 + 16 := by simpa [htall] using hbottom
    rw [← tallPatternAddr e.tile (by split_ifs <;> omega)]
    exact patternPixel_bits _ _ s

theorem spritePixel_off {x line : Nat} {s : State} (h : SourceOff 4 2 x s) : spritePixel x line s = none :=
  if_pos (by simpa [SourceOff] using h)

theorem spritePixel_on {x line : Nat} {s : State} (h : ¬ SourceOff 4 2 x s) :
    spritePixel x line s = s.ppu.line.findSome? fun e => spritePixelOf e x line s :=
  if_neg (by simpa [SourceOff] using h)

/-- R346, R348: the first cached sprite that shows an opaque pixel at x, where sprites are not hidden. -/
theorem spritePixel_some_iff (x line : Nat) (s : State) (p : SpritePixel) :
    let shows := fun e : SpriteEntry => e.x.toNat ≤ x ∧ x < e.x.toNat + 8 ∧ spritePatternPixel e x line s ≠ 0
    spritePixel x line s = some p ↔ ¬ SourceOff 4 2 x s ∧
      ∃ before e after, s.ppu.line = before ++ e :: after ∧ (∀ e' ∈ before, ¬ shows e') ∧ shows e ∧
        p = ⟨spritePatternPixel e x line s, e.attr.toNat % 4, e.attr.getLsbD 5, decide (e.index = 0)⟩ := by
  intro shows
  by_cases hoff : SourceOff 4 2 x s
  · rw [spritePixel_off hoff]
    exact iff_of_false (by simp) fun h => h.1 hoff
  · rw [spritePixel_on hoff, List.findSome?_eq_some_iff]
    simp only [spritePixelOf_some, spritePixelOf_none, hoff, not_false_iff, true_and]
    refine exists_congr fun before => exists_congr fun e => exists_congr fun after => and_congr_right fun _ => ?_
    rw [and_comm, and_assoc]

theorem spritePixel_bounds {x line : Nat} {s : State} {p : SpritePixel} (h : spritePixel x line s = some p) :
    p.px ≠ 0 ∧ p.pal < 4 := by
  obtain ⟨-, -, e, -, -, -, ⟨-, -, hpx⟩, rfl⟩ := (spritePixel_some_iff x line s p).mp h
  exact ⟨hpx, Nat.mod_lt _ (Nat.zero_lt_succ _)⟩

/-! ### The colour shown (R347) -/

theorem pixelColour_eq {x line i : Nat} {s : State} (hi : i < 0x20)
    (h : pixelPaletteAddr (bgPixel x line s) (spritePixel x line s) = 0x3F00 + i) :
    pixelColour x line s = readCell s.ppu.palette (paletteIndex (BitVec.ofNat 14 (0x3F00 + i))) := by
  rw [pixelColour, h, ppuByte_palette hi]

theorem pixelPaletteAddr_backdrop {bg : BgPixel} (h : bg.px = 0) : pixelPaletteAddr bg none = 0x3F00 + 0 :=
  if_neg (by simp [h])

theorem pixelPaletteAddr_background {bg : BgPixel} (h : bg.px ≠ 0) :
    pixelPaletteAddr bg none = 0x3F00 + (bg.pal * 4 + bg.px.toNat) :=
  (if_pos (bne_iff_ne.mpr h)).trans (Nat.add_assoc _ _ _)

theorem pixelPaletteAddr_front {bg : BgPixel} {p : SpritePixel} (h : bg.px = 0 ∨ p.behind = false) :
    pixelPaletteAddr bg (some p) = 0x3F00 + (0x10 + p.pal * 4 + p.px.toNat) := by
  have hfront : (bg.px == 0 || !p.behind) = true := by simpa using h
  rw [pixelPaletteAddr, if_pos hfront]
  omega

/-- R347: behind an opaque background a sprite is as if it were not there. -/
theorem pixelPaletteAddr_behind {bg : BgPixel} {p : SpritePixel} (h : bg.px ≠ 0) (hp : p.behind = true) :
    pixelPaletteAddr bg (some p) = pixelPaletteAddr bg none := by
  have hfront : ¬ (bg.px == 0 || !p.behind) = true := by
    rw [beq_eq_false_iff_ne.mpr h, hp]
    decide
  exact if_neg hfront

/-- Settles O55: the two sources, each hidden or whole, and the entry shown by the priority between them. -/
theorem pixelPriority : Obligations.PixelPriority := by
  intro x line s bg entry bgOff spritesOff shows
  have hbgEntry : bg.pal * 4 + bg.px.toNat < 0x20 := by
    have hpal : bg.pal < 4 := bgPixel_pal_lt x line s
    have hpx := bg.px.isLt
    omega
  refine ⟨bgPixel_off, bgPixel_fetched, fun _ => spritePatternPixel_sampled, spritePixel_off,
    spritePixel_some_iff x line s, fun hnone hbg => ?backdrop, fun hnone hbg => ?alone,
    fun p hp => ⟨?shown, fun hfront => ?front, fun hbg hbehind => ?behind⟩⟩
  case backdrop => exact pixelColour_eq (by decide) (hnone ▸ pixelPaletteAddr_backdrop hbg)
  case alone => exact pixelColour_eq hbgEntry (hnone ▸ pixelPaletteAddr_background hbg)
  case behind =>
    exact pixelColour_eq hbgEntry (hp ▸ (pixelPaletteAddr_behind hbg hbehind).trans (pixelPaletteAddr_background hbg))
  case shown => exact (spritePixel_bounds hp).1
  case front =>
    have hpal := (spritePixel_bounds hp).2
    have hpx := p.px.isLt
    exact pixelColour_eq (by omega) (hp ▸ pixelPaletteAddr_front hfront)

/-! ### The sprite-0 test (R350) -/

/-- R350: the test sets bit 6 where its condition holds, and no other bit. -/
theorem sprite0Test_status (x line : Nat) (s : State) (k : Nat) :
    (sprite0Test x line s).ppu.status.getLsbD k = (s.ppu.status.getLsbD k || (k == 6 &&
      (sprite0Enabled x s.ppu && sprite0Opaque x line s && !(s.cfg.s0RequireBgOpaque && (bgPixel x line s).px == 0)))) := by
  unfold sprite0Test
  split_ifs with h
  · rw [h, (getLsbD_or_status _ _).2.1, Bool.and_true]
  · rw [Bool.eq_false_of_not_eq_true h, Bool.and_false, Bool.or_false]

theorem sprite0Enabled_iff (x : Nat) (p : Ppu) :
    sprite0Enabled x p = true ↔ p.status.getLsbD 6 = false ∧ p.mask.getLsbD 3 = true ∧ p.mask.getLsbD 4 = true ∧
      (8 ≤ x ∨ (p.mask.getLsbD 1 = true ∧ p.mask.getLsbD 2 = true)) := by
  simp [sprite0Enabled, and_assoc]

theorem sprite0Opaque_iff (x line : Nat) (s : State) :
    sprite0Opaque x line s = true ↔
      SpriteCovers (oamSprite s.ppu.oam 0) x line s ∧ spritePatternPixel (oamSprite s.ppu.oam 0) x line s ≠ 0 := by
  simp [sprite0Opaque, spriteCovers, spriteHasColumn, SpriteCovers, spriteHeight, and_assoc]

/-- Settles O56: the tick is the sprite-0 test (`tick_sprite0Test`), and its condition is the statement's beside the bit being
clear. -/
theorem spriteZeroHit : Obligations.SpriteZeroHit := by
  intro s line x hl h hd hx e height hit
  rw [tick_sprite0Test hl h hd hx]
  refine ⟨by rw [sprite0Test_frame], fun k hk => ?other, ?hit⟩
  case other => simp [sprite0Test_status, hk]
  case hit =>
    have hbg : (!(s.cfg.s0RequireBgOpaque && (bgPixel x line s).px == 0)) = true ↔
        (s.cfg.s0RequireBgOpaque = true → (bgPixel x line s).px ≠ 0) := by
      simp [imp_iff_not_or]
    have htest : (sprite0Enabled x s.ppu && sprite0Opaque x line s &&
        !(s.cfg.s0RequireBgOpaque && (bgPixel x line s).px == 0)) = true ↔ s.ppu.status.getLsbD 6 = false ∧ hit := by
      rw [Bool.and_eq_true, Bool.and_eq_true, sprite0Enabled_iff, sprite0Opaque_iff, hbg]
      simp only [SpriteCovers, and_assoc]
      rfl
    rw [sprite0Test_status, Bool.or_eq_true, beq_self_eq_true, Bool.true_and, htest]
    cases s.ppu.status.getLsbD 6 <;> simp

end Sys2Proof.Machine

/-! Exceptions, the host, reset (spec/60_exceptions.md, spec/70_reset_and_hazards.md): the four events of a CPU step, an equation
each (`cpuStep_stall`, `cpuStep_nmi`, `cpuStep_irq`, `cpuStep_instr`); the cycles of a CPU step (`cpuStep_takes`) and everything
else it can do (`cpuStep_effect`); the interrupt sequence and its return; the frame driver as an iteration of the step
(`nextState`, `runFrameLoop_add`, `runFrameLoop_arrives`); and reset by one equation (`hostReset_eq`). -/

namespace Sys2Proof.Machine

/-! ### The events of a CPU step (R402) -/

theorem irqTaken_iff {s : State} : irqTaken s = true ↔ s.cpu.irqLine = true ∧ getFlag .i s.regs.p = false := by
  simp [irqTaken]

theorem not_irqTaken_iff {s : State} : irqTaken s = false ↔ s.cpu.irqLine = false ∨ getFlag .i s.regs.p = true := by
  cases hline : s.cpu.irqLine <;> simp [irqTaken, hline]

theorem cpuStep_stall {s : State} (h : 0 < s.cpu.stall) : cpuStep s = .next (stallCycle s) := if_pos h

theorem cpuStep_nmi {s : State} (hs : s.cpu.stall = 0) (hn : s.cpu.nmiPending = true) :
    cpuStep s = .next (serviceNmi s) := by
  simp [cpuStep, hs, hn]

theorem cpuStep_irq {s : State} (hs : s.cpu.stall = 0) (hn : s.cpu.nmiPending = false) (hi : irqTaken s = true) :
    cpuStep s = .next (serviceIrq s) := by
  simp [cpuStep, hs, hn, hi]

theorem cpuStep_instr {s : State} (hs : s.cpu.stall = 0) (hn : s.cpu.nmiPending = false) (hi : irqTaken s = false) :
    cpuStep s = runInstr s := by
  simp [cpuStep, hs, hn, hi]

/-- Settles O8: the four events by their equations; an IRQ is taken by `irqTaken_iff`. -/
theorem stepTakesOneEventByPriority : Obligations.StepTakesOneEventByPriority := fun _ =>
  ⟨cpuStep_stall, cpuStep_nmi, fun hs hn hline hI => cpuStep_irq hs hn (irqTaken_iff.mpr ⟨hline, hI⟩),
    fun hs hn hi => cpuStep_instr hs hn (not_irqTaken_iff.mpr hi)⟩

/-- R123: the last event of a step, where the fetched bytes decode. -/
theorem runInstr_of_decode {s : State} {i : Instr} {rest : List Byte} (hd : decode (fetchInstr s).bytes = .ok (i, rest)) :
    runInstr s = exec i (fetchInstr s).st := by
  simp only [runInstr, hd]

/-- R415: a CPU step that goes on, then its ticks. -/
theorem step_of_cpuStep {s t : State} (h : cpuStep s = .next t) : step s = .next (ticks (3 * returnedCycles s t) t) := by
  rw [step, systemStep, h]

/-- Settles O5: with no other event first the CPU step is the instruction's meaning (`cpuStep_instr`, `runInstr_of_decode`). -/
theorem stepRunsDecodedInstruction : Obligations.StepRunsDecodedInstruction := by
  intro s i rest hs hn hi hd
  have hstep : cpuStep s = exec i (fetchInstr s).st := (cpuStep_instr hs hn hi).trans (runInstr_of_decode hd)
  obtain ⟨t, ht⟩ := exec_next i (fetchInstr s).st
  rw [ht]
  exact step_of_cpuStep (hstep.trans ht)

/-! ### The cycles of a CPU step (R402, R415) -/

@[simp] theorem fetch_cpu (s : State) : (fetch s).st.cpu = s.cpu := busRead_cpu s.regs.pc s

@[simp] theorem fetchBytes_cpu (n : Nat) (s : State) : (fetchBytes n s).st.cpu = s.cpu := by
  induction n generalizing s with
  | zero => rfl
  | succ n ih => exact (ih _).trans (fetch_cpu s)

@[simp] theorem fetchInstr_cpu (s : State) : (fetchInstr s).st.cpu = s.cpu := by
  rw [fetchInstr_eq_fetchBytes, fetchBytes_cpu]

/-- R118: every cell of the matrix has at least one cycle. -/
theorem one_le_baseCycles (op : Byte) : 1 ≤ baseCycles op := by
  revert op
  decide +kernel

theorem exists_opcode_of_wf {i : Instr} (hwf : i.wf = true) : ∃ op, i.opcode = some op := by
  obtain ⟨op, bytes, henc, -⟩ := encode_eq_cons hwf
  cases ho : i.opcode with
  | none => simp [encode, ho] at henc
  | some op => exact ⟨op, rfl⟩

theorem TakesCycles.charge {s t : State} (h : t.cpu.cycles = s.cpu.cycles) (n : Nat) :
    TakesCycles n s (.next (t.charge n)) :=
  ⟨_, rfl, by rw [State.charge_cpu_cycles, h]⟩

/-- R118: the fetched instruction takes the cycles of the matrix. -/
theorem runInstr_takes (s : State) : ∃ n, 1 ≤ n ∧ n ≤ 10 ∧ TakesCycles n s (runInstr s) := by
  obtain ⟨i, rest, hd⟩ := decode_fetchInstr s
  obtain ⟨op, ho⟩ := exists_opcode_of_wf (encodeOfDecodeRoundTrip _ _ _ hd).1
  have hpos := one_le_baseCycles op
  have hbase := baseCycles_le op
  have hpenalty := penalty_le i op (fetchInstr s).st
  refine ⟨baseCycles op + penalty i op (fetchInstr s).st, by omega, by omega, ?_⟩
  obtain ⟨t, ht, hcycles⟩ := exec_inMatrixCycles (fetchInstr s).st ho
  exact ⟨t, (runInstr_of_decode hd).trans ht, by rw [hcycles, fetchInstr_cpu]⟩

/-- R402: a CPU step goes on, after one cycle of a stall, seven of an interrupt or those of its instruction. -/
theorem cpuStep_takes (s : State) : ∃ n, 1 ≤ n ∧ n ≤ 10 ∧ TakesCycles n s (cpuStep s) := by
  by_cases hs : 0 < s.cpu.stall
  · exact ⟨1, by decide, by decide, cpuStep_stall hs ▸ TakesCycles.charge rfl 1⟩
  have hs : s.cpu.stall = 0 := Nat.eq_zero_of_not_pos hs
  cases hn : s.cpu.nmiPending with
  | true => exact ⟨7, by decide, by decide, cpuStep_nmi hs hn ▸ TakesCycles.charge (by rw [interrupt_cpu]) 7⟩
  | false =>
    cases hi : irqTaken s with
    | true => exact ⟨7, by decide, by decide, cpuStep_irq hs hn hi ▸ TakesCycles.charge (by rw [interrupt_cpu]) 7⟩
    | false => exact cpuStep_instr hs hn hi ▸ runInstr_takes s

/-- Settles O57: a step's count is at least one and below 2^64, so the cycle counter gives it back (`returnedCycles_eq`). -/
theorem systemStepTicksThreePerCycle : Obligations.SystemStepTicksThreePerCycle := by
  intro s
  obtain ⟨n, hpos, hle, t, ht, hcycles⟩ := cpuStep_takes s
  exact ⟨t, ht, by rw [returnedCycles_eq hcycles (by omega)]; exact hpos, step_of_cpuStep ht⟩

/-! ### The frame driver's run (R419, R421) -/

/-- The state after a step. -/
def nextState (s : State) : State :=
  match step s with
  | .next t => t
  | .fault _ => s
  | .refused _ => s

/-- R421: no step stops. -/
theorem step_eq_nextState (s : State) : step s = .next (nextState s) := by
  obtain ⟨t, -, -, ht⟩ := systemStepTicksThreePerCycle s
  rw [nextState, ht]

theorem step_iterate_nextState (k : Nat) (s : State) : step (nextState^[k] s) = .next (nextState^[k + 1] s) := by
  rw [Function.iterate_succ_apply']
  exact step_eq_nextState _

theorem runFrameLoop_succ (budget : Nat) (s : State) :
    runFrameLoop (budget + 1) s =
      if (nextState s).ppu.frameReady then .next (nextState s, true) else runFrameLoop budget (nextState s) := by
  rw [runFrameLoop, step_eq_nextState]

/-- R419: while no step sets the flag the driver goes on. -/
theorem runFrameLoop_add {k : Nat} (budget : Nat) {s : State}
    (h : ∀ j, j < k → (nextState^[j + 1] s).ppu.frameReady = false) :
    runFrameLoop (k + budget) s = runFrameLoop budget (nextState^[k] s) := by
  induction k generalizing s with
  | zero => rw [Nat.zero_add, Function.iterate_zero_apply]
  | succ k ih =>
    have hfirst : (nextState s).ppu.frameReady = false := h 0 (Nat.zero_lt_succ k)
    rw [Nat.succ_add, runFrameLoop_succ, hfirst, if_neg Bool.false_ne_true,
      ih fun j hj => h (j + 1) (Nat.succ_lt_succ hj), Function.iterate_succ_apply]

/-- R419: the first step that sets the flag ends the run. -/
theorem runFrameLoop_true {n k : Nat} {s : State} (hk : k < n)
    (h : ∀ j, j < k → (nextState^[j + 1] s).ppu.frameReady = false)
    (hset : (nextState^[k + 1] s).ppu.frameReady = true) : runFrameLoop n s = .next (nextState^[k + 1] s, true) := by
  obtain ⟨budget, rfl⟩ : ∃ budget, n = k + (budget + 1) := ⟨n - k - 1, by omega⟩
  rw [Function.iterate_succ_apply'] at hset ⊢
  rw [runFrameLoop_add _ h, runFrameLoop_succ, if_pos hset]

/-- R419: the run ends without a frame when all its steps are made. -/
theorem runFrameLoop_false {n : Nat} {s : State} (h : ∀ j, j < n → (nextState^[j + 1] s).ppu.frameReady = false) :
    runFrameLoop n s = .next (nextState^[n] s, false) :=
  runFrameLoop_add 0 h

theorem runFrameLoop_next (budget : Nat) (s : State) : ∃ t b, runFrameLoop budget s = .next (t, b) := by
  induction budget generalizing s with
  | zero => exact ⟨s, false, rfl⟩
  | succ budget ih =>
    rw [runFrameLoop_succ]
    split
    · exact ⟨_, _, rfl⟩
    · exact ih _

/-- Settles O7: a CPU step goes on after its cycles (`cpuStep_takes`), a step is that and its ticks, and the driver is an
iteration of the step. -/
theorem everyOperationIsTotal : Obligations.EveryOperationIsTotal := by
  intro s
  obtain ⟨t, hcpu, -, hstep⟩ := systemStepTicksThreePerCycle s
  exact ⟨⟨_, hstep⟩, ⟨t, hcpu⟩, fun n => runFrameLoop_next n _⟩

/-! ### Everything a CPU step can do (R402) -/

/-- Beside the CPU registers and the cycle counter, `t` differs from `s` at most in what a CPU-bus write may change. -/
def CpuEffect (s t : State) : Prop := WriteEffect { s with regs := t.regs, cpu.cycles := t.cpu.cycles } t

theorem CpuEffect.trans {s t u : State} (h : CpuEffect s t) (h' : CpuEffect t u) : CpuEffect s u := by
  unfold CpuEffect WriteEffect at *
  rw [h'] at *
  rw [h]

theorem WriteEffect.toCpu {s t : State} (h : WriteEffect s t) : CpuEffect s t := by
  unfold CpuEffect
  rwa [h.regs, h.cycles]

theorem ReadEffect.toCpu {s t : State} (h : ReadEffect s t) : CpuEffect s t := h.write.toCpu

theorem setPC_effect (v : Addr) (s : State) : CpuEffect s (s.setPC v) := rfl
theorem setSP_effect (v : Byte) (s : State) : CpuEffect s (s.setSP v) := rfl
theorem setP_effect (v : Byte) (s : State) : CpuEffect s (s.setP v) := rfl
theorem mapRegs_effect (f : Regs → Regs) (s : State) : CpuEffect s (s.mapRegs f) := rfl
theorem charge_effect (n : Nat) (s : State) : CpuEffect s (s.charge n) := rfl

theorem push_effect (v : Byte) (s : State) : CpuEffect s (push v s) := by
  rw [push_eq]
  rfl

theorem pull_effect (s : State) : CpuEffect s (pull s).st := by
  rw [pull_eq]
  rfl

theorem loadPC_effect (vector : Addr) (s : State) : CpuEffect s (loadPC vector s) :=
  ((busRead_effect vector s).trans (busRead_effect (vector + 1) _)).toCpu.trans (setPC_effect _ _)

theorem interrupt_effect (vector : Addr) (brk : Bool) (s : State) : CpuEffect s (interrupt vector brk s) := by
  unfold interrupt
  exact (push_effect _ s).trans <| (push_effect _ _).trans <| (push_effect _ _).trans <|
    (setP_effect _ _).trans (loadPC_effect vector _)

theorem returnFromInterrupt_effect (s : State) : CpuEffect s (returnFromInterrupt s) := by
  rw [returnFromInterrupt_eq]
  rfl

theorem readInstr_effect {m : Operand} {f : Byte → Regs → Regs} {s t : State} (ht : readInstr m f s = .next t) :
    CpuEffect s t := by
  cases ht
  exact (readOperand_effect m s).toCpu.trans <| (mapRegs_effect _ _).trans (charge_effect _ _)

theorem storeInstr_effect {m : Operand} {value : Byte → Regs → Byte} {s t : State} (ht : storeInstr m value s = .next t) :
    CpuEffect s t := by
  cases ht
  exact ((effAddr_read m s).write.trans (busWrite_effect _ _ _)).toCpu.trans (charge_effect _ _)

theorem modifyOperand_effect (f : Bool → Byte → Shifted) (m : Operand) (s : State) :
    CpuEffect s (modifyOperand f m s).st := by
  cases m with
  | acc => rfl
  | imm | zp | zpx | zpy | abs | abx | aby | izx | izy =>
    exact ((effAddr_read _ s).trans (busRead_effect _ _)).toCpu.trans <|
      (setP_effect _ _).trans (busWrite_effect _ _ _).toCpu

theorem modifyInstr_effect {m : Operand} {f : Bool → Byte → Shifted} {g : Byte → Regs → Regs} {s t : State}
    (ht : modifyInstr m f g s = .next t) : CpuEffect s t := by
  cases ht
  exact (modifyOperand_effect f m s).trans <| (mapRegs_effect _ _).trans (charge_effect _ _)

theorem branchInstr_effect {c : Bool} {o : Byte} {s t : State} (ht : branchInstr c o s = .next t) : CpuEffect s t := by
  cases c <;> cases ht <;> rfl

/-- Everything an instruction can do to the state. -/
theorem exec_effect {i : Instr} {s t : State} (ht : exec i s = .next t) : CpuEffect s t := by
  cases i with
  | tax | tay | txa | tya | tsx | txs | inx | iny | dex | dey | clc | sec | cli | sei | clv | cld | sed | nop | anc | anc2B
  | alr | arr | sbx | usbc | xaa | lxa | unk | jmpAbs =>
    cases ht
    rfl
  | lda | ldx | ldy | adc | sbc | and | ora | eor | cmp | cpx | cpy | bit | lax | las =>
    dsimp only [exec, execLda, execLdx, execLdy, execAnd, execOra, execEor, execLax, execLas] at ht
    exact readInstr_effect ht
  | sta | stx | sty | sax | shy | shx | ahx =>
    dsimp only [exec, execSta, execStx, execSty, execSax, execShy, execShx, execAhx] at ht
    exact storeInstr_effect ht
  | tas =>
    dsimp only [exec, execTas] at ht
    exact (setSP_effect _ s).trans (storeInstr_effect ht)
  | inc | dec | asl | lsr | rol | ror | slo | rla | sre | rra | dcp | isc =>
    dsimp only [exec, execSlo, execRla, execSre] at ht
    exact modifyInstr_effect ht
  | bpl | bmi | bvc | bvs | bcc | bcs | bne | beq => exact branchInstr_effect ht
  | jmpInd p =>
    cases ht
    exact ((busRead_effect p s).trans (busRead_effect _ _)).toCpu.trans <| (setPC_effect _ _).trans (charge_effect 5 _)
  | jsr =>
    cases ht
    exact (push_effect _ s).trans <| (push_effect _ _).trans <| (setPC_effect _ _).trans (charge_effect 6 _)
  | pha | php =>
    cases ht
    exact (push_effect _ s).trans (charge_effect 3 _)
  | rts =>
    cases ht
    exact (pull_effect s).trans <| (pull_effect _).trans <| (setPC_effect _ _).trans (charge_effect 6 _)
  | pla =>
    cases ht
    exact (pull_effect s).trans <| (mapRegs_effect _ _).trans (charge_effect 4 _)
  | plp =>
    cases ht
    exact (pull_effect s).trans <| (setP_effect _ _).trans (charge_effect 4 _)
  | rti =>
    cases ht
    exact (returnFromInterrupt_effect s).trans (charge_effect 6 _)
  | brk =>
    cases ht
    exact (setPC_effect _ s).trans <| (interrupt_effect _ _ _).trans (charge_effect 7 _)

theorem fetch_effect (s : State) : CpuEffect s (fetch s).st := (busRead_effect s.regs.pc s).toCpu.trans (setPC_effect _ _)

theorem fetchBytes_effect (n : Nat) (s : State) : CpuEffect s (fetchBytes n s).st := by
  induction n generalizing s with
  | zero => rfl
  | succ n ih => exact (fetch_effect s).trans (ih _)

theorem fetchInstr_effect (s : State) : CpuEffect s (fetchInstr s).st := by
  rw [fetchInstr_eq_fetchBytes]
  exact fetchBytes_effect _ s

theorem stallCycle_effect (s : State) : CpuEffect s (stallCycle s) := rfl

theorem serviceNmi_effect (s : State) : CpuEffect s (serviceNmi s) := by
  have hclear : CpuEffect s { s with cpu.nmiPending := false } := rfl
  exact hclear.trans <| (interrupt_effect _ _ _).trans (charge_effect 7 _)

theorem serviceIrq_effect (s : State) : CpuEffect s (serviceIrq s) := (interrupt_effect _ _ s).trans (charge_effect 7 _)

/-- R402: everything a CPU step can do to the state. -/
theorem cpuStep_effect {s t : State} (ht : cpuStep s = .next t) : CpuEffect s t :=
  cpuStep_cases ht (stallCycle_effect s) (serviceNmi_effect s) (serviceIrq_effect s) fun _ hi =>
    (fetchInstr_effect s).trans (exec_effect hi)

/-- A CPU step leaves the PPU's position and the frame flag. -/
theorem CpuEffect.position {s t : State} (h : CpuEffect s t) :
    t.ppu.scanline = s.ppu.scanline ∧ t.ppu.dot = s.ppu.dot ∧ t.ppu.frameReady = s.ppu.frameReady := by
  unfold CpuEffect WriteEffect at h
  rw [h]
  exact ⟨rfl, rfl, rfl⟩

/-! ### A frame arrives (R351, R353, R415, R419) -/

theorem ticks_frameReady (n : Nat) {s : State} (h : s.ppu.frameReady = true) : (ticks n s).ppu.frameReady = true := by
  induction n generalizing s with
  | zero => exact h
  | succ n ih => exact ih (tick_frameReady h)

/-- `n` ticks set the frame flag or come `n` nearer to it. -/
theorem ticks_ticksToFrame (n : Nat) {s : State} (hp : s.ppu.posOk) :
    (ticks n s).ppu.posOk ∧
      ((ticks n s).ppu.frameReady = true ∨ ticksToFrame s.ppu = ticksToFrame (ticks n s).ppu + n) := by
  induction n generalizing s with
  | zero => exact ⟨hp, .inr rfl⟩
  | succ n ih =>
    obtain ⟨hpos, hset | hnear⟩ := tick_ticksToFrame hp
    · exact ⟨(ih hpos).1, .inl (ticks_frameReady n hset)⟩
    · obtain ⟨hpos', hset' | hnear'⟩ := ih hpos
      · exact ⟨hpos', .inl hset'⟩
      · exact ⟨hpos', .inr (by rw [hnear, hnear']; rfl)⟩

/-- R415: a step sets the frame flag or comes at least three ticks nearer to it. -/
theorem nextState_ticksToFrame {s : State} (hp : s.ppu.posOk) :
    (nextState s).ppu.posOk ∧
      ((nextState s).ppu.frameReady = true ∨ ticksToFrame (nextState s).ppu + 3 ≤ ticksToFrame s.ppu) := by
  obtain ⟨t, hcpu, hcount, hstep⟩ := systemStepTicksThreePerCycle s
  have hnext : nextState s = ticks (3 * returnedCycles s t) t :=
    Host.Outcome.next.inj ((step_eq_nextState s).symm.trans hstep)
  obtain ⟨hline, hdot, -⟩ := (cpuStep_effect hcpu).position
  have hp' : t.ppu.posOk := by
    unfold Ppu.posOk
    rw [hline, hdot]
    exact hp
  have hsame : ticksToFrame t.ppu = ticksToFrame s.ppu := by
    unfold ticksToFrame
    rw [hline, hdot]
  rw [hnext]
  obtain ⟨hpos, hset | hnear⟩ := ticks_ticksToFrame (3 * returnedCycles s t) hp'
  · exact ⟨hpos, .inl hset⟩
  · exact ⟨hpos, .inr (by omega)⟩

/-- R419: with three ticks for each step, a budget that covers the ticks to the frame is enough. -/
theorem runFrameLoop_arrives {budget : Nat} {s : State} (hp : s.ppu.posOk) (hb : ticksToFrame s.ppu ≤ 3 * budget) :
    ∃ t, runFrameLoop budget s = .next (t, true) ∧ t.ppu.frameReady = true := by
  induction budget generalizing s with
  | zero =>
    have hpos := (ticksToFrame_le s.ppu).1
    omega
  | succ budget ih =>
    obtain ⟨hpos, hnear⟩ := nextState_ticksToFrame hp
    rw [runFrameLoop_succ]
    split
    · exact ⟨_, rfl, ‹_›⟩
    · exact ih hpos (by have := hnear.resolve_left ‹_›; omega)

/-- Settles O58: the frame is at most 89342 ticks away (`ticksToFrame_le`), and 29781 steps make at least 89343. -/
theorem frameArrivesWithin29781Steps : Obligations.FrameArrivesWithin29781Steps := by
  intro s hp
  have hle := (ticksToFrame_le s.ppu).2
  exact runFrameLoop_arrives (s := { s with ppu.frameReady := false }) hp (hle.trans (by decide))

/-! ### The interrupt sequence and its return (R204, R403 to R406, R408, R410) -/

/-- R404: the vectors of NMI, IRQ and BRK lie in PRG. -/
theorem vector_inPrg {vector : Addr} (h : vector = 0xFFFA ∨ vector = 0xFFFE) :
    0x8000 ≤ vector.toNat ∧ 0x8000 ≤ (vector + 1).toNat := by
  rcases h with rfl | rfl <;> decide

/-- Settles O31: `interrupt_pushes`, whose P is that of before with I set. -/
theorem interruptSequence : Obligations.InterruptSequence := by
  intro vector brk s hv hw t
  obtain ⟨h, h'⟩ := vector_inPrg hv
  obtain ⟨hpushes, hregs, hlast⟩ := interrupt_pushes h h' brk hw
  have hp : t.regs.p = setFlag .i true s.regs.p := congrArg Regs.p hregs
  exact ⟨hpushes, by rw [hp]; exact hregs, by simp [hp], fun f hf => by simp [hp, hf], hlast⟩

/-- R12, R204, R410: a status byte in form is its own image, pulled or pushed by an interrupt. -/
theorem pulledP_eq_self {r : Regs} (h : r.pOk) : pulledP r.p = r.p := by
  obtain ⟨hu, hb⟩ := h
  apply flags_ext
  intro f
  cases f <;> simp [hu, hb]

/-- R403, R410: interrupt service pushes P as it is. -/
theorem interrupt_charge_pushes {vector : Addr} (hv : vector = 0xFFFA ∨ vector = 0xFFFE) {s : State}
    (hw : Memory.wf 2048 s.bus.ram = true) (hp : s.regs.pOk) :
    Pushes [hi s.regs.pc, lo s.regs.pc, s.regs.p] 7 s ((interrupt vector false s).charge 7) := by
  have h := (interruptSequence vector false s hv hw).1.charge 7
  have himage : (s.regs.p ||| 0x20) &&& 0xEF = s.regs.p := pulledP_eq_self hp
  simpa only [himage, Bool.false_eq_true, if_false] using h

/-- Settles O32: the two services by `cpuStep_nmi` and `cpuStep_irq`; the sequence leaves the latch and the line
(`interrupt_cpu`), and the I it sets masks the line. -/
theorem interruptServiceConsumesNmiOnly : Obligations.InterruptServiceConsumesNmiOnly := by
  intro s hs hw hp
  refine ⟨fun hn => ?nmi, fun hn hline hI => ?irq⟩
  case nmi =>
    obtain ⟨-, hregs, -⟩ := interruptSequence 0xFFFA false { s with cpu.nmiPending := false } (.inl rfl) hw
    refine ⟨_, cpuStep_nmi hs hn, interrupt_charge_pushes (.inl rfl) hw hp, congrArg Regs.pc hregs, ?_, ?_⟩
    · rw [serviceNmi, State.charge_cpu_nmiPending, interrupt_cpu]
    · rw [serviceNmi, State.charge_cpu_irqLine, interrupt_cpu]
  case irq =>
    obtain ⟨-, hregs, hmasked, -, -⟩ := interruptSequence 0xFFFE false s (.inr rfl) hw
    refine ⟨_, cpuStep_irq hs hn (irqTaken_iff.mpr ⟨hline, hI⟩), interrupt_charge_pushes (.inr rfl) hw hp,
      congrArg Regs.pc hregs, ?_, not_irqTaken_iff.mpr (.inr hmasked)⟩
    rw [serviceIrq, State.charge_cpu_irqLine, interrupt_cpu, hline]

/-- Settles O33: RTI pulls what the sequence pushed (`Pushes.pulledByte_eq`), and either image of P is pulled as P. -/
theorem rtiUndoesInterrupt : Obligations.RtiUndoesInterrupt := by
  intro vector brk s t hv hw hp ht
  obtain ⟨hpushes, hregs, -⟩ := interruptSequence vector brk s hv hw
  cases ht.symm.trans (exec_rti_eq (interrupt vector brk s))
  have himage : pulledP (pulledByte (interrupt vector brk s) 0) = s.regs.p := by
    rw [hpushes.pulledByte_eq (j := 0) rfl]
    cases brk with
    | true => exact pulledP_pushedByInstruction hp
    | false => exact (congrArg pulledP (pulledP_eq_self hp)).trans (pulledP_eq_self hp)
  have hlow : pulledByte (interrupt vector brk s) 1 = lo s.regs.pc := hpushes.pulledByte_eq rfl
  have hhigh : pulledByte (interrupt vector brk s) 2 = hi s.regs.pc := hpushes.pulledByte_eq rfl
  rw [himage, hlow, hhigh, hregs, w16_lo_hi, BitVec.sub_add_cancel]

/-! ### Reset (R440 to R443) -/

/-- R440, R442: everything reset does. -/
theorem hostReset_eq (s : State) :
    hostReset s = { s with
      regs := { s.regs with pc := vectorWord 0xFFFC s, sp := 0xFD, p := 0x24 }
      cpu := { s.cpu with cycles := 7, stall := 0, nmiPending := false, irqLine := false }
      bus := { s.bus with lastBus := prgByte 0xFFFD s }
      ppu := Ppu.cleared s.cfg s.ppu.oam s.ppu.vram s.ppu.palette s.ppu.framebuffer } := by
  rw [hostReset, cpuReset, loadPC_eq (vector := resetVector) (by decide) (by decide)]
  rfl

/-- R440: after reset I masks the IRQ line. -/
theorem hostReset_masks (s : State) : getFlag .i (hostReset s).regs.p = true := by
  have h : getFlag .i 0x24 = true := by decide
  rw [hostReset_eq]
  exact h

/-- Settles O59: each clause reads off `hostReset_eq`; the reset vector of the blank cartridge is zero. -/
theorem resetForcesRegistersKeepsMemories : Obligations.ResetForcesRegistersKeepsMemories := by
  refine ⟨fun s => ⟨hostReset_eq s, hostReset_masks s⟩, ?blank, fun cart init => ?load⟩
  case blank =>
    rw [load, hostReset_eq]
    rfl
  case load =>
    have hmasked := hostReset_masks (powerOn cart Params.default init)
    rw [hostReset_eq] at hmasked
    rw [load, hostReset_eq]
    exact ⟨rfl, rfl, hmasked, rfl, rfl, rfl, rfl, rfl⟩

/-! ### The host between steps (R406, R419, R420) -/

/-- R36: pixel (x, y) of the framebuffer. -/
theorem framebuffer_getElem? (s : State) {x y : Nat} (hx : x < 256) (hy : y < 240) :
    (framebuffer s)[y * 256 + x]? = some (framebufferWord x y s) := by
  have hcolumn : (y * 256 + x) % 256 = x := by omega
  have hrow : (y * 256 + x) / 256 = y := by omega
  rw [framebuffer, List.getElem?_map, List.getElem?_range (by omega), Option.map_some, hcolumn, hrow]

/-- R59, R60: with strobe low a read of the controller port does not look at the controller byte. -/
theorem busRead_setController {s : State} (h : s.bus.strobe = false) (v : Byte) :
    busRead 0x4016 (setController v s) = ⟨(busRead 0x4016 s).val, setController v (busRead 0x4016 s).st⟩ := by
  rw [busRead_controller_low h, busRead_controller_low (s := setController v s) h]
  rfl

/-- Settles O60: the controller by its port's equations, the IRQ line by the event that comes next, and the driver's run as
the iteration of the step. -/
theorem hostOperations : Obligations.HostOperations := by
  intro s v w high
  refine ⟨rfl, fun h => ?strobeHigh, fun h hw => ?fall, fun h => busRead_setController h v, rfl,
    fun hs hn hI => ⟨?asserted, ?clear⟩, ?length, fun x y => framebuffer_getElem? s, ?driver⟩
  case strobeHigh =>
    rw [busRead_controller_high (s := setController v s) h]
    exact serialByte_eq v
  case fall =>
    rw [busWrite_controller]
    exact if_pos ⟨h, hw⟩
  case asserted => exact cpuStep_irq (s := setIrqLine true s) hs hn (irqTaken_iff.mpr ⟨rfl, hI⟩)
  case clear => exact cpuStep_instr (s := setIrqLine false s) hs hn (not_irqTaken_iff.mpr (.inl rfl))
  case length => simp [framebuffer]
  case driver =>
    exact ⟨fun k => nextState^[k] { s with ppu.frameReady := false }, rfl, fun k => step_iterate_nextState k _,
      fun n => ⟨fun k => runFrameLoop_true, runFrameLoop_false⟩⟩

end Sys2Proof.Machine
